-- ==== Sys2Proof/Word.lean ====
section
/-! DEFINITION. The word types of FFTR2 (00_scope.md R12) and the pair of words that is one sample
(10_state.md R30). -/

namespace Sys2Proof

abbrev Byte := BitVec 8

/-- `u32` of R12: a register value or a command word. -/
abbrev Word32 := BitVec 32

/-- `u64` of R12: a word of the sample RAM. -/
abbrev Word64 := BitVec 64

/-- A byte offset in the host window of 2 MiB (20_memory.md R50: 21 bits). -/
abbrev Offset := BitVec 21

/-- One sample slot: the words `S[j].re` and `S[j].im` (R30). In representation S the binary32
pattern of a component stands in bits [31:0] (20_memory.md R57). -/
structure Sample where
  re : Word64
  im : Word64
deriving DecidableEq, Repr

end Sys2Proof
end

