-- ==== Sys2Proof/Config.lean ====
section
/-! DEFINITION. What an implementation fixes (00_scope.md R6 to R8) and the free values: constants
with no body, so that no proof can see a value of them. -/

namespace Sys2Proof

/-- The parameters of the block: the two of its build (R6, R7; 93_implementation_defined.md U21, U22),
which the host reads in PARAM (10_state.md R24), and where the platform maps it (R8, U20). Every
operation that depends on one takes them as an argument. Log 9. -/
structure Params where
  /-- `LOG2_NMAX`: NMAX = 2^LOG2_NMAX is the largest transform size. -/
  log2Nmax    : Nat
  /-- `RENORM_SHIFT`: the right shift of the renormalization stage. -/
  renormShift : Nat
  /-- `BLOCK_BASE`: the platform address of the host window, a multiple of its size. -/
  blockBase   : Nat
deriving DecidableEq, Repr

/-- `NMAX` (R6). -/
def Params.nmax (p : Params) : Nat := 2 ^ p.log2Nmax

/-- The parameters State.reset has: LOG2_NMAX = 16 (the default of R6), RENORM_SHIFT = 32 (R7), and
BLOCK_BASE = 0, DESIGN CHOICE: the platform's to choose (U20). Log 9. -/
def Config.params : Params := { log2Nmax := 16, renormShift := 32, blockBase := 0 }

/-- The size of the host window, 2 MiB (20_memory.md R50). -/
def Config.windowBytes : Nat := 0x200000

/-- The platform address of a block offset (R8, R50). -/
def Params.address (p : Params) (off : Offset) : Nat := p.blockBase + off.toNat

/-- The block offset a platform address names, when it lies in the host window (R8, R50). -/
def Params.offsetOf (p : Params) (a : Nat) : Option Offset :=
  if p.blockBase ≤ a ∧ a < p.blockBase + Config.windowBytes then
    some (BitVec.ofNat 21 (a - p.blockBase))
  else none

/-- FREE VALUE (10_state.md R39, 70_reset_and_hazards.md R282, U1, U10): what the byte of the sample RAM
at a block offset holds after reset number `draw` until something writes it. Log 6. -/
opaque Config.unwrittenByte : (draw offset : Nat) → Byte

/-- FREE VALUE (R39, U2): what an entry of REV holds after reset number `draw` until an INIT writes it: its
low LOG2_NMAX bits, the width of an entry (R32). Log 7. -/
opaque Config.unwrittenRev : (draw index : Nat) → Nat

/-- FREE VALUE (R39, U3): what an entry of SCR holds after reset number `draw` until a permutation writes
it. Log 7. -/
opaque Config.unwrittenScratch : (draw index : Nat) → Word64 × Word64

/-- FREE VALUE: the word of draw number `k`, for a read of memory in use (U5, U6), for the words of
S after a hazard (U7), and for OVF after a hazard. Logs 14, 17. -/
opaque Config.freeWord : Nat → Word64

/-- FREE VALUE (U11): at draw number `k`, with a long command running and a host access waiting,
whether the host moves before the engine. Log 2. -/
opaque Config.hostFirst : Nat → Bool

end Sys2Proof
end

