-- ==== Sys2Proof/Syntax.lean ====
section
/-! DEFINITION. The commands of FFTR2, one constructor per row of spec/opcode_table.json, the fields
of a command word (30_encoding.md R81), and the statements of a host program (R90). -/

namespace Sys2Proof

/-- The seven commands (30_encoding.md R88). The operand of a command is not in its word: it is the
value of ARG when the word is written (R80, R85). -/
inductive Instr where
  | nop     -- NOP     44_execute.md R220
  | initI   -- INIT.I  41_bitrev.md R145, FWD = 0
  | initF   -- INIT.F  41_bitrev.md R145, FWD = 1
  | setwin  -- SETWIN  42_window.md R163
  | execD   -- EXEC.D  44_execute.md R224
  | execS   -- EXEC.S  44_execute.md R225
  | execQ   -- EXEC.Q  44_execute.md R226
deriving DecidableEq, Repr

/-- The three numeric representations (40_numerics.md R100): binary64, binary32, Q32.32. -/
inductive Representation where
  | D
  | S
  | Q
deriving DecidableEq, Repr

/-- The fields of a command word (R81): OP [3:0], FWD [8], REPR [13:12], and the reserved bits,
kept at their places in the word. -/
structure CommandFields where
  op       : BitVec 4
  fwd      : Bool
  repr     : BitVec 2
  reserved : Word32
deriving DecidableEq, Repr

/-- What the outside world does, one entry each: the bus accesses of R90, which name platform addresses
(00_scope.md R8), and the two edges of the reset input (70_reset_and_hazards.md R280). -/
inductive HostOp where
  /-- A read of `n` bytes: in the host window `MemRead(addr, n)` (20_memory.md R55). -/
  | read (addr n : Nat)
  /-- A write of `n` bytes: in the host window `MemWrite(addr, n, v)` (R56); only the low 8n bits of
  `v` count. -/
  | write (addr n : Nat) (v : Word64)
  /-- Read the block's STATUS repeatedly until BUSY = 0 (R90). -/
  | poll
  | assertReset
  | releaseReset
deriving DecidableEq, Repr

end Sys2Proof
end

