-- ==== Sys2Proof/WellFormed.lean ====
section
/-! DEFINITION. Which terms of the syntax are legal: the legality of a command word (30_encoding.md
R87) and the ranges of the parameters (00_scope.md R6, R8). -/

namespace Sys2Proof

/-- The bits of a command word that are reserved and must be 0: the complement of 0x0000310F (R81). -/
def reservedMask : Word32 := 0xFFFFCEF0#32

/-- The legality of a command word by its fields (R87): no reserved bit, OP at most 3, FWD only with
INIT (OP = 1), REPR only with EXEC (OP = 3) and then not 3. -/
def CommandFields.wf (f : CommandFields) : Bool :=
  f.reserved &&& reservedMask == 0#32
    && decide (f.op.toNat ≤ 3)
    && (!f.fwd || f.op == 1#4)
    && (f.repr == 0#2 || f.op == 3#4)
    && f.repr != 3#2

/-- The fields of each command (R81, R88; the `source_fields` of the opcode table). -/
def Instr.fields : Instr → CommandFields
  | .nop    => { op := 0, fwd := false, repr := 0, reserved := 0 }
  | .initI  => { op := 1, fwd := false, repr := 0, reserved := 0 }
  | .initF  => { op := 1, fwd := true,  repr := 0, reserved := 0 }
  | .setwin => { op := 2, fwd := false, repr := 0, reserved := 0 }
  | .execD  => { op := 3, fwd := false, repr := 0, reserved := 0 }
  | .execS  => { op := 3, fwd := false, repr := 1, reserved := 0 }
  | .execQ  => { op := 3, fwd := false, repr := 2, reserved := 0 }

/-- A command is well formed when its fields are legal: every one is (R88). -/
def Instr.wf (i : Instr) : Bool := i.fields.wf

/-- The ranges of the parameters: LOG2_NMAX in [1, 16] (R6), a RENORM_SHIFT that fits its 8 bits of
PARAM (10_state.md R24), and a BLOCK_BASE that is a multiple of 0x200000 (R8). -/
def Params.wf (p : Params) : Bool :=
  decide (1 ≤ p.log2Nmax) && decide (p.log2Nmax ≤ 16) && decide (p.renormShift < 256)
    && p.blockBase % Config.windowBytes == 0

end Sys2Proof
end

