-- ==== Sys2Proof/Decode.lean ====
section
/-! DEFINITION. Decoding of command words (30_encoding.md R86), total on all 2^32 words and on any
bytes, rejecting by name, and after it the encoder (R88). -/

namespace Sys2Proof

/-- Why a word is no command. Every one of these is ILLEGAL_CMD (60_exceptions.md R256), but for
`notFourBytes`, which a 4-byte write to CMD cannot give (R80). -/
inductive Reject where
  | reservedBit
  | fwdOutsideInit
  | reprOutsideExec
  | reprIllegal
  | opIllegal
  | notFourBytes
deriving DecidableEq, Repr

/-- The fields of a command word (R81). -/
def fieldsOf (w : Word32) : CommandFields :=
  { op       := w.extractLsb' 0 4
    fwd      := w.getLsbD 8
    repr     := w.extractLsb' 12 2
    reserved := w &&& reservedMask }

/-- The case analysis of `issue_command` (R86) after BUSY and ARG. -/
def decodeFields (f : CommandFields) : Except Reject Instr :=
  if f.reserved ≠ 0#32 then .error .reservedBit
  else match f.op.toNat with
    | 0 => if f.fwd then .error .fwdOutsideInit
           else if f.repr ≠ 0#2 then .error .reprOutsideExec
           else .ok .nop
    | 1 => if f.repr ≠ 0#2 then .error .reprOutsideExec
           else if f.fwd then .ok .initF else .ok .initI
    | 2 => if f.fwd then .error .fwdOutsideInit
           else if f.repr ≠ 0#2 then .error .reprOutsideExec
           else .ok .setwin
    | 3 => if f.fwd then .error .fwdOutsideInit
           else match f.repr.toNat with
             | 0 => .ok .execD
             | 1 => .ok .execS
             | 2 => .ok .execQ
             | _ => .error .reprIllegal
    | _ => .error .opIllegal

/-- The command a word stands for, or why it stands for none (R86 to R88). -/
def decodeWord (w : Word32) : Except Reject Instr := decodeFields (fieldsOf w)

/-- A list of bytes as a number, the first byte least significant (20_memory.md R58). -/
def leNat : List Byte → Nat
  | []      => 0
  | b :: bs => b.toNat + 256 * leNat bs

/-- The `n` bytes of a number, the least significant first (R58). -/
def leBytes : Nat → Nat → List Byte
  | 0,     _ => []
  | n + 1, v => BitVec.ofNat 8 v :: leBytes n (v / 256)

/-- Decoding of the bytes of one command: exactly four, little-endian (R58, R80). -/
def decode (bytes : List Byte) : Except Reject Instr :=
  if bytes.length = 4 then decodeWord (BitVec.ofNat 32 (leNat bytes)) else .error .notFourBytes

/-- The seven words of R88. -/
def encode : Instr → Word32
  | .nop    => 0x00000000#32
  | .initI  => 0x00000001#32
  | .initF  => 0x00000101#32
  | .setwin => 0x00000002#32
  | .execD  => 0x00000003#32
  | .execS  => 0x00001003#32
  | .execQ  => 0x00002003#32

/-- The bytes of a command as the bus carries them (R58). -/
def encodeBytes (i : Instr) : List Byte := leBytes 4 (encode i).toNat

/-- A command word put together from its fields at the places of R81. -/
def packFields (f : CommandFields) : Word32 :=
  BitVec.ofNat 32 (f.op.toNat + 2 ^ 8 * f.fwd.toNat + 2 ^ 12 * f.repr.toNat) ||| (f.reserved &&& reservedMask)

/-- The command the decoder reads from the bits `w` of an opcode-table row of `nbits` bits. -/
def decodeTableWord (nbits w : Nat) : Option Instr :=
  match decode (leBytes 4 (w % 2 ^ nbits)) with
  | .ok i    => some i
  | .error _ => none

end Sys2Proof
end

