-- ==== Sys2Proof/Machine/State.lean ====
section
/-! DEFINITION. The state of FFTR2 (10_state.md R20) as plain data, the reasons a step can stop, and
the state right after reset (R39). -/

namespace Sys2Proof.Machine

/-- The faults of 00_scope.md R15. They are host misuse, never an effect of a command. -/
inductive Fault where
  /-- BUS_PROTOCOL. RECORDED in `State.faults` by a host access that fails `access_ok`
  (20_memory.md R59), which the bus answers with an error: the machine goes on (safe). RETURNED, and
  the run stops, by a host access to the block while reset is asserted (93_implementation_defined.md U9), for
  which the spec defines nothing (safe: no claim about such a run can be proved). -/
  | busProtocol
  /-- HAZARD. RECORDED in `State.faults` by a host write to S[0..N-1] while an EXEC runs
  (70_reset_and_hazards.md R293); the machine goes on with those words free at completion (safe).
  Never returned. -/
  | hazard
deriving DecidableEq, Repr

/-- Why an instruction has no meaning. -/
inductive Refusal where
  /-- Raised by an arm of `exec` whose instruction has no meaning yet. No arm does: all seven
  commands have theirs (safe). -/
  | notModelled (mnemonic : String)
deriving DecidableEq, Repr

/-- The codes of STATUS.ERR (60_exceptions.md R250). Codes 7 to 15 are never produced. -/
inductive ErrCode where
  | ok
  | config
  | windowId
  | sizeMismatch
  | notReady
  | illegalCmd
  | windowAtApply
deriving DecidableEq, Repr

/-- The controller state (R36), which STATUS.READY shows. -/
inductive Controller where
  | uninit
  | ready
deriving DecidableEq, Repr

/-- The configuration an EXEC latches at its acceptance (44_execute.md R222). -/
structure Latched where
  n   : Nat
  l   : Nat
  fwd : Bool
  win : BitVec 2
deriving DecidableEq, Repr

/-- The loop state of BUILD_REV (41_bitrev.md R141): before `REV[0] <- 0`, then the variables of the
doubling loop. -/
inductive BuildLoop where
  | start
  | fill (half block j : Nat)
deriving DecidableEq, Repr

/-- The step an EXEC is in (44_execute.md R223) with its loop counters (R37). The permutation
(43_butterfly.md R190) is two loops. -/
inductive Phase where
  | window (i : Nat)
  | stages (stage part i : Nat)
  | gather (i : Nat)
  | scatter (i : Nat)
  | scale (i : Nat)
deriving DecidableEq, Repr

/-- The sequencer's in-flight state (R37): the long command being run, what it latched, and where
its work stands. `hazard` says that the host wrote to a slot in use (R293). -/
inductive Job where
  | init (size : Nat) (fwd : Bool) (loop : BuildLoop)
  | exec (r : Representation) (cfg : Latched) (phase : Phase) (hazard : Bool)
deriving DecidableEq, Repr

/-- The bus's answer to one host access: the value read (0 for a write), or a bus error response,
whose value is 0 (20_memory.md R59). -/
structure Response where
  data  : Word64
  error : Bool
deriving DecidableEq, Repr

/-- The contents of a RAM: the cells written since the last reset, their keys strictly rising, and the
number of that reset, which says which free values the unlisted keys read as (R39;
70_reset_and_hazards.md R282). Logs 6, 7. -/
structure Ram (α : Type) where
  cells : List (Nat × α)
  draw  : Nat
deriving DecidableEq, Repr

/-- The state of the block (R20), and after it the model's own fields. -/
structure State where
  /-- The parameters PARAM shows (R24) and BLOCK_BASE (00_scope.md R8); no step changes them. -/
  params   : Params
  /-- ARG (R26). -/
  arg      : Word32
  /-- STATUS.ERR (R27). -/
  err      : ErrCode
  /-- STATUS.OVF (R27). -/
  ovf      : Bool
  /-- STATUS.DROP (R27). -/
  drop     : Bool
  /-- UNINIT or READY: STATUS.READY (R27, R36). -/
  ctl      : Controller
  /-- The configured size N (R36). -/
  n        : Nat
  /-- L, with N = 2^L (R29). -/
  l        : Nat
  /-- FWD: forward is true (R29). -/
  fwd      : Bool
  /-- WIN, the window id (R29). -/
  win      : BitVec 2
  /-- The sample RAM (R30): bytes by block offset (20_memory.md R57). What an unlisted byte reads as is
  `Config.unwrittenByte`. -/
  mem      : Ram Byte
  /-- The bit-reversal table (R32): entries of LOG2_NMAX bits, by index. -/
  rev      : Ram Nat
  /-- The scratch buffer (R33): entries by index. -/
  scr      : Ram Sample
  /-- The sequencer (R37): none when idle. STATUS.BUSY is whether there is one (R27). -/
  seq      : Option Job
  /-- The reset input: true while asserted (70_reset_and_hazards.md R280). -/
  resetPin : Bool
  /-- MODEL'S OWN: what the host still has to do, in order (20_memory.md R65). Log 1. -/
  host     : List HostOp
  /-- MODEL'S OWN: what the bus answered, newest first. Log 25. -/
  resp     : List Response
  /-- MODEL'S OWN: the faults recorded so far (00_scope.md R15), newest first. Logs 13, 14. -/
  faults   : List Fault
  /-- MODEL'S OWN: how many free values have been drawn. Log 18. -/
  draws    : Nat
deriving DecidableEq, Repr

/-- The state after reset of a block with parameters `p` (R39). N, L and FWD are unspecified
there: 0, DESIGN CHOICE (log 8). The RAMs list nothing: their contents are free values. -/
def State.resetWith (p : Params) : State :=
  { params   := p
    arg      := 0#32
    err      := .ok
    ovf      := false
    drop     := false
    ctl      := .uninit
    n        := 0
    l        := 0
    fwd      := false
    win      := 0#2
    mem      := { cells := [], draw := 0 }
    rev      := { cells := [], draw := 0 }
    scr      := { cells := [], draw := 0 }
    seq      := none
    resetPin := false
    host     := []
    resp     := []
    faults   := []
    draws    := 0 }

/-- The machine right after reset (R39, R280). -/
def State.reset : State := State.resetWith Config.params

end Sys2Proof.Machine
end

