-- ==== Sys2Proof/Machine/Flags.lean ====
section
/-! DEFINITION. The status flags and the words of the registers (10_state.md R23 to R29, R38, R41). -/

namespace Sys2Proof.Machine

/-- STATUS.BUSY: a long command is in flight (R27, R37). -/
def State.busy (s : State) : Bool := s.seq.isSome

/-- STATUS.READY (R27, R36). -/
def State.ready (s : State) : Bool := s.ctl == .ready

/-- The numbers of the ERR codes (60_exceptions.md R250). -/
def ErrCode.code : ErrCode → Nat
  | .ok            => 0
  | .config        => 1
  | .windowId      => 2
  | .sizeMismatch  => 3
  | .notReady      => 4
  | .illegalCmd    => 5
  | .windowAtApply => 6

/-- `ID` (R23). -/
def idWord : Word32 := 0x46465432#32

/-- `PARAM` (R24): LOG2_NMAX in [4:0], RENORM_SHIFT in [15:8], version 1 in [31:16]. -/
def paramWord (p : Params) : Word32 :=
  BitVec.ofNat 32 (p.log2Nmax % 2 ^ 5 + 2 ^ 8 * (p.renormShift % 2 ^ 8) + 2 ^ 16 * 1)

/-- `STATUS` (R27): BUSY bit 0, READY bit 1, ERR [7:4], OVF bit 8, DROP bit 9. -/
def statusWord (s : State) : Word32 :=
  BitVec.ofNat 32
    (s.busy.toNat + 2 ^ 1 * s.ready.toNat + 2 ^ 4 * s.err.code + 2 ^ 8 * s.ovf.toNat + 2 ^ 9 * s.drop.toNat)

/-- `CFG_N` (R28): N when READY = 1, else 0. -/
def cfgNWord (s : State) : Word32 := if s.ready then BitVec.ofNat 32 s.n else 0#32

/-- `CFG` (R29): L in [4:0] and FWD in bit 8, both 0 when READY = 0; WIN in [17:16]. -/
def cfgWord (s : State) : Word32 :=
  let l := if s.ready then s.l % 2 ^ 5 else 0
  let fwd := if s.ready then s.fwd.toNat else 0
  BitVec.ofNat 32 (l + 2 ^ 8 * fwd + 2 ^ 16 * s.win.toNat)

/-- `set OVF` when an operation wrapped: the flag is sticky (40_numerics.md R122). -/
def setOvf (wrapped : Bool) (s : State) : State := { s with ovf := s.ovf || wrapped }

/-- `report E` (00_scope.md R15): ERR takes the code, and nothing else changes. -/
def report (e : ErrCode) (s : State) : State := { s with err := e }

end Sys2Proof.Machine
end

