-- ==== Sys2Proof/Machine/Ops.lean ====
section
/-! DEFINITION. The named operations over the RAMs and the registers: canonical stores, byte and word
accesses of the sample RAM (20_memory.md R57, R58), the table and scratch entries, the free values,
the part common to all commands (30_encoding.md R86), acceptance and completion of a long command
(70_reset_and_hazards.md R290), and reset (R280 to R282). The block has no exception entry and no
return (60_exceptions.md R262, R263): reporting an error is `report` of Flags.lean. -/

namespace Sys2Proof.Machine

/-! ### Canonical stores: lists of key and value, the keys strictly rising -/

/-- What a store lists for a key. -/
def lookup {α : Type} (k : Nat) : List (Nat × α) → Option α
  | [] => none
  | (a, v) :: t => if a = k then some v else lookup k t

/-- List `v` for `k`, keeping the keys rising. -/
def insert {α : Type} (k : Nat) (v : α) : List (Nat × α) → List (Nat × α)
  | [] => [(k, v)]
  | (a, w) :: t =>
    if k < a then (k, v) :: (a, w) :: t
    else if k = a then (k, v) :: t
    else (a, w) :: insert k v t

/-- The canonical form: keys strictly rising. An unlisted key reads as no value, so no entry can
equal what an unlisted key reads as. -/
def rising {α : Type} : List (Nat × α) → Bool
  | [] => true
  | [_] => true
  | (a, _) :: (b, w) :: t => decide (a < b) && rising ((b, w) :: t)

/-- The canonical form of the sample RAM. -/
def Memory.wf (m : Ram Byte) : Bool := rising m.cells

/-- Write `v` at a key of a RAM. -/
def Ram.write {α : Type} (m : Ram α) (k : Nat) (v : α) : Ram α := { m with cells := insert k v m.cells }

/-- A RAM after a reset: every key holds a fresh free value (R39, R282). Log 6. -/
def Ram.redraw {α : Type} (m : Ram α) : Ram α := { cells := [], draw := m.draw + 1 }

/-! ### The sample RAM -/

/-- The byte at a block offset: what was written there since the last reset, or what that reset left
there (R39, R282, U1). -/
def readByte (m : Ram Byte) (a : Nat) : Byte := (lookup a m.cells).getD (Config.unwrittenByte m.draw a)

/-- `n` bytes from offset `a` as a number, the byte at the lowest offset least significant (R58). -/
def readLE (m : Ram Byte) : Nat → Nat → Nat
  | _, 0     => 0
  | a, n + 1 => (readByte m a).toNat + 256 * readLE m (a + 1) n

/-- Store the low `n` bytes of `v` from offset `a`, little-endian (R58). -/
def writeLE (m : Ram Byte) : Nat → Nat → Nat → Ram Byte
  | _, 0,     _ => m
  | a, n + 1, v => writeLE (m.write a (BitVec.ofNat 8 v)) (a + 1) n (v / 256)

/-- The first offset of the sample window (20_memory.md R52). -/
def sampleBase : Nat := 0x100000

/-- The offset of slot `j` (R57). -/
def slotAddr (j : Nat) : Nat := sampleBase + 16 * j

/-- `S[j]` (R30): re at +0, im at +8. -/
def readSlot (m : Ram Byte) (j : Nat) : Sample :=
  { re := BitVec.ofNat 64 (readLE m (slotAddr j) 8)
    im := BitVec.ofNat 64 (readLE m (slotAddr j + 8) 8) }

/-- Write both words of `S[j]` (R30). -/
def writeSlot (m : Ram Byte) (j : Nat) (v : Sample) : Ram Byte :=
  writeLE (writeLE m (slotAddr j) 8 v.re.toNat) (slotAddr j + 8) 8 v.im.toNat

/-! ### The bit-reversal table and the scratch buffer -/

/-- `v` in the LOG2_NMAX bits of an entry of REV (10_state.md R32). -/
def revEntry (p : Params) (v : Nat) : Nat := v % p.nmax

/-- `REV[i]` (R32). -/
def readRev (s : State) (i : Nat) : Nat :=
  revEntry s.params ((lookup i s.rev.cells).getD (Config.unwrittenRev s.rev.draw i))

/-- `REV[i] <- v` (R32). -/
def writeRev (i v : Nat) (s : State) : State := { s with rev := s.rev.write i (revEntry s.params v) }

/-- `SCR[i]` (R33). -/
def readScr (s : State) (i : Nat) : Sample :=
  (lookup i s.scr.cells).getD
    { re := (Config.unwrittenScratch s.scr.draw i).1, im := (Config.unwrittenScratch s.scr.draw i).2 }

/-- `SCR[i] <- v`. -/
def writeScr (i : Nat) (v : Sample) (s : State) : State := { s with scr := s.scr.write i v }

/-! ### Free values -/

/-- The free word the next draw gives (log 17). -/
def State.freeWord (s : State) : Word64 := Config.freeWord s.draws

/-- Count a draw. -/
def State.drawn (s : State) : State := { s with draws := s.draws + 1 }

/-- Every word of `S[0..n-1]` becomes unspecified: a fresh free value each (R293). -/
def freeSlots : Nat → State → State
  | 0, s => s
  | j + 1, s =>
    let t := freeSlots j s
    { t with
      mem := writeSlot t.mem j { re := Config.freeWord t.draws, im := Config.freeWord (t.draws + 1) }
      draws := t.draws + 2 }

/-! ### Commands -/

/-- What every command write does first (30_encoding.md R86, 70_reset_and_hazards.md R291): while
BUSY = 1 it is dropped, DROP is set and nothing else changes; otherwise DROP is cleared and the
command's own rule runs. Every meaning goes through this, so that it says all that its word does.
Log 20. -/
def command (body : State → State) (s : State) : Host.Outcome State Fault Refusal :=
  if s.busy then .next { s with drop := true } else .next (body { s with drop := false })

/-- A command write whose word is illegal (R87). -/
def illegalCommand (s : State) : Host.Outcome State Fault Refusal := command (report .illegalCmd) s

/-- Acceptance of a long command (R290): ERR = OK and BUSY = 1 together. -/
def startLong (job : Job) (s : State) : State := { s with err := .ok, seq := some job }

/-- Completion of an INIT (41_bitrev.md R147): the configuration, READY and BUSY at one instant. -/
def finishInit (size : Nat) (fwd : Bool) (s : State) : State :=
  { s with n := size, l := Nat.log2 size, fwd := fwd, ctl := .ready, seq := none }

/-- Completion of an EXEC (44_execute.md R227): BUSY goes to 0. After a hazard (R293) every word of
`S[0..N-1]` is unspecified. -/
def finishExec (cfg : Latched) (hazard : Bool) (s : State) : State :=
  if hazard then { freeSlots cfg.n s with seq := none } else { s with seq := none }

/-- Whether a turn of an EXEC.Q wrapped when a hazard has made its operands unspecified: OVF was set
already, or a free value says so (log 14). -/
def freeOvf (before : Bool) (s : State) : State :=
  { s with ovf := before || s.freeWord.getLsbD 0, draws := s.draws + 1 }

/-! ### Reset -/

/-- Release of reset (R280): every piece of state takes its value of 10_state.md R39, and a command in
flight is abandoned (R281). Every word of S, REV and SCR is unspecified, whatever it was before: a fresh
draw (R281, R282). What the host has still to do, what the bus answered and the model's other own fields
stay. Log 16. -/
def releaseReset (s : State) : State :=
  { State.resetWith s.params with
    mem := s.mem.redraw, rev := s.rev.redraw, scr := s.scr.redraw
    host := s.host, resp := s.resp, faults := s.faults, draws := s.draws }

end Sys2Proof.Machine
end

