-- ==== Sys2Proof/Machine/Float.lean ====
section
/-! DEFINITION. IEEE 754 arithmetic on bit patterns, for binary64 and binary32 (40_numerics.md R101,
R102, R110, R111, R116, R117): round to nearest, ties to even, subnormals kept, canonical NaN, no
flags. Every finite value of a format is a whole number of units, one unit being the smallest
subnormal, so exact results are integers or ratios of integers and are rounded once. Log 12. -/

namespace Sys2Proof.Machine

/-- A binary interchange format: the widths of the exponent and of the fraction. -/
structure Fmt where
  expBits  : Nat
  fracBits : Nat
deriving DecidableEq, Repr

/-- Format D (R101). -/
def binary64 : Fmt := { expBits := 11, fracBits := 52 }

/-- Format S (R102). -/
def binary32 : Fmt := { expBits := 8, fracBits := 23 }

/-- The weight of the sign bit. -/
def Fmt.signWeight (f : Fmt) : Nat := 2 ^ (f.expBits + f.fracBits)

/-- The pattern of +∞. -/
def Fmt.infBits (f : Fmt) : Nat := (2 ^ f.expBits - 1) * 2 ^ f.fracBits

/-- The canonical quiet NaN (R111). -/
def Fmt.nanBits (f : Fmt) : Nat := f.infBits + 2 ^ (f.fracBits - 1)

/-- One unit is 2^-scale: the smallest subnormal, 2^(1 - bias - fracBits). -/
def Fmt.scale (f : Fmt) : Nat := (2 ^ (f.expBits - 1) - 1) + f.fracBits - 1

/-- What a pattern encodes. A finite value is ± `units` · 2^-scale; zeros keep their sign. -/
inductive Num where
  | nan
  | inf (neg : Bool)
  | fin (neg : Bool) (units : Nat)
deriving DecidableEq, Repr

/-- The units of a finite magnitude pattern: a subnormal has exponent field 0 and no hidden bit. -/
def magUnits (f : Fmt) (a : Nat) : Nat :=
  if a / 2 ^ f.fracBits = 0 then a
  else (2 ^ f.fracBits + a % 2 ^ f.fracBits) * 2 ^ (a / 2 ^ f.fracBits - 1)

/-- Read a pattern (R101, R102). -/
def unpack (f : Fmt) (w : Nat) : Num :=
  let neg := w / f.signWeight % 2 == 1
  let a := w % f.signWeight
  if f.infBits < a then .nan
  else if a = f.infBits then .inf neg
  else .fin neg (magUnits f a)

/-- A sign and a magnitude pattern. -/
def signed (f : Fmt) (neg : Bool) (a : Nat) : Nat := (if neg then f.signWeight else 0) + a

/-- The magnitude pattern of `num / den` units rounded to nearest, ties to even, an overflow going
to ∞ (R110, R116). With `sh` the exponent that leaves at most fracBits + 1 significant bits and `m`
the rounded significand, the pattern is `sh · 2^fracBits + m`: for a subnormal the hidden bit is not
there, for a normal it carries into the exponent field, and so does a significand that rounds up to
the next power of two. -/
def roundMag (f : Fmt) (num den : Nat) : Nat :=
  let sh := Nat.log2 (num / den) - f.fracBits
  let d := den * 2 ^ sh
  let m := num / d
  let r := num % d
  let up := decide (d < 2 * r) || (decide (2 * r = d) && m % 2 == 1)
  min (sh * 2 ^ f.fracBits + (m + up.toNat)) f.infBits

/-- A signed number of units. -/
def signedUnits (neg : Bool) (x : Nat) : Int := if neg then -(x : Int) else (x : Int)

/-- `fadd_F` (R110). A zero sum is +0 unless both operands are negative zeros. -/
def fadd (f : Fmt) (x y : Nat) : Nat :=
  match unpack f x, unpack f y with
  | .nan, _ => f.nanBits
  | _, .nan => f.nanBits
  | .inf a, .inf b => if a = b then signed f a f.infBits else f.nanBits
  | .inf a, .fin _ _ => signed f a f.infBits
  | .fin _ _, .inf b => signed f b f.infBits
  | .fin a u, .fin b v =>
    let z := signedUnits a u + signedUnits b v
    if z = 0 then signed f (a && b) 0
    else signed f (decide (z < 0)) (roundMag f z.natAbs 1)

/-- Flip the sign bit (R117). -/
def fneg (f : Fmt) (x : Nat) : Nat :=
  if x / f.signWeight % 2 = 1 then x - f.signWeight else x + f.signWeight

/-- `fsub_F` (R110): IEEE 754 subtraction is addition of the operand with its sign flipped. -/
def fsub (f : Fmt) (x y : Nat) : Nat := fadd f x (fneg f y)

/-- `fmul_F` (R110). -/
def fmul (f : Fmt) (x y : Nat) : Nat :=
  match unpack f x, unpack f y with
  | .nan, _ => f.nanBits
  | _, .nan => f.nanBits
  | .inf a, .inf b => signed f (a ^^ b) f.infBits
  | .inf a, .fin b v => if v = 0 then f.nanBits else signed f (a ^^ b) f.infBits
  | .fin a u, .inf b => if u = 0 then f.nanBits else signed f (a ^^ b) f.infBits
  | .fin a u, .fin b v => signed f (a ^^ b) (roundMag f (u * v) (2 ^ f.scale))

/-- `fdiv_F` (R110). -/
def fdiv (f : Fmt) (x y : Nat) : Nat :=
  match unpack f x, unpack f y with
  | .nan, _ => f.nanBits
  | _, .nan => f.nanBits
  | .inf _, .inf _ => f.nanBits
  | .inf a, .fin b _ => signed f (a ^^ b) f.infBits
  | .fin a _, .inf b => signed f (a ^^ b) 0
  | .fin a u, .fin b v =>
    if v = 0 then (if u = 0 then f.nanBits else signed f (a ^^ b) f.infBits)
    else signed f (a ^^ b) (roundMag f (u * 2 ^ f.scale) v)

/-- `RNE_F` of the exact ratio `num / den` (00_scope.md R13): an exact zero gives +0. -/
def roundRatio (f : Fmt) (num : Int) (den : Nat) : Nat :=
  signed f (decide (num < 0)) (roundMag f (num.natAbs * 2 ^ f.scale) den)

/-- The pattern of the whole number `n` (40_numerics.md R115: N in format F). -/
def ofNatBits (f : Fmt) (n : Nat) : Nat := roundRatio f n 1

end Sys2Proof.Machine
end

