-- ==== Sys2Proof/Machine/Fixed.lean ====
section
/-! DEFINITION. The fixed-point representation Q32.32 (40_numerics.md R103, R120 to R129). An
operation gives the wrapped word and whether it sets OVF (R122). -/

namespace Sys2Proof.Machine

/-- `s64(w)` (00_scope.md R12). -/
def s64 (w : Word64) : Int := w.toInt

/-- `wrap64(z)` as a 64-bit pattern (R12). -/
def wrap64 (z : Int) : Word64 := BitVec.ofInt 64 z

/-- Whether an exact integer fits in 64 signed bits (R122). -/
def fits64 (z : Int) : Bool := decide (-2 ^ 63 ≤ z) && decide (z < 2 ^ 63)

/-- Wrap an exact integer and say whether that sets OVF (R122). -/
def wrapFlag (z : Int) : Word64 × Bool := (wrap64 z, !fits64 z)

/-- `qadd` (R120). -/
def qadd (x y : Word64) : Word64 × Bool := wrapFlag (s64 x + s64 y)

/-- `qsub` (R121). -/
def qsub (x y : Word64) : Word64 × Bool := wrapFlag (s64 x - s64 y)

/-- The renormalization stage (R123): an arithmetic shift right, which rounds toward minus infinity.
The exact integer stands for the 128-bit intermediate, which holds every value exactly (R129). Log 22. -/
def renorm (shift : Nat) (p : Int) : Word64 × Bool := wrapFlag (p / 2 ^ shift)

/-- `qdiv` (R126): division rounded toward zero. -/
def qdiv (x : Word64) (n : Nat) : Word64 := wrap64 ((s64 x).tdiv n)

/-- `neg_Q` (R128). -/
def qneg (x : Word64) : Word64 := wrap64 (-s64 x)

/-- `toQ` (R127): the value of a binary64 pattern times 2^32, truncated toward zero. It is applied to
finite ROM values only; the answer 0 for a NaN or an infinity is never used. Log 21. -/
def toQ (w : Word64) : Word64 :=
  match unpack binary64 w.toNat with
  | .fin neg u => wrap64 (signedUnits neg (u * 2 ^ 32 / 2 ^ binary64.scale))
  | .inf _ => 0#64
  | .nan => 0#64

end Sys2Proof.Machine
end

