-- ==== Sys2Proof/Machine/Rom.lean ====
section
/-! DEFINITION. The twiddle ROM (43_butterfly.md R180, R181) and the window ROM (42_window.md R161),
constants of the hardware (00_scope.md R10). An entry is the correctly rounded value of an exact
real. It is computed here from a fixed-point value of cos and sin with 128 fraction bits, which is a
product of base rotations, one for each bit set in the index. How far that value can be from the
exact one, and why every entry is nonetheless the correctly rounded one, is said in log 11. -/

namespace Sys2Proof.Machine

/-- The fraction bits of the fixed-point values of cos and sin. -/
def romBits : Nat := 128

/-- The fixed-point 1. -/
def romOne : Int := 2 ^ romBits

/-- `(cos, sin)` of the angle 2·pi / 2^m for m = 0 to 16, times 2^128, to the nearest integer. They
satisfy the half-angle identities, which is how they can be checked. -/
def baseRotations : List (Int × Int) :=
  [(0x100000000000000000000000000000000, 0x0),
   (-0x100000000000000000000000000000000, 0x0),
   (0x0, 0x100000000000000000000000000000000),
   (0xb504f333f9de6484597d89b3754abe9f, 0xb504f333f9de6484597d89b3754abe9f),
   (0xec835e79946a31457e610231ac1d6181, 0x61f78a9abaa58b4698916152cf7eee1c),
   (0xfb14be7fbae581562172a361fd2a722f, 0x31f17078d34c156c9732300393f33614),
   (0xfec46d1e89292cf041390efdc726e9ef, 0x1917a6bc29b42be1d8e72d912977ee71),
   (0xffb10f1bcb6bef1d421e8edaaf59453e, 0xc8fb2f886ec09f376a17954b2b7c517),
   (0xffec4304266865d95657552366961732, 0x648557de8d99f7e4e29cf6e5fed0679)] ++
  [(0xfffb10b4dc96dabbb47903f7a19f8ee2, 0x3243a3f9bd8f08cc3c75f41b6ce7aa8),
   (0xfffec42c7454926b38e310779edfec68, 0x1921f0fe6700711ab967fe6b7a9b037),
   (0xffffb10b10e80e953031437d7eccb9df, 0xc90fc5f66525d257480f7956b64707),
   (0xffffec42c3773235ec9e2e75cb525f2c, 0x6487eabb991cb611ad1d7b5620834a),
   (0xfffffb10b0d19f76491a703231e0a12e, 0x3243f655d966c0c3b0abf2b35a62f8),
   (0xfffffec42c33a50c1e35716e2aa0a862, 0x1921fb49ee4ea67a2535d12914f7f7),
   (0xffffffb10b0cdd15f048884e0338678a, 0xc90fda8d75abdcb23c56dd27796b0),
   (0xffffffec42c33682aa9dc5cd19cf3966, 0x6487ed4e7b3cc45ac447f348e8be9)]

/-- The base rotation by 2·pi / 2^m. -/
def baseRotation (m : Nat) : Int × Int := baseRotations.getD m (0, 0)

/-- The complex product of two fixed-point rotations, each part rounded down. -/
def turnBy (u v : Int × Int) : Int × Int :=
  ((u.1 * v.1 - u.2 * v.2) / romOne, (u.1 * v.2 + u.2 * v.1) / romOne)

/-- The rotation by the `m` most significant bits of a `log2`-bit index `k`: bit `log2 - j` stands
for the angle 2·pi / 2^j. -/
def rotation (log2 k : Nat) : Nat → Int × Int
  | 0 => (romOne, 0)
  | m + 1 =>
    if k.testBit (log2 - (m + 1)) then turnBy (rotation log2 k m) (baseRotation (m + 1))
    else rotation log2 k m

/-- `cos(2·pi·k / 2^log2)` in fixed point. -/
def cosFix (log2 k : Nat) : Int := (rotation log2 k log2).1

/-- `sin(2·pi·k / 2^log2)` in fixed point. -/
def sinFix (log2 k : Nat) : Int := (rotation log2 k log2).2

/-- An entry in the three representations: the D word is the rounded value; the S word holds the
binary32 pattern in its low half; the Q word is `toQ` of the D word (R161, R181). -/
def romEntry (r : Representation) (num : Int) (den : Nat) : Word64 :=
  match r with
  | .D => BitVec.ofNat 64 (roundRatio binary64 num den)
  | .S => BitVec.ofNat 64 (roundRatio binary32 num den)
  | .Q => toQ (BitVec.ofNat 64 (roundRatio binary64 num den))

/-- `TWC_R[k]` (R181), for k in [0, NMAX/2). -/
def twiddleCos (r : Representation) (log2 k : Nat) : Word64 :=
  romEntry r (cosFix log2 k) (2 ^ romBits)

/-- `TWS_R[k]` (R181): the sine, not the negated sine (R180). -/
def twiddleSin (r : Representation) (log2 k : Nat) : Word64 :=
  romEntry r (sinFix log2 k) (2 ^ romBits)

/-- `c_k = cos(2·pi·k / NMAX)` of R161. The cosine of k and of NMAX - k are the same real (R169 d). -/
def windowCos (log2 k : Nat) : Int :=
  if 2 * k ≤ 2 ^ log2 then cosFix log2 k else cosFix log2 (2 ^ log2 - k)

/-- `HAM_R[k]` (R161): 27/50 - (23/50)·c_k. -/
def hamming (r : Representation) (log2 k : Nat) : Word64 :=
  romEntry r (27 * romOne - 23 * windowCos log2 k) (50 * 2 ^ romBits)

/-- `HAN_R[k]` (R161): 1/2 - (1/2)·c_k. -/
def hanning (r : Representation) (log2 k : Nat) : Word64 :=
  romEntry r (romOne - windowCos log2 k) (2 * 2 ^ romBits)

end Sys2Proof.Machine
end

