-- ==== Sys2Proof/Machine/Operands.lean ====
section
/-! DEFINITION. The operands of the commands (30_encoding.md R85), the engine's access to samples
(10_state.md R31), the operations of each representation on samples (40_numerics.md R100), and the
ROM entries a run reads (42_window.md R162, 43_butterfly.md R182, R183). -/

namespace Sys2Proof.Machine

/-! ### ARG -/

/-- `valid_size` (41_bitrev.md R146). -/
def validSize (p : Params) (size : Nat) : Bool :=
  decide (2 ≤ size) && decide (size ≤ p.nmax) && size &&& (size - 1) == 0

/-- Whether `id` is one of the window ids (42_window.md R163). -/
def validWindow (id : Word32) : Bool := decide (id.toNat ≤ 2)

/-- The first check an EXEC fails, if any (44_execute.md R221). -/
def execCheck (s : State) : Option ErrCode :=
  if s.ctl = .uninit then some .notReady
  else if s.arg.toNat ≠ s.n then some .sizeMismatch
  else if s.win = 3#2 then some .windowAtApply
  else none

/-! ### Samples -/

/-- The low half of a word: a binary32 pattern (R31). -/
def low32 (w : Word64) : Nat := w.toNat % 2 ^ 32

/-- What the engine sees of a slot's word in representation R: in S bits [63:32] are ignored (R31). -/
def componentIn (r : Representation) (w : Word64) : Word64 :=
  match r with
  | .D => w
  | .S => BitVec.ofNat 64 (low32 w)
  | .Q => w

/-- `SRead_R(j)` (R31). -/
def sread (r : Representation) (s : State) (j : Nat) : Sample :=
  let v := readSlot s.mem j
  { re := componentIn r v.re, im := componentIn r v.im }

/-- `SWrite_R(j, v)` (R31): in S bits [63:32] are written 0. -/
def swrite (r : Representation) (j : Nat) (v : Sample) (s : State) : State :=
  { s with mem := writeSlot s.mem j { re := componentIn r v.re, im := componentIn r v.im } }

/-- A floating operation on two words. -/
def liftD (op : Nat → Nat → Nat) (x y : Word64) : Word64 := BitVec.ofNat 64 (op x.toNat y.toNat)

/-- A binary32 operation on the low halves of two words. -/
def liftS (op : Nat → Nat → Nat) (x y : Word64) : Word64 := BitVec.ofNat 64 (op (low32 x) (low32 y))

/-- One component of `add_R`, and whether it sets OVF (R113, R116, R120). -/
def add1 (r : Representation) (x y : Word64) : Word64 × Bool :=
  match r with
  | .D => (liftD (fadd binary64) x y, false)
  | .S => (liftS (fadd binary32) x y, false)
  | .Q => qadd x y

/-- One component of `sub_R`, and whether it sets OVF (R113, R116, R121). -/
def sub1 (r : Representation) (x y : Word64) : Word64 × Bool :=
  match r with
  | .D => (liftD (fsub binary64) x y, false)
  | .S => (liftS (fsub binary32) x y, false)
  | .Q => qsub x y

/-- A sample from its two components, and whether either sets OVF. -/
def pairUp (a b : Word64 × Bool) : Sample × Bool := ({ re := a.1, im := b.1 }, a.2 || b.2)

/-- `add_R` (R113, R120). -/
def addR (r : Representation) (p q : Sample) : Sample × Bool :=
  pairUp (add1 r p.re q.re) (add1 r p.im q.im)

/-- `sub_R` (R113, R121). -/
def subR (r : Representation) (p q : Sample) : Sample × Bool :=
  pairUp (sub1 r p.re q.re) (sub1 r p.im q.im)

/-- The floating complex product (R112): four rounded products, then a rounded difference and sum. -/
def cmulF (f : Fmt) (a b c d : Nat) : Nat × Nat :=
  (fsub f (fmul f a c) (fmul f b d), fadd f (fmul f a d) (fmul f b c))

/-- `cmul_R` (R112, R124). In Q the renormalization applies once per part, after the exact sum. -/
def cmulR (shift : Nat) (r : Representation) (t w : Sample) : Sample × Bool :=
  match r with
  | .D =>
    let z := cmulF binary64 t.re.toNat t.im.toNat w.re.toNat w.im.toNat
    ({ re := BitVec.ofNat 64 z.1, im := BitVec.ofNat 64 z.2 }, false)
  | .S =>
    let z := cmulF binary32 (low32 t.re) (low32 t.im) (low32 w.re) (low32 w.im)
    ({ re := BitVec.ofNat 64 z.1, im := BitVec.ofNat 64 z.2 }, false)
  | .Q =>
    pairUp (renorm shift (s64 t.re * s64 w.re - s64 t.im * s64 w.im))
      (renorm shift (s64 t.re * s64 w.im + s64 t.im * s64 w.re))

/-- One component of `wmul_R`, and whether it sets OVF (R114, R125). -/
def wmul1 (shift : Nat) (r : Representation) (x w : Word64) : Word64 × Bool :=
  match r with
  | .D => (liftD (fmul binary64) x w, false)
  | .S => (liftS (fmul binary32) x w, false)
  | .Q => renorm shift (s64 x * s64 w)

/-- `wmul_R` (R114, R125). -/
def wmulR (shift : Nat) (r : Representation) (v : Sample) (w : Word64) : Sample × Bool :=
  pairUp (wmul1 shift r v.re w) (wmul1 shift r v.im w)

/-- One component of `divN_R` (R115, R126). -/
def divN1 (r : Representation) (x : Word64) (n : Nat) : Word64 :=
  match r with
  | .D => BitVec.ofNat 64 (fdiv binary64 x.toNat (ofNatBits binary64 n))
  | .S => BitVec.ofNat 64 (fdiv binary32 (low32 x) (ofNatBits binary32 n))
  | .Q => qdiv x n

/-- `divN_R` (R115, R126). -/
def divNR (r : Representation) (v : Sample) (n : Nat) : Sample :=
  { re := divN1 r v.re n, im := divN1 r v.im n }

/-- `neg_R` of a ROM value (R117, R128). -/
def neg1 (r : Representation) (x : Word64) : Word64 :=
  match r with
  | .D => BitVec.ofNat 64 (fneg binary64 x.toNat)
  | .S => BitVec.ofNat 64 (fneg binary32 (low32 x))
  | .Q => qneg x

/-! ### ROM entries -/

/-- The window ROM address of sample `i` (42_window.md R162). -/
def windowAddr (log2 l i : Nat) : Nat := i <<< (log2 - l)

/-- The weight of sample `i` (R164). -/
def windowWeight (r : Representation) (log2 : Nat) (cfg : Latched) (i : Nat) : Word64 :=
  if cfg.win = 1#2 then hamming r log2 (windowAddr log2 cfg.l i)
  else hanning r log2 (windowAddr log2 cfg.l i)

/-- The twiddle ROM address of butterfly offset `i` in a stage (43_butterfly.md R182). -/
def twiddleAddr (log2 l stage i : Nat) : Nat := (i <<< stage) <<< (log2 - l)

/-- The twiddle factor `W_R(stage, i)` (R183). -/
def twiddle (r : Representation) (log2 : Nat) (cfg : Latched) (stage i : Nat) : Sample :=
  let k := twiddleAddr log2 cfg.l stage i
  { re := twiddleCos r log2 k
    im := if cfg.fwd then neg1 r (twiddleSin r log2 k) else twiddleSin r log2 k }

end Sys2Proof.Machine
end

