-- ==== Sys2Proof/Machine/Engine.lean ====
section
/-! DEFINITION. The engine: what one turn of the sequencer does (10_state.md R37). One turn does one
REV write of an INIT, or one weighting, one butterfly, one move or one division of an EXEC, or it
leaves a loop. Log 4. -/

namespace Sys2Proof.Machine

/-! ### INIT: the bit-reversal unit -/

/-- One turn of BUILD_REV (41_bitrev.md R141), and the completion of the INIT after the last write
(R147). Log 5. -/
def initTurn (size : Nat) (fwd : Bool) (loop : BuildLoop) (s : State) : State :=
  match loop with
  | .start => { writeRev 0 0 s with seq := some (.init size fwd (.fill (size / 2) 1 0)) }
  | .fill half block j =>
    if size / 2 < block then finishInit size fwd s
    else if block ≤ j then { s with seq := some (.init size fwd (.fill (half / 2) (2 * block) 0)) }
    else { writeRev (block + j) (readRev s j + half) s with
           seq := some (.init size fwd (.fill half block (j + 1))) }

/-! ### EXEC: the four steps -/

/-- One weighting of the window pass (42_window.md R164). -/
def weightSlot (r : Representation) (cfg : Latched) (i : Nat) (s : State) : State :=
  let v := wmulR s.params.renormShift r (sread r s i) (windowWeight r s.params.log2Nmax cfg i)
  setOvf v.2 (swrite r i v.1 s)

/-- `partSize = N >> stage` (43_butterfly.md R184). -/
def partSize (cfg : Latched) (stage : Nat) : Nat := cfg.n >>> stage

/-- `dx = (N >> 1) >> stage` (R184). -/
def halfPart (cfg : Latched) (stage : Nat) : Nat := (cfg.n >>> 1) >>> stage

/-- `BUTTERFLY_R(x, y, W)` (R186): both operands are read before either is written. -/
def butterfly (r : Representation) (x y : Nat) (w : Sample) (s : State) : State :=
  let p := sread r s x
  let q := sread r s y
  let tmp := subR r p q
  let sum := addR r p q
  let prod := cmulR s.params.renormShift r tmp.1 w
  setOvf (tmp.2 || sum.2 || prod.2) (swrite r y prod.1 (swrite r x sum.1 s))

/-- The butterfly of a stage, a part and an offset (R185): `x = partSize·part + i`, `y = x + dx`. -/
def stageButterfly (r : Representation) (cfg : Latched) (stage part i : Nat) (s : State) : State :=
  let x := partSize cfg stage * part + i
  butterfly r x (x + halfPart cfg stage) (twiddle r s.params.log2Nmax cfg stage i) s

/-- One move of the first loop of the permutation (R190): `SCR[i] <- SRead_R(REV[i])`. -/
def gatherSlot (r : Representation) (i : Nat) (s : State) : State :=
  writeScr i (sread r s (readRev s i)) s

/-- One move of the second loop of the permutation (R190): `SWrite_R(i, SCR[i])`. -/
def scatterSlot (r : Representation) (i : Nat) (s : State) : State := swrite r i (readScr s i) s

/-- One division of the inverse scaling (R191). -/
def scaleSlot (r : Representation) (cfg : Latched) (i : Nat) (s : State) : State :=
  swrite r i (divNR r (sread r s i) cfg.n) s

/-- The sequencer of an EXEC moves to a phase. -/
def goto (r : Representation) (cfg : Latched) (hazard : Bool) (ph : Phase) (s : State) : State :=
  { s with seq := some (.exec r cfg ph hazard) }

/-- One turn of an EXEC (44_execute.md R223). -/
def execTurn (r : Representation) (cfg : Latched) (hazard : Bool) (ph : Phase) (s : State) : State :=
  match ph with
  | .window i =>
    if cfg.win = 0#2 ∨ cfg.n ≤ i then goto r cfg hazard (.stages 0 0 0) s
    else goto r cfg hazard (.window (i + 1)) (weightSlot r cfg i s)
  | .stages stage part i =>
    if cfg.l ≤ stage then goto r cfg hazard (.gather 0) s
    else if 2 ^ stage ≤ part then goto r cfg hazard (.stages (stage + 1) 0 0) s
    else if halfPart cfg stage ≤ i then goto r cfg hazard (.stages stage (part + 1) 0) s
    else goto r cfg hazard (.stages stage part (i + 1)) (stageButterfly r cfg stage part i s)
  | .gather i =>
    if cfg.n ≤ i then goto r cfg hazard (.scatter 0) s
    else goto r cfg hazard (.gather (i + 1)) (gatherSlot r i s)
  | .scatter i =>
    if cfg.n ≤ i then goto r cfg hazard (.scale 0) s
    else goto r cfg hazard (.scatter (i + 1)) (scatterSlot r i s)
  | .scale i =>
    if cfg.fwd ∨ cfg.n ≤ i then finishExec cfg hazard s
    else goto r cfg hazard (.scale (i + 1)) (scaleSlot r cfg i s)

/-- One turn of the engine. After a hazard (70_reset_and_hazards.md R293) what an EXEC.Q works on is
unspecified, and so is whether it wraps (log 14). -/
def engineTurn (job : Job) (s : State) : State :=
  match job with
  | .init size fwd loop => initTurn size fwd loop s
  | .exec r cfg ph hazard =>
    let t := execTurn r cfg hazard ph s
    if hazard && r == .Q then freeOvf s.ovf t else t

end Sys2Proof.Machine
end

