-- ==== Sys2Proof/Machine/Execute.lean ====
section
/-! DEFINITION. EXEC.D, EXEC.S and EXEC.Q (44_execute.md R221 to R226). -/

namespace Sys2Proof.Machine

/-- The configuration latched at acceptance (R222). -/
def latch (s : State) : Latched := { n := s.n, l := s.l, fwd := s.fwd, win := s.win }

/-- EXEC_R with len = ARG: the checks of R221, else the acceptance of R222. The four steps of R223
then run turn by turn, in Engine.lean. -/
def execCommand (r : Representation) (s : State) : State :=
  match execCheck s with
  | some e => report e s
  | none => startLong (.exec r (latch s) (.window 0) false) { s with ovf := false }

/-- EXEC.D (R224). -/
def execExecD (s : State) : Host.Outcome State Fault Refusal := command (execCommand .D) s

/-- EXEC.S (R225). -/
def execExecS (s : State) : Host.Outcome State Fault Refusal := command (execCommand .S) s

/-- EXEC.Q (R226). -/
def execExecQ (s : State) : Host.Outcome State Fault Refusal := command (execCommand .Q) s

end Sys2Proof.Machine
end

