-- ==== Sys2Proof/Machine/Init.lean ====
section
/-! DEFINITION. INIT.I and INIT.F (41_bitrev.md R145 to R149). -/

namespace Sys2Proof.Machine

/-- INIT of a direction, with size = ARG (R145): CONFIG when the size is not valid (R148), else the
build starts. -/
def initCommand (fwd : Bool) (s : State) : State :=
  if validSize s.params s.arg.toNat then startLong (.init s.arg.toNat fwd .start) s
  else report .config s

/-- INIT.I: FWD = 0, Inverse (R145; 30_encoding.md R83). -/
def execInitI (s : State) : Host.Outcome State Fault Refusal := command (initCommand false) s

/-- INIT.F: FWD = 1, Forward (R145; 30_encoding.md R83). -/
def execInitF (s : State) : Host.Outcome State Fault Refusal := command (initCommand true) s

end Sys2Proof.Machine
end

