-- ==== Sys2Proof/Machine/Nop.lean ====
section
/-! DEFINITION. NOP (44_execute.md R220). -/

namespace Sys2Proof.Machine

/-- NOP: ERR = OK and, as every command that is not dropped, DROP = 0 (R220). -/
def execNop (s : State) : Host.Outcome State Fault Refusal := command (report .ok) s

end Sys2Proof.Machine
end

