-- ==== Sys2Proof/Machine/Window.lean ====
section
/-! DEFINITION. SETWIN (42_window.md R163). -/

namespace Sys2Proof.Machine

/-- SETWIN with id = ARG (R163): WINDOW_ID above 2, else WIN <- id[1:0] and ERR = OK. -/
def setwinCommand (s : State) : State :=
  if validWindow s.arg then report .ok { s with win := s.arg.extractLsb' 0 2 }
  else report .windowId s

/-- SETWIN (R163). -/
def execSetwin (s : State) : Host.Outcome State Fault Refusal := command setwinCommand s

end Sys2Proof.Machine
end

