-- ==== Sys2Proof/Machine/Dispatch.lean ====
section
/-! DEFINITION. The meaning of each command: what writing its word to CMD does (30_encoding.md R86). -/

namespace Sys2Proof.Machine

def exec (i : Instr) (s : State) : Host.Outcome State Fault Refusal :=
  match i with
  | .nop => Sys2Proof.Machine.execNop s
  | .initI => Sys2Proof.Machine.execInitI s
  | .initF => Sys2Proof.Machine.execInitF s
  | .setwin => Sys2Proof.Machine.execSetwin s
  | .execD => Sys2Proof.Machine.execExecD s
  | .execS => Sys2Proof.Machine.execExecS s
  | .execQ => Sys2Proof.Machine.execExecQ s

end Sys2Proof.Machine
end

