-- ==== Sys2Proof/Machine/Bus.lean ====
section
/-! DEFINITION. The host's side: the host window at BLOCK_BASE (00_scope.md R8), the address map and the
accesses (20_memory.md R52 to R63), what
they do while a long command runs (70_reset_and_hazards.md R291 to R295), the reset input (R280), and
who moves next. -/

namespace Sys2Proof.Machine

/-- The regions of the address map (R52). A hole is an offset that reads 0 and ignores writes. -/
inductive Region where
  | id
  | param
  | cmd
  | arg
  | status
  | cfgN
  | cfg
  | rev (i : Nat)
  | sample (slot : Nat)
  | hole
deriving DecidableEq, Repr

/-- The registers of the register region (R52). -/
def registerAt : Nat → Region
  | 0x00 => .id
  | 0x04 => .param
  | 0x08 => .cmd
  | 0x0C => .arg
  | 0x10 => .status
  | 0x14 => .cfgN
  | 0x18 => .cfg
  | _    => .hole

/-- The first offset of the REV window (R52). -/
def revBase : Nat := 0x040000

/-- `region_of(addr)` for the aligned word that holds `addr` (R52, R63). -/
def regionOf (p : Params) (addr : Offset) : Region :=
  let a := addr.toNat
  if a < 0x1000 then registerAt (a / 4 * 4)
  else if revBase ≤ a ∧ a < revBase + 4 * p.nmax then .rev ((a - revBase) / 4)
  else if sampleBase ≤ a ∧ a < sampleBase + 16 * p.nmax then .sample ((a - sampleBase) / 16)
  else .hole

/-- `access_ok(addr, n)` (R59). -/
def accessOk (addr : Offset) (n : Nat) : Bool :=
  (n == 4 && addr.toNat % 4 == 0) || (n == 8 && addr.toNat % 8 == 0 && decide (sampleBase ≤ addr.toNat))

/-- Whether an EXEC is running that has borrowed this slot (70_reset_and_hazards.md R292, R293). -/
def slotInUse (s : State) (slot : Nat) : Bool :=
  match s.seq with
  | some (.exec _ cfg _ _) => decide (slot < cfg.n)
  | _ => false

/-- Whether an INIT is running (R292 b). -/
def initRunning (s : State) : Bool :=
  match s.seq with
  | some (.init _ _ _) => true
  | _ => false

/-- The bus answers an access with a value. -/
def respond (v : Word64) (s : State) : State :=
  { s with resp := { data := v, error := false } :: s.resp }

/-- `bus_error()` (R55, R56, R59): an error response whose value is 0; the block records nothing, and
the model records BUS_PROTOCOL (60_exceptions.md R259). Log 13. -/
def busError (s : State) : State :=
  { s with resp := { data := 0#64, error := true } :: s.resp, faults := .busProtocol :: s.faults }

/-- An answer that is any value: the next free word, cut to `n` bytes (R54, R292). Log 17. -/
def respondFree (n : Nat) (s : State) : State :=
  respond (BitVec.ofNat 64 (s.freeWord.toNat % 2 ^ (8 * n))) s.drawn

/-- `rev_read(addr)` (R54). -/
def revRead (i : Nat) (s : State) : State :=
  if s.ready && decide (i < s.n) && !initRunning s then
    respond (BitVec.ofNat 64 (readRev s i % 2 ^ 32)) s
  else if initRunning s then respondFree 4 s
  else respond 0#64 s

/-- `MemRead(addr, n)` (R55). -/
def memRead (addr : Offset) (n : Nat) (s : State) : State :=
  if accessOk addr n then
    match regionOf s.params addr with
    | .id     => respond (idWord.setWidth 64) s
    | .param  => respond ((paramWord s.params).setWidth 64) s
    | .cmd    => respond 0#64 s
    | .arg    => respond (s.arg.setWidth 64) s
    | .status => respond ((statusWord s).setWidth 64) s
    | .cfgN   => respond ((cfgNWord s).setWidth 64) s
    | .cfg    => respond ((cfgWord s).setWidth 64) s
    | .rev i  => revRead i s
    | .sample j =>
      if slotInUse s j then respondFree n s
      else respond (BitVec.ofNat 64 (readLE s.mem addr.toNat n)) s
    | .hole   => respond 0#64 s
  else busError s

/-- `issue_command(w)` (30_encoding.md R86): the decoded command's meaning, or ILLEGAL_CMD. Both begin
with the BUSY check of R291. -/
def issueCommand (w : Word32) (s : State) : Host.Outcome State Fault Refusal :=
  match decodeWord w with
  | .ok i    => exec i s
  | .error _ => illegalCommand s

/-- The running EXEC is marked: the host wrote to a slot it has borrowed (70_reset_and_hazards.md
R293). The model records HAZARD. Log 14. -/
def markHazard (s : State) : State :=
  match s.seq with
  | some (.exec r cfg ph _) => { s with seq := some (.exec r cfg ph true), faults := .hazard :: s.faults }
  | _ => s

/-- `sample_write(addr, n, v)` (R57), a hazard if the slot is in use (R293). -/
def sampleWrite (addr : Offset) (n : Nat) (v : Word64) (slot : Nat) (s : State) : State :=
  let t := if slotInUse s slot then markHazard s else s
  { t with mem := writeLE t.mem addr.toNat n v.toNat }

/-- `MemWrite(addr, n, v)` (R56). The bus's answer to a write carries no value. -/
def memWrite (addr : Offset) (n : Nat) (v : Word64) (s : State) : Host.Outcome State Fault Refusal :=
  if accessOk addr n then
    match regionOf s.params addr with
    | .cmd      => issueCommand (v.setWidth 32) (respond 0#64 s)
    | .arg      => .next (respond 0#64 { s with arg := v.setWidth 32 })
    | .sample j => .next (respond 0#64 (sampleWrite addr n v j s))
    | _         => .next (respond 0#64 s)
  else .next (busError s)

/-- One entry of the host's list, already taken off it, while reset is not asserted. An access reaches
the block when its platform address lies in the host window (00_scope.md R8; 20_memory.md R50);
elsewhere the platform answers, and the block and its records stay as they are (log 10). A poll comes
here when BUSY = 0: its last read of STATUS (30_encoding.md R90). Log 3. -/
def hostOp (op : HostOp) (s : State) : Host.Outcome State Fault Refusal :=
  match op with
  | .read addr n =>
    match s.params.offsetOf addr with
    | some off => .next (memRead off n s)
    | none     => .next s
  | .write addr n v =>
    match s.params.offsetOf addr with
    | some off => memWrite off n v s
    | none     => .next s
  | .poll           => .next (respond ((statusWord s).setWidth 64) s)
  | .assertReset    => .next { s with resetPin := true }
  | .releaseReset   => .next s

/-- An access to the block while reset is asserted is not defined (70_reset_and_hazards.md R280, U9); one
to another platform address does not concern it. The host's list has `ops` left. Log 15. -/
def resetAccess (addr : Nat) (ops : List HostOp) (s : State) : Host.Outcome State Fault Refusal :=
  match s.params.offsetOf addr with
  | some _ => .fault .busProtocol
  | none   => .next { s with host := ops }

/-- While reset is asserted (R280): nothing of the block moves but the reset input. Log 15. -/
def resetTurn (s : State) : Host.Outcome State Fault Refusal :=
  match s.host with
  | []                     => .next s
  | .releaseReset :: ops   => .next (releaseReset { s with host := ops })
  | .assertReset :: ops    => .next { s with host := ops }
  | .read addr _ :: ops    => resetAccess addr ops s
  | .write addr _ _ :: ops => resetAccess addr ops s
  | .poll :: _             => .fault .busProtocol

/-- One turn of the machine. With no long command in flight the host moves, and the block waits when
the host has nothing to do (60_exceptions.md R270). With one in flight the engine moves when the host
has nothing to do or polls, and otherwise who moves is free (R290, U11). Logs 1 to 3. -/
def turn (s : State) : Host.Outcome State Fault Refusal :=
  if s.resetPin then resetTurn s
  else match s.seq, s.host with
    | none,     []         => .next s
    | none,     op :: ops  => hostOp op { s with host := ops }
    | some job, []         => .next (engineTurn job s)
    | some job, .poll :: _ => .next (engineTurn job s)
    | some job, op :: ops  =>
      if Config.hostFirst s.draws then hostOp op { s.drawn with host := ops }
      else .next (engineTurn job s.drawn)

/-- `s` with a write of the word `w` to CMD as the host's next access, with the engine idle and reset
released, so that the next turn issues that command and nothing else. Log 19. -/
def placeCommand (w : Nat) (s : State) : State :=
  { s with
    resetPin := false
    seq := none
    host := .write (s.params.address 0x008#21) 4 (BitVec.ofNat 64 w) :: s.host }

end Sys2Proof.Machine
end

