-- ==== Sys2Proof/Machine/Step.lean ====
section
/-! DEFINITION. One step of the machine, and how a command is placed where the next step runs it. -/

namespace Sys2Proof.Machine

/-- One step: the next state, a fault, or a refusal. -/
def step (s : State) : Host.Outcome State Fault Refusal := turn s

/-- The command of an opcode-table row placed as the host's next access (30_encoding.md R80: a 4-byte
write to CMD). Log 19. -/
def State.withFetchWord (s : State) (nbits w : Nat) : State := placeCommand (w % 2 ^ nbits) s

end Sys2Proof.Machine
end

