-- ==== Sys2Proof/Machine/Body.lean ====
section
/-! DEFINITION. The steps of an EXEC and the build of an INIT as whole loops, the way the rules write
them (44_execute.md R223, 41_bitrev.md R141). The machine runs the turns of Engine.lean; that these
add up to the loops here is a statement about the model. -/

namespace Sys2Proof.Machine

/-- `for v in [0, n)` in increasing order (00_scope.md R17). -/
def forRange : Nat → (Nat → State → State) → State → State
  | 0,     _, s => s
  | n + 1, f, s => f n (forRange n f s)

/-- `WINDOW_PASS_R()` (42_window.md R164). -/
def windowPass (r : Representation) (cfg : Latched) (s : State) : State :=
  if cfg.win = 0#2 then s else forRange cfg.n (weightSlot r cfg) s

/-- `STAGES_R()` (43_butterfly.md R185). -/
def stages (r : Representation) (cfg : Latched) (s : State) : State :=
  forRange cfg.l
    (fun stage => forRange (2 ^ stage)
      (fun part => forRange (halfPart cfg stage) (stageButterfly r cfg stage part))) s

/-- `PERMUTE_R()` (R190). -/
def permute (r : Representation) (cfg : Latched) (s : State) : State :=
  forRange cfg.n (scatterSlot r) (forRange cfg.n (gatherSlot r) s)

/-- `SCALE_R()` (R191, R192). -/
def scale (r : Representation) (cfg : Latched) (s : State) : State :=
  if cfg.fwd then s else forRange cfg.n (scaleSlot r cfg) s

/-- `EXEC_BODY_R()` (44_execute.md R223) without its completion. -/
def execBody (r : Representation) (cfg : Latched) (s : State) : State :=
  scale r cfg (permute r cfg (stages r cfg (windowPass r cfg s)))

/-- The doubling loop of `BUILD_REV(N)` (41_bitrev.md R141), from a value of `half` and of `block`.
The first argument bounds the passes: block doubles at each, so N of them are more than enough. -/
def buildPasses (size : Nat) : Nat → Nat → Nat → State → State
  | 0,        _,    _,     s => s
  | fuel + 1, half, block, s =>
    if block ≤ size / 2 then
      buildPasses size fuel (half / 2) (2 * block)
        (forRange block (fun j t => writeRev (block + j) (readRev t j + half) t) s)
    else s

/-- `BUILD_REV(N)` (R141). -/
def buildRev (size : Nat) (s : State) : State :=
  buildPasses size size (size / 2) 1 (writeRev 0 0 s)

end Sys2Proof.Machine
end

