-- ==== Sys2Proof/Machine/HostProgram.lean ====
section
/-! DEFINITION. Host programs (30_encoding.md R90, R91): the statements and pseudo-instructions as
lists of bus accesses. `expect` and `chk`'s check make no access. -/

namespace Sys2Proof.Machine

/-- The offsets of the registers (20_memory.md R52). -/
def offId : Offset := 0x000#21
def offParam : Offset := 0x004#21
def offCmd : Offset := 0x008#21
def offArg : Offset := 0x00C#21
def offStatus : Offset := 0x010#21
def offCfgN : Offset := 0x014#21
def offCfg : Offset := 0x018#21

/-- `SLOT(j)` (R90). -/
def SLOT (j : Nat) : Offset := BitVec.ofNat 21 (slotAddr j)

/-- `REVA(i)` (R90). -/
def REVA (i : Nat) : Offset := BitVec.ofNat 21 (revBase + 4 * i)

/-! ### Statements: the accesses of a block with parameters `p`, at its platform addresses (R8, R90) -/

section
variable (p : Params)

/-- `wr OFF, V`. -/
def wr (off : Offset) (v : Nat) : HostOp := .write (p.address off) 4 (BitVec.ofNat 64 v)

/-- `wr64 OFF, V`. -/
def wr64 (off : Offset) (v : Nat) : HostOp := .write (p.address off) 8 (BitVec.ofNat 64 v)

/-- `rd OFF`. -/
def rd (off : Offset) : HostOp := .read (p.address off) 4

/-- `rd64 OFF`. -/
def rd64 (off : Offset) : HostOp := .read (p.address off) 8

/-- `wr CMD, <mnemonic>`. -/
def wrCmd (i : Instr) : HostOp := wr p offCmd (encode i).toNat

/-- A long command with its operand, and the poll (R91). -/
def longCommand (i : Instr) (a : Nat) : List HostOp := [wr p offArg a, wrCmd p i, .poll]

/-- `init.f n`. -/
def progInitF (n : Nat) : List HostOp := longCommand p .initF n

/-- `init.i n`. -/
def progInitI (n : Nat) : List HostOp := longCommand p .initI n

/-- `setwin id`. -/
def progSetwin (id : Nat) : List HostOp := [wr p offArg id, wrCmd p .setwin]

/-- `exec.d len`. -/
def progExecD (len : Nat) : List HostOp := longCommand p .execD len

/-- `exec.s len`. -/
def progExecS (len : Nat) : List HostOp := longCommand p .execS len

/-- `exec.q len`. -/
def progExecQ (len : Nat) : List HostOp := longCommand p .execQ len

/-- `nop`. -/
def progNop : List HostOp := [wrCmd p .nop]

/-- `put j, RE, IM`. -/
def put (j re im : Nat) : List HostOp := [wr64 p (SLOT j) re, wr64 p (SLOT j + 8#21) im]

/-- `put.s j`, with the binary32 patterns of the two values. `put.d` is `put` with binary64 patterns:
the conversion of values is the host encoder's (00_scope.md R5 f). -/
def putS (j re im : Nat) : List HostOp := put p j (re % 2 ^ 32) (im % 2 ^ 32)

/-- `put.q j`, with the two values already times 2^32. -/
def putQ (j : Nat) (re im : Int) : List HostOp := put p j (wrap64 re).toNat (wrap64 im).toNat

/-- `get j`. -/
def getSlot (j : Nat) : List HostOp := [rd64 p (SLOT j), rd64 p (SLOT j + 8#21)]

/-- The access of `chk e`. -/
def chk : List HostOp := [rd p offStatus]

end

end Sys2Proof.Machine
end

