-- ==== Sys2Proof/Safety.lean ====
section
/-! DEFINITION. What statements about the machine are written in: the invariant of its states, what a
safe run is, the bit reversal the table must hold (41_bitrev.md R142), and what it is for a pattern to
be the correctly rounded value of a real (00_scope.md R13, 40_numerics.md R110). -/

namespace Sys2Proof.Machine

/-- `bitrev_L(i)` (R142): `i` with its L-bit binary representation reversed. -/
def bitRev : Nat → Nat → Nat
  | 0,     _ => 0
  | l + 1, i => i % 2 * 2 ^ l + bitRev l (i / 2)

/-- The host has broken no contract so far (00_scope.md R15): a run is safe while this holds. -/
def State.clean (s : State) : Bool := s.faults.isEmpty

/-- The machine stands between commands with nothing left for the host to do. -/
def State.quiet (s : State) : Bool := !s.busy && s.host.isEmpty && !s.resetPin

/-- Neither edge of the reset input is among what the host has still to do. -/
def noReset (ops : List HostOp) : Bool :=
  ops.all fun op => op != .assertReset && op != .releaseReset

/-- The bus's answer to a read (20_memory.md R55). -/
def answer (addr : Offset) (n : Nat) (s : State) : Option Response := (memRead addr n s).resp.head?

/-- An answer that carries the value `v`. -/
def value (v : Word64) : Option Response := some { data := v, error := false }

/-- The EXEC command of a representation (44_execute.md R224 to R226). -/
def execOf : Representation → Instr
  | .D => .execD
  | .S => .execS
  | .Q => .execQ

/-- The INIT command of a direction (41_bitrev.md R145). -/
def initOf (fwd : Bool) : Instr := if fwd then .initF else .initI

/-- The checks of an EXEC hold (44_execute.md R221). -/
def execReady (s : State) : Prop := s.ctl = .ready ∧ s.arg.toNat = s.n ∧ s.win ≠ 3#2

/-- The byte offset `a` lies in one of the slots 0 to n - 1. -/
def inSlots (n a : Nat) : Prop := sampleBase ≤ a ∧ a < sampleBase + 16 * n

/-- The block offset `a` is unmapped, unassigned or beyond NMAX (20_memory.md R52, R63). -/
def isHole (p : Params) (a : Nat) : Prop :=
  (0x1C ≤ a ∧ a < 0x40000) ∨ (0x40000 + 4 * p.nmax ≤ a ∧ a < 0x100000) ∨ 0x100000 + 16 * p.nmax ≤ a

/-- The host's next entry releases reset while it is asserted. -/
def releasing (s : State) : Prop := s.resetPin = true ∧ ∃ ops, s.host = .releaseReset :: ops

/-- The host's next entry is a write of `v` to the register at `off`. -/
def writing (s : State) (off : Offset) (v : Word64) : Prop :=
  s.resetPin = false ∧ ∃ ops, s.host = .write (s.params.address off) 4 v :: ops

/-! ### The invariant -/

/-- BUILD_REV in progress for a size 2^l (41_bitrev.md R141): at the pass with `block = 2^b` the
entries below `block + j` are the bit reversals of their indices. -/
def buildInv (size : Nat) (rev : Ram Nat) : BuildLoop → Prop
  | .start => True
  | .fill half block j =>
    ∃ b, b ≤ Nat.log2 size ∧ block = 2 ^ b ∧ half = size / 2 ^ (b + 1) ∧ j ≤ block ∧
      (b = Nat.log2 size → j = 0) ∧ ∀ i < block + j, lookup i rev.cells = some (bitRev (Nat.log2 size) i)

/-- The configuration in READY (10_state.md R36, 00_scope.md R9). -/
def configInv (s : State) : Prop :=
  s.ctl = .ready → 1 ≤ s.l ∧ s.l ≤ s.params.log2Nmax ∧ s.n = 2 ^ s.l

/-- In READY, and while no INIT rebuilds it, the table holds the bit reversals (R36, R142). -/
def tableInv (s : State) : Prop :=
  s.ctl = .ready → initRunning s = false → ∀ i < s.n, lookup i s.rev.cells = some (bitRev s.l i)

/-- The long command in flight: an INIT latched a valid size and has built what it has built; an EXEC
runs in READY on the configuration as it stands (10_state.md R37, 70_reset_and_hazards.md R295). -/
def jobInv (s : State) : Prop :=
  match s.seq with
  | none => True
  | some (.init size _ loop) => validSize s.params size = true ∧ buildInv size s.rev loop
  | some (.exec _ cfg _ _) => s.ctl = .ready ∧ cfg = latch s

/-- The table has its canonical form, of entries i below NMAX in LOG2_NMAX bits (10_state.md R32). -/
def revInv (s : State) : Prop :=
  rising s.rev.cells = true ∧ ∀ c ∈ s.rev.cells, c.1 < s.params.nmax ∧ c.2 < s.params.nmax

/-- The invariant of the machine's states. -/
structure State.Inv (s : State) : Prop where
  /-- LOG2_NMAX is in [1, 16] and BLOCK_BASE a multiple of the window's size (00_scope.md R6, R8). -/
  params  : s.params.wf = true
  /-- WIN is never 3 (42_window.md R167). -/
  win     : s.win ≠ 3#2
  /-- WINDOW_AT_APPLY is never reported (60_exceptions.md R257). -/
  err     : s.err ≠ .windowAtApply
  /-- The sample RAM has its canonical form. -/
  mem     : Memory.wf s.mem = true
  /-- Every byte it lists lies in the sample window (20_memory.md R52). -/
  window  : ∀ c ∈ s.mem.cells, sampleBase ≤ c.1 ∧ c.1 < sampleBase + 16 * s.params.nmax
  rev     : revInv s
  /-- The scratch buffer has its canonical form. -/
  scr     : rising s.scr.cells = true
  config  : configInv s
  table   : tableInv s
  job     : jobInv s

/-! ### Correct rounding -/

/-- A pattern that encodes a finite value. -/
def Fmt.isFinite (f : Fmt) (w : Nat) : Prop := ∃ neg u, unpack f w = .fin neg u

/-- `val_R` (40_numerics.md R105) of a finite pattern; 0 for the others. -/
def Fmt.value (f : Fmt) (w : Nat) : ℚ :=
  match unpack f w with
  | .fin neg u => (signedUnits neg u : ℚ) / 2 ^ f.scale
  | .inf _ => 0
  | .nan => 0

/-- The least magnitude that rounds to ∞: half an ulp above the largest finite value. -/
def Fmt.overflowAt (f : Fmt) : ℚ := (2 ^ (f.fracBits + 2) - 1) * 2 ^ (2 ^ f.expBits - 4) / 2 ^ f.scale

/-- `w` is the exact real `x` rounded to nearest, ties to even (R13, R110, R116): below the overflow
threshold a finite pattern than which no finite pattern is nearer, with an even fraction if another
value is as near; from the threshold on the infinity of x's sign. -/
def RoundsTo (f : Fmt) (x : ℝ) (w : Nat) : Prop :=
  if |x| < (f.overflowAt : ℝ) then
    f.isFinite w ∧ ∀ z, f.isFinite z →
      |(f.value w : ℝ) - x| ≤ |(f.value z : ℝ) - x| ∧
      (|(f.value w : ℝ) - x| = |(f.value z : ℝ) - x| → f.value z = f.value w ∨ w % 2 = 0)
  else (0 < x ∧ w = signed f false f.infBits) ∨ (x < 0 ∧ w = signed f true f.infBits)

end Sys2Proof.Machine
end

