-- ==== Sys2Proof/Certificates/Slice0/Obligations.lean ====
section
/-! DEFINITION. The statements about FFTR2, one per obligation of OBLIGATIONS.json. A statement about
the state after a command says the whole state, as the state before with the fields that change: so it
is its own frame. -/

open Sys2Proof Sys2Proof.Machine

/-! ### Encoding -/

/-- R88: the seven words, written out bit by bit from R81, decode to their commands. -/
def Obligations.DecodedWordsAreThoseOfTheTable : Prop :=
  decodeWord 0b00000000000000000000000000000000#32 = .ok .nop ∧
  decodeWord 0b00000000000000000000000000000001#32 = .ok .initI ∧
  decodeWord 0b00000000000000000000000100000001#32 = .ok .initF ∧
  decodeWord 0b00000000000000000000000000000010#32 = .ok .setwin ∧
  decodeWord 0b00000000000000000000000000000011#32 = .ok .execD ∧
  decodeWord 0b00000000000000000001000000000011#32 = .ok .execS ∧
  decodeWord 0b00000000000000000010000000000011#32 = .ok .execQ

/-- R80, R81, R88: decoding the bytes of an encoded command gives it back, and so do its fields put
together. -/
def Obligations.EncodeThenDecodeGivesTheCommand : Prop :=
  ∀ i : Instr, decode (encodeBytes i) = .ok i ∧ decodeWord (packFields i.fields) = .ok i ∧
    decodeTableWord 32 (encode i).toNat = some i

/-- R88: the seven words and no other of the 2^32 decode, each to its own command. -/
def Obligations.OnlySevenWordsDecode : Prop :=
  ∀ w : Word32,
    (decodeWord w = .ok .nop ↔ w = 0x00000000#32) ∧
    (decodeWord w = .ok .initI ↔ w = 0x00000001#32) ∧
    (decodeWord w = .ok .initF ↔ w = 0x00000101#32) ∧
    (decodeWord w = .ok .setwin ↔ w = 0x00000002#32) ∧
    (decodeWord w = .ok .execD ↔ w = 0x00000003#32) ∧
    (decodeWord w = .ok .execS ↔ w = 0x00001003#32) ∧
    (decodeWord w = .ok .execQ ↔ w = 0x00002003#32)

/-- R87, R256: a word is illegal exactly when a reserved bit is set, OP is 4 or more, FWD stands
outside INIT, REPR outside EXEC, or REPR is 3. With the engine idle an illegal word writes ERR (and
clears DROP), and nothing else changes. A 4-byte bus write to CMD, busy or not, issues the low 32 bits of
its value, and a legal word issued is its command's `exec` (R86). -/
def Obligations.IllegalWordReportsAndChangesNothingElse : Prop :=
  (∀ (v : Word64) (s : State),
    memWrite offCmd 4 v s =
      issueCommand (v.setWidth 32) { s with resp := { data := 0#64, error := false } :: s.resp }) ∧
  (∀ (w : Word32) (s : State) (i : Instr), decodeWord w = .ok i → issueCommand w s = exec i s) ∧
  ∀ (w : Word32) (s : State), s.seq = none →
    ((∃ e, decodeWord w = .error e) ↔
      (w &&& 0xFFFFCEF0#32 ≠ 0#32 ∨ 4 ≤ w.toNat % 16 ∨ (w.getLsbD 8 = true ∧ w.toNat % 16 ≠ 1) ∨
        (w.toNat / 4096 % 4 ≠ 0 ∧ w.toNat % 16 ≠ 3) ∨ w.toNat / 4096 % 4 = 3)) ∧
    ((∃ e, decodeWord w = .error e) →
      issueCommand w s = .next { s with drop := false, err := .illegalCmd } ∧
      ∀ v : Word64, v.setWidth 32 = w →
        memWrite offCmd 4 v s =
          .next { s with drop := false, err := .illegalCmd
                         resp := { data := 0#64, error := false } :: s.resp })

/-! ### Steps, reset, registers -/

/-- R86, R25: a step whose host access writes a legal word to CMD is that command's `exec`, on the
state with the access taken off the host's list and answered. While a long command runs, the host may
have to wait for the engine (log 2: who moves is the model's free choice). -/
def Obligations.StepRunsTheDecodedCommand : Prop :=
  ∀ (s : State) (v : Word64) (ops : List HostOp) (i : Instr),
    s.resetPin = false → s.host = .write (s.params.address offCmd) 4 v :: ops →
    decodeWord (v.setWidth 32) = .ok i →
    (s.seq = none →
      step s = exec i { s with host := ops, resp := { data := 0#64, error := false } :: s.resp }) ∧
    (∀ job, s.seq = some job →
      step s = if Config.hostFirst s.draws then
          exec i { s with host := ops, resp := { data := 0#64, error := false } :: s.resp,
                          draws := s.draws + 1 }
        else .next (engineTurn job { s with draws := s.draws + 1 }))

/-- A command placed with `withFetchWord` is what the next step runs (log 19, the model's choice). -/
def Obligations.PlacedCommandRunsNext : Prop :=
  ∀ (s : State) (i : Instr),
    step (s.withFetchWord 32 (encode i).toNat) =
      exec i { s with resetPin := false, seq := none,
                      resp := { data := 0#64, error := false } :: s.resp }

/-- R39: what the registers read, and the controller, the window and the sequencer, right after reset,
for every legal choice of the parameters. -/
def Obligations.ResetRegistersReadAsStated : Prop :=
  ∀ p : Params, p.wf = true →
    answer offId 4 (State.resetWith p) = value 0x46465432#64 ∧
    answer offParam 4 (State.resetWith p) =
      value (BitVec.ofNat 64 (p.log2Nmax + 256 * p.renormShift + 65536)) ∧
    answer offCmd 4 (State.resetWith p) = value 0#64 ∧
    answer offArg 4 (State.resetWith p) = value 0#64 ∧
    answer offStatus 4 (State.resetWith p) = value 0#64 ∧
    answer offCfgN 4 (State.resetWith p) = value 0#64 ∧
    answer offCfg 4 (State.resetWith p) = value 0#64 ∧
    (∀ i < p.nmax, answer (REVA i) 4 (State.resetWith p) = value 0#64) ∧
    (State.resetWith p).ctl = .uninit ∧ (State.resetWith p).win = 0#2 ∧
    (State.resetWith p).seq = none

/-- R280 to R282, R39: releasing reset gives every register its reset value, abandons a command in flight,
and leaves every byte of S and every entry of REV and SCR a fresh free value, whether or not it abandoned
an EXEC and whatever was there before. (That the effect comes at the release is log 16.) -/
def Obligations.ReleaseOfResetGivesTheResetState : Prop :=
  ∀ (s : State) (ops : List HostOp), s.resetPin = true → s.host = .releaseReset :: ops →
    ∃ t, step s = .next t ∧
      t.params = s.params ∧ t.arg = 0#32 ∧ statusWord t = 0#32 ∧ t.win = 0#2 ∧ t.ctl = .uninit ∧
      t.seq = none ∧ cfgNWord t = 0#32 ∧ cfgWord t = 0#32 ∧ t.resetPin = false ∧ t.host = ops ∧
      (∀ a, readByte t.mem a = Config.unwrittenByte (s.mem.draw + 1) a) ∧
      (∀ i, readRev t i = Config.unwrittenRev (s.rev.draw + 1) i % s.params.nmax) ∧
      (∀ i, readScr t i = { re := (Config.unwrittenScratch (s.scr.draw + 1) i).1
                            im := (Config.unwrittenScratch (s.scr.draw + 1) i).2 }) ∧
      t.mem.draw = s.mem.draw + 1 ∧ t.rev.draw = s.rev.draw + 1 ∧ t.scr.draw = s.scr.draw + 1

/-- R280, R281, U9: while reset is asserted a host access to the block is a fault, an access elsewhere passes
it by, and the engine does not move, whatever is in flight; asserting reset changes nothing else at that
step, and with a long command in flight it is taken at a step the host moves at, as any other entry (logs
2, 10, 15 and 16 say how the model takes the accesses and the two edges). An edge that is there already
changes nothing. -/
def Obligations.AssertedResetStopsHostAndEngine : Prop :=
  ∀ (s : State) (ops : List HostOp),
    (s.resetPin = true → s.host = [] → step s = .next s) ∧
    (∀ off n v, s.resetPin = true →
      (s.host = .read (s.params.address off) n :: ops ∨ s.host = .write (s.params.address off) n v :: ops ∨
        s.host = .poll :: ops) →
      step s = .fault .busProtocol) ∧
    (∀ a n v, s.resetPin = true → (a < s.params.blockBase ∨ s.params.blockBase + 0x200000 ≤ a) →
      (s.host = .read a n :: ops ∨ s.host = .write a n v :: ops) →
      step s = .next { s with host := ops }) ∧
    (s.resetPin = true → s.host = .assertReset :: ops → step s = .next { s with host := ops }) ∧
    (s.resetPin = false → s.seq = none →
      (s.host = .assertReset :: ops → step s = .next { s with resetPin := true, host := ops }) ∧
      (s.host = .releaseReset :: ops → step s = .next { s with host := ops })) ∧
    (∀ job, s.resetPin = false → s.seq = some job →
      (s.host = .assertReset :: ops →
        step s = .next (if Config.hostFirst s.draws then
            { s with resetPin := true, host := ops, draws := s.draws + 1 }
          else engineTurn job { s with draws := s.draws + 1 })) ∧
      (s.host = .releaseReset :: ops →
        step s = .next (if Config.hostFirst s.draws then { s with host := ops, draws := s.draws + 1 }
          else engineTurn job { s with draws := s.draws + 1 })))

/-- R270: with no command in flight and nothing for the host to do, nothing changes. -/
def Obligations.IdleStepChangesNothing : Prop :=
  ∀ s : State, s.seq = none → s.host = [] → step s = .next s

/-- R23, R24, R27 to R29, R41: the registers field by field, reserved bits 0, and what the bus answers
when the host reads one, in every state. -/
def Obligations.RegisterWordsHoldTheirFields : Prop :=
  ∀ s : State,
    (statusWord s).getLsbD 0 = s.busy ∧ (statusWord s).getLsbD 1 = s.ready ∧
    (statusWord s).extractLsb' 4 4 = BitVec.ofNat 4 s.err.code ∧
    (statusWord s).getLsbD 8 = s.ovf ∧ (statusWord s).getLsbD 9 = s.drop ∧
    (∀ k, (k = 2 ∨ k = 3 ∨ 10 ≤ k) → (statusWord s).getLsbD k = false) ∧
    (cfgWord s).extractLsb' 0 5 = (if s.ready then BitVec.ofNat 5 s.l else 0#5) ∧
    (cfgWord s).getLsbD 8 = (s.ready && s.fwd) ∧ (cfgWord s).extractLsb' 16 2 = s.win ∧
    (∀ k, (5 ≤ k ∧ k < 8 ∨ 9 ≤ k ∧ k < 16 ∨ 18 ≤ k) → (cfgWord s).getLsbD k = false) ∧
    (paramWord s.params).extractLsb' 0 5 = BitVec.ofNat 5 s.params.log2Nmax ∧
    (paramWord s.params).extractLsb' 5 3 = 0#3 ∧
    (paramWord s.params).extractLsb' 8 8 = BitVec.ofNat 8 s.params.renormShift ∧
    (paramWord s.params).extractLsb' 16 16 = 0x0001#16 ∧
    cfgNWord s = (if s.ready then BitVec.ofNat 32 s.n else 0#32) ∧
    answer offId 4 s = value 0x46465432#64 ∧
    answer offParam 4 s = value ((paramWord s.params).setWidth 64) ∧
    answer offStatus 4 s = value ((statusWord s).setWidth 64) ∧
    answer offCfgN 4 s = value ((cfgNWord s).setWidth 64) ∧
    answer offCfg 4 s = value ((cfgWord s).setWidth 64)

/-! ### The bus -/

/-- R59: when an access is accepted; any other gets a bus error response whose value is 0, with no
effect on the block, and BUS_PROTOCOL is recorded. -/
def Obligations.BadAccessGetsABusErrorAndNoEffect : Prop :=
  ∀ (addr : Offset) (n : Nat),
    (accessOk addr n = true ↔
      (n = 4 ∧ addr.toNat % 4 = 0) ∨ (n = 8 ∧ addr.toNat % 8 = 0 ∧ 0x100000 ≤ addr.toNat)) ∧
    (accessOk addr n = false → ∀ (s : State) (v : Word64),
      memRead addr n s = { s with resp := { data := 0#64, error := true } :: s.resp,
                                  faults := .busProtocol :: s.faults } ∧
      memWrite addr n v s = .next { s with resp := { data := 0#64, error := true } :: s.resp,
                                           faults := .busProtocol :: s.faults })

/-- R40, R63: a write to a read-only register, to the REV window or to a hole changes nothing; CMD and
the holes read 0; none of these reports an error. -/
def Obligations.ReadOnlyAndUnmappedOffsetsIgnoreWrites : Prop :=
  ∀ (s : State) (addr : Offset) (n : Nat) (v : Word64),
    s.params.wf = true → accessOk addr n = true →
    ((addr = offId ∨ addr = offParam ∨ addr = offStatus ∨ addr = offCfgN ∨ addr = offCfg ∨
        (0x40000 ≤ addr.toNat ∧ addr.toNat < 0x40000 + 4 * s.params.nmax) ∨
        isHole s.params addr.toNat) →
      memWrite addr n v s = .next { s with resp := { data := 0#64, error := false } :: s.resp }) ∧
    ((addr = offCmd ∨ isHole s.params addr.toNat) →
      memRead addr n s = { s with resp := { data := 0#64, error := false } :: s.resp })

/-- R62: a read changes nothing of the block; with the engine idle, a second read of the same offset
gives the same value. (The draws it may count are the model's own, log 18.) -/
def Obligations.ReadsHaveNoSideEffect : Prop :=
  ∀ (addr : Offset) (n : Nat) (s : State),
    (∃ r fs d, memRead addr n s = { s with resp := r :: s.resp, faults := fs, draws := d }) ∧
    (s.seq = none → answer addr n (memRead addr n s) = answer addr n s)

/-- R57, R58, R30: the host's word at SLOT j is S[j].re and the one at SLOT j + 8 is S[j].im, the words of
the slot that the engine reads. An 8-byte write to one is read back whole, and by its halves with bits
[31:0] at the lower offset, and is the slot's word from then on, the other word being as before; a 4-byte
write replaces its half and keeps the other; every byte outside the bytes written is as before, and so is
everything but the sample RAM. -/
def Obligations.SampleWindowIsLittleEndian : Prop :=
  ∀ (s : State) (j : Nat) (v : Word64) (a : Offset),
    s.params.wf = true → s.seq = none → j < s.params.nmax → (a = SLOT j ∨ a = SLOT j + 8#21) →
    answer (SLOT j) 8 s = value (readSlot s.mem j).re ∧
    answer (SLOT j + 8#21) 8 s = value (readSlot s.mem j).im ∧
    (∃ t, memWrite a 8 v s = .next t ∧
      (a = SLOT j → readSlot t.mem j = { re := v, im := (readSlot s.mem j).im }) ∧
      (a = SLOT j + 8#21 → readSlot t.mem j = { re := (readSlot s.mem j).re, im := v }) ∧
      answer a 8 t = value v ∧
      answer a 4 t = value (BitVec.ofNat 64 (v.toNat % 2 ^ 32)) ∧
      answer (a + 4#21) 4 t = value (BitVec.ofNat 64 (v.toNat / 2 ^ 32)) ∧
      (∀ b, (b < a.toNat ∨ a.toNat + 8 ≤ b) → readByte t.mem b = readByte s.mem b) ∧
      t = { s with mem := t.mem, resp := { data := 0#64, error := false } :: s.resp }) ∧
    (∃ t, memWrite a 4 v s = .next t ∧
      answer a 8 t =
        value (BitVec.ofNat 64 (v.toNat % 2 ^ 32 + 2 ^ 32 * readLE s.mem (a.toNat + 4) 4)) ∧
      (∀ b, (b < a.toNat ∨ a.toNat + 4 ≤ b) → readByte t.mem b = readByte s.mem b) ∧
      t = { s with mem := t.mem, resp := { data := 0#64, error := false } :: s.resp }) ∧
    (∃ t, memWrite (a + 4#21) 4 v s = .next t ∧
      answer a 8 t =
        value (BitVec.ofNat 64 (readLE s.mem a.toNat 4 + 2 ^ 32 * (v.toNat % 2 ^ 32))) ∧
      (∀ b, (b < a.toNat + 4 ∨ a.toNat + 8 ≤ b) → readByte t.mem b = readByte s.mem b) ∧
      t = { s with mem := t.mem, resp := { data := 0#64, error := false } :: s.resp })

/-- R54: what a 4-byte read of the REV window returns: the entry when READY and i < N and no INIT runs;
any 32-bit value while an INIT runs; else 0. A write there is ignored. An entry has LOG2_NMAX bits (R32),
the unwritten ones included. -/
def Obligations.RevWindowReadsTheTable : Prop :=
  ∀ (s : State) (i : Nat), s.params.wf = true → i < s.params.nmax →
    answer (REVA i) 4 s = value
      (if s.ready = true ∧ i < s.n ∧ initRunning s = false then
        BitVec.ofNat 64 (readRev s i % 2 ^ 32)
      else if initRunning s = true then
        BitVec.ofNat 64 ((Config.freeWord s.draws).toNat % 2 ^ 32)
      else 0#64) ∧
    readRev s i < s.params.nmax ∧
    ∀ v, memWrite (REVA i) 4 v s = .next { s with resp := { data := 0#64, error := false } :: s.resp }

/-- R292, R57: a read of the sample window gives the bytes there, but while an EXEC of size N runs a
read of a slot below N gives a free value, a fresh one at each read. -/
def Obligations.ReadsOfBorrowedSlotsAreFree : Prop :=
  ∀ (s : State) (addr : Offset) (n : Nat), s.params.wf = true → accessOk addr n = true →
    0x100000 ≤ addr.toNat → addr.toNat < 0x100000 + 16 * s.params.nmax →
    (∀ r cfg ph hz, s.seq = some (.exec r cfg ph hz) → inSlots cfg.n addr.toNat →
      answer addr n s = value (BitVec.ofNat 64 ((Config.freeWord s.draws).toNat % 2 ^ (8 * n))) ∧
      (memRead addr n s).draws = s.draws + 1) ∧
    ((∀ r cfg ph hz, s.seq = some (.exec r cfg ph hz) → ¬inSlots cfg.n addr.toNat) →
      answer addr n s = value (BitVec.ofNat 64 (readLE s.mem addr.toNat n)))

/-- R26, R294: at any time, busy or not, a write of ARG changes ARG alone, and ARG reads back. -/
def Obligations.ArgIsWrittenAndReadAtAnyTime : Prop :=
  ∀ (s : State) (v : Word64),
    memWrite offArg 4 v s = .next { s with arg := v.setWidth 32,
                                           resp := { data := 0#64, error := false } :: s.resp } ∧
    answer offArg 4 s = value (s.arg.setWidth 64)

/-- R293: a host write to a slot below N while an EXEC runs records HAZARD and marks the run; a write to a
slot from N on, or while an INIT runs or nothing does, is no hazard. Either stores its bytes and changes
nothing else. The step that completes a marked run leaves every word of S[0..N-1] a free value, drawn
then, and other bytes as before; and whatever step ends a marked run, the host moving or not, but for a
release of reset, leaves those words free. (That the run goes on is log 14.) -/
def Obligations.WriteToABorrowedSlotIsAHazard : Prop :=
  ∀ (s : State) (addr : Offset) (n : Nat) (v : Word64), s.params.wf = true →
    accessOk addr n = true → 0x100000 ≤ addr.toNat → addr.toNat < 0x100000 + 16 * s.params.nmax →
    (∀ r cfg ph hz, s.seq = some (.exec r cfg ph hz) → inSlots cfg.n addr.toNat →
      memWrite addr n v s = .next { s with mem := writeLE s.mem addr.toNat n v.toNat
                                           seq := some (.exec r cfg ph true)
                                           faults := .hazard :: s.faults
                                           resp := { data := 0#64, error := false } :: s.resp }) ∧
    ((∀ r cfg ph hz, s.seq = some (.exec r cfg ph hz) → ¬inSlots cfg.n addr.toNat) →
      memWrite addr n v s = .next { s with mem := writeLE s.mem addr.toNat n v.toNat,
                                           resp := { data := 0#64, error := false } :: s.resp }) ∧
    (∀ b, readByte (writeLE s.mem addr.toNat n v.toNat) b =
      if addr.toNat ≤ b ∧ b < addr.toNat + n then BitVec.ofNat 8 (v.toNat / 256 ^ (b - addr.toNat))
      else readByte s.mem b) ∧
    (∀ r cfg i, s.seq = some (.exec r cfg (.scale i) true) → (cfg.fwd = true ∨ cfg.n ≤ i) →
      s.resetPin = false → s.host = [] →
      ∃ t, step s = .next t ∧ t.busy = false ∧
        (∀ j < cfg.n, readSlot t.mem j =
          { re := Config.freeWord (s.draws + 2 * j), im := Config.freeWord (s.draws + 2 * j + 1) }) ∧
        (∀ b, ¬inSlots cfg.n b → readByte t.mem b = readByte s.mem b) ∧
        { t with seq := s.seq, mem := s.mem, ovf := s.ovf, draws := s.draws } = s ∧
        (r ≠ .Q → t.ovf = s.ovf)) ∧
    (∀ r cfg ph t, s.seq = some (.exec r cfg ph true) → s.resetPin = false → step s = .next t →
      t.busy = false → ∃ d, s.draws ≤ d ∧ ∀ j < cfg.n,
        readSlot t.mem j = { re := Config.freeWord (d + 2 * j), im := Config.freeWord (d + 2 * j + 1) })

/-! ### Commands -/

/-- R220: NOP is the word 0, and a word with OP = 0 and any other bit set is illegal; with the engine
idle NOP writes ERR = OK, clears DROP, and changes nothing else; while a long command runs it sets DROP
and changes nothing else. -/
def Obligations.NopClearsErrAndDropOnly : Prop :=
  (∀ w : Word32, w.toNat % 16 = 0 →
    (w = 0#32 → decodeWord w = .ok .nop) ∧ (w ≠ 0#32 → ∃ e, decodeWord w = .error e)) ∧
  ∀ s : State,
    (s.seq = none → exec .nop s = .next { s with drop := false, err := .ok }) ∧
    (s.busy = true → exec .nop s = .next { s with drop := true })

/-- R145, R146, R148, R9: an INIT of either direction is accepted exactly when ARG is 2^L with
1 <= L <= LOG2_NMAX: then ERR = OK and the build of that size is in flight. Otherwise it reports
CONFIG and changes nothing else. -/
def Obligations.InitIsAcceptedExactlyForValidSizes : Prop :=
  ∀ (s : State) (fwd : Bool), s.seq = none →
    ((∃ l, 1 ≤ l ∧ l ≤ s.params.log2Nmax ∧ s.arg.toNat = 2 ^ l) →
      exec (initOf fwd) s =
        .next { s with drop := false, err := .ok, seq := some (.init s.arg.toNat fwd .start) }) ∧
    ((¬∃ l, 1 ≤ l ∧ l ≤ s.params.log2Nmax ∧ s.arg.toNat = 2 ^ l) →
      exec (initOf fwd) s = .next { s with drop := false, err := .config })

/-- R141, R142, R147, R149: an accepted INIT, left alone by the host, completes: N, L, FWD and READY
are set, the first N entries of REV are the bit reversals of their indices (so REV is a permutation of
[0, N) and its own inverse, with REV[0] = 0 and REV[N-1] = N-1), and nothing else changes but ERR and
DROP. -/
def Obligations.InitCompletesWithTheBitReversedTable : Prop :=
  ∀ (s : State) (fwd : Bool) (l : Nat),
    s.seq = none → s.resetPin = false → s.host = [] →
    1 ≤ l → l ≤ s.params.log2Nmax → s.arg.toNat = 2 ^ l →
    ∃ t k u, exec (initOf fwd) s = .next t ∧ t.busy = true ∧ core.run k t = .next u ∧
      u = { s with drop := false, err := .ok, n := 2 ^ l, l := l, fwd := fwd, ctl := .ready,
                   seq := none, rev := u.rev } ∧
      (∀ i < 2 ^ l, readRev u i = bitRev l i ∧ readRev u i < 2 ^ l ∧ readRev u (readRev u i) = i) ∧
      readRev u 0 = 0 ∧ readRev u (2 ^ l - 1) = 2 ^ l - 1 ∧
      (∀ i, 2 ^ l ≤ i → readRev u i = readRev s i)

/-- R163: SETWIN sets WIN to an id of at most 2, whole; any other id reports WINDOW_ID and keeps WIN. It
is accepted in both controller states and changes nothing else. -/
def Obligations.SetwinTakesIdsUpToTwo : Prop :=
  decodeWord 0x00000002#32 = .ok .setwin ∧
  ∀ s : State, s.seq = none →
    (s.arg.toNat ≤ 2 →
      exec .setwin s =
        .next { s with drop := false, err := .ok, win := BitVec.ofNat 2 s.arg.toNat }) ∧
    (2 < s.arg.toNat → exec .setwin s = .next { s with drop := false, err := .windowId })

/-- R222: an EXEC of any representation whose checks hold is accepted: ERR = OK, OVF = 0, and the run
with the configuration as it stands is in flight at its first step. -/
def Obligations.ExecIsAccepted : Prop :=
  ∀ (s : State) (r : Representation), s.seq = none → execReady s →
    exec (execOf r) s =
      .next { s with drop := false, err := .ok, ovf := false,
                     seq := some (.exec r { n := s.n, l := s.l, fwd := s.fwd, win := s.win }
                       (.window 0) false) }

/-- R221, R261: the checks of an EXEC in their order; a refused EXEC changes ERR and DROP alone. -/
def Obligations.ExecIsRefusedByItsFirstFailedCheck : Prop :=
  ∀ (s : State) (r : Representation), s.seq = none →
    (s.ctl = .uninit → exec (execOf r) s = .next { s with drop := false, err := .notReady }) ∧
    (s.ctl = .ready → s.arg.toNat ≠ s.n →
      exec (execOf r) s = .next { s with drop := false, err := .sizeMismatch }) ∧
    (s.ctl = .ready → s.arg.toNat = s.n → s.win = 3#2 →
      exec (execOf r) s = .next { s with drop := false, err := .windowAtApply })

/-- R291, R258: while a long command runs every command write, legal or not, sets DROP and changes
nothing else. -/
def Obligations.CommandsAreDroppedWhileBusy : Prop :=
  ∀ (s : State) (job : Job), s.seq = some job →
    (∀ i, exec i s = .next { s with drop := true }) ∧
    (∀ w, issueCommand w s = .next { s with drop := true }) ∧
    (∀ v, memWrite offCmd 4 v s =
      .next { s with drop := true, resp := { data := 0#64, error := false } :: s.resp })

/-- R223, R227, R224 to R226: an accepted EXEC, left alone by the host, completes, and what it has done
is the four steps of R223 as whole loops, on the state at its acceptance. -/
def Obligations.ExecRunsItsFourSteps : Prop :=
  ∀ (s : State) (r : Representation),
    s.seq = none → s.resetPin = false → s.host = [] → execReady s →
    ∃ t k u, exec (execOf r) s = .next t ∧ t.busy = true ∧ core.run k t = .next u ∧
      u = { execBody r (latch s) t with seq := none }

/-- R228, R116: the four steps write bytes of the slots 0 to N-1 only, and of the rest of the state
only SCR, and OVF in Q. -/
def Obligations.ExecStaysInsideItsSlots : Prop :=
  ∀ (s : State) (r : Representation), s.Inv → s.ctl = .ready → initRunning s = false →
    (∀ a, ¬inSlots s.n a → readByte (execBody r (latch s) s).mem a = readByte s.mem a) ∧
    { execBody r (latch s) s with mem := s.mem, scr := s.scr, ovf := s.ovf } = s ∧
    (r ≠ .Q → (execBody r (latch s) s).ovf = s.ovf)

/-- R31, R225, U23: what EXEC.S leaves in the slots 0 to N-1 does not depend on bits [63:32] of the
words it finds there, and leaves those bits 0. -/
def Obligations.UpperHalvesDoNotMatterInS : Prop :=
  ∀ s t : State, s.Inv → t.Inv → s.ctl = .ready → initRunning s = false → initRunning t = false →
    t.ctl = s.ctl → t.params = s.params → latch t = latch s →
    (∀ j < s.n,
      (readSlot s.mem j).re.toNat % 2 ^ 32 = (readSlot t.mem j).re.toNat % 2 ^ 32 ∧
      (readSlot s.mem j).im.toNat % 2 ^ 32 = (readSlot t.mem j).im.toNat % 2 ^ 32) →
    ∀ j < s.n,
      readSlot (execBody .S (latch s) s).mem j = readSlot (execBody .S (latch t) t).mem j ∧
      (readSlot (execBody .S (latch s) s).mem j).re.toNat < 2 ^ 32 ∧
      (readSlot (execBody .S (latch s) s).mem j).im.toNat < 2 ^ 32

/-! ### The steps of an EXEC -/

/-- R186: a butterfly reads both operands, then puts the sum at x and the product of the difference
with W at y; other slots keep their words, and OVF gathers the wraps of its operations. In a stage of a
transform of size 2^L the two slots of a butterfly differ. -/
def Obligations.ButterflyReplacesItsPair : Prop :=
  (∀ (cfg : Latched) (stage part i : Nat), cfg.n = 2 ^ cfg.l → stage < cfg.l →
    partSize cfg stage * part + i ≠ partSize cfg stage * part + i + halfPart cfg stage) ∧
  ∀ (r : Representation) (x y : Nat) (w : Sample) (s : State), x ≠ y →
    let p := sread r s x
    let q := sread r s y
    let t := butterfly r x y w s
    sread r t x = (addR r p q).1 ∧
    sread r t y = (cmulR s.params.renormShift r (subR r p q).1 w).1 ∧
    (∀ j, j ≠ x → j ≠ y → readSlot t.mem j = readSlot s.mem j) ∧
    t.ovf = (s.ovf || ((subR r p q).2 || (addR r p q).2 ||
      (cmulR s.params.renormShift r (subR r p q).1 w).2)) ∧
    { t with mem := s.mem, ovf := s.ovf } = s

/-- R194: two butterflies on disjoint pairs leave the same bytes and the same OVF in either order. -/
def Obligations.DisjointButterfliesCommute : Prop :=
  ∀ (r : Representation) (x y x' y' : Nat) (w w' : Sample) (s : State),
    x ≠ y → x' ≠ y' → x ≠ x' → x ≠ y' → y ≠ x' → y ≠ y' →
    (∀ a, readByte (butterfly r x' y' w' (butterfly r x y w s)).mem a =
      readByte (butterfly r x y w (butterfly r x' y' w' s)).mem a) ∧
    (butterfly r x' y' w' (butterfly r x y w s)).ovf =
      (butterfly r x y w (butterfly r x' y' w' s)).ovf

/-- R162, R164: the window pass multiplies sample i by the weight at ROM address i·2^(LOG2_NMAX - L) of
the window WIN names, leaves every other slot and every other piece of state but OVF alone, and writes
nothing when WIN = 0 (R166). -/
def Obligations.WindowPassWeighsEverySample : Prop :=
  ∀ (r : Representation) (cfg : Latched) (s : State),
    (cfg.win = 0#2 → windowPass r cfg s = s) ∧
    (cfg.win ≠ 0#2 → ∀ i < cfg.n,
      sread r (windowPass r cfg s) i =
        (wmulR s.params.renormShift r (sread r s i)
          (if cfg.win = 1#2 then hamming r s.params.log2Nmax (i * 2 ^ (s.params.log2Nmax - cfg.l))
           else hanning r s.params.log2Nmax (i * 2 ^ (s.params.log2Nmax - cfg.l)))).1) ∧
    (∀ j, cfg.n ≤ j → readSlot (windowPass r cfg s).mem j = readSlot s.mem j) ∧
    { windowPass r cfg s with mem := s.mem, ovf := s.ovf } = s

/-- R190: the permutation puts in slot i what the engine reads
of slot REV[i], pattern for pattern, and writes no flag. -/
def Obligations.PermutationMovesPatterns : Prop :=
  ∀ (r : Representation) (cfg : Latched) (s : State),
    (∀ i < cfg.n, readSlot (permute r cfg s).mem i = sread r s (readRev s i)) ∧
    (∀ j, cfg.n ≤ j → readSlot (permute r cfg s).mem j = readSlot s.mem j) ∧
    { permute r cfg s with mem := s.mem, scr := s.scr } = s

/-- R191, R192: the inverse divides every component of the slots 0 to N-1 by N; the forward direction
writes nothing. -/
def Obligations.OnlyTheInverseIsScaled : Prop :=
  ∀ (r : Representation) (cfg : Latched) (s : State),
    (cfg.fwd = true → scale r cfg s = s) ∧
    (cfg.fwd = false → ∀ i < cfg.n,
      sread r (scale r cfg s) i = divNR r (sread r s i) cfg.n) ∧
    (∀ j, cfg.n ≤ j → readSlot (scale r cfg s).mem j = readSlot s.mem j) ∧
    { scale r cfg s with mem := s.mem } = s

/-- R182, R162: in a stage of a transform of size 2^L every twiddle address is inside its ROM of NMAX/2
entries and stands for the angle of the source's formula; every window address is below NMAX. -/
def Obligations.RomAddressesAreInRange : Prop :=
  ∀ (log2 l stage i : Nat), l ≤ log2 →
    twiddleAddr log2 l stage i = (i <<< stage) <<< (log2 - l) ∧ windowAddr log2 l i = i <<< (log2 - l) ∧
    (stage < l → i < 2 ^ (l - 1 - stage) →
      twiddleAddr log2 l stage i < 2 ^ log2 / 2 ∧
      twiddleAddr log2 l stage i * 2 ^ (l - stage) = i * 2 ^ log2) ∧
    (i < 2 ^ l → windowAddr log2 l i < 2 ^ log2 ∧ windowAddr log2 l i * 2 ^ l = i * 2 ^ log2)

/-! ### Numbers -/

/-- R110, R116: addition and subtraction of finite operands, in both formats, are the exact result
rounded once to nearest, ties to even; overflow goes to ∞ and subnormals are kept. An infinite operand
carries into the result, unless two of them cancel (then see NanResultsAreCanonical). -/
def Obligations.SumsAndDifferencesRoundOnce : Prop :=
  binary64.infBits = 0x7FF0000000000000 ∧ binary32.infBits = 0x7F800000 ∧
  ∀ (f : Fmt) (x y : Nat), (f = binary64 ∨ f = binary32) →
    x < 2 * f.signWeight → y < 2 * f.signWeight →
    (f.isFinite x → f.isFinite y →
      RoundsTo f ((f.value x : ℝ) + (f.value y : ℝ)) (fadd f x y) ∧
      RoundsTo f ((f.value x : ℝ) - (f.value y : ℝ)) (fsub f x y)) ∧
    (∀ a, unpack f x = .inf a → f.isFinite y →
      fadd f x y = signed f a f.infBits ∧ fsub f x y = signed f a f.infBits) ∧
    (∀ b, f.isFinite x → unpack f y = .inf b →
      fadd f x y = signed f b f.infBits ∧ fsub f x y = signed f (!b) f.infBits) ∧
    (∀ a, unpack f x = .inf a → unpack f y = .inf a → fadd f x y = signed f a f.infBits) ∧
    (∀ a, unpack f x = .inf a → unpack f y = .inf (!a) → fsub f x y = signed f a f.infBits)

/-- R110, R116: multiplication and division of finite operands, the divisor not zero, in both formats,
are the exact result rounded once to nearest, ties to even. Infinite operands and a zero divisor give the
infinity or the zero of the exclusive or of the signs, but where the result is a NaN (see
NanResultsAreCanonical). -/
def Obligations.ProductsAndQuotientsRoundOnce : Prop :=
  ∀ (f : Fmt) (x y : Nat), (f = binary64 ∨ f = binary32) →
    x < 2 * f.signWeight → y < 2 * f.signWeight →
    (f.isFinite x → f.isFinite y →
      RoundsTo f ((f.value x : ℝ) * (f.value y : ℝ)) (fmul f x y) ∧
      (f.value y ≠ 0 → RoundsTo f ((f.value x : ℝ) / (f.value y : ℝ)) (fdiv f x y))) ∧
    (∀ a b, unpack f x = .inf a → unpack f y = .inf b → fmul f x y = signed f (a ^^ b) f.infBits) ∧
    (∀ a b v, unpack f x = .inf a → unpack f y = .fin b v →
      (v ≠ 0 → fmul f x y = signed f (a ^^ b) f.infBits) ∧ fdiv f x y = signed f (a ^^ b) f.infBits) ∧
    (∀ a b u, unpack f x = .fin a u → unpack f y = .inf b →
      (u ≠ 0 → fmul f x y = signed f (a ^^ b) f.infBits) ∧ fdiv f x y = signed f (a ^^ b) 0) ∧
    (∀ a b u, unpack f x = .fin a u → unpack f y = .fin b 0 → u ≠ 0 →
      fdiv f x y = signed f (a ^^ b) f.infBits)

/-- R111: an operation gives a NaN exactly for a NaN operand, ∞ - ∞, 0 × ∞, 0 / 0 or ∞ / ∞, and then
it is the canonical one of the format. -/
def Obligations.NanResultsAreCanonical : Prop :=
  ∀ (f : Fmt) (x y : Nat), (f = binary64 ∨ f = binary32) →
    x < 2 * f.signWeight → y < 2 * f.signWeight →
    binary64.nanBits = 0x7FF8000000000000 ∧ binary32.nanBits = 0x7FC00000 ∧
    (unpack f (fadd f x y) = .nan ↔ fadd f x y = f.nanBits) ∧
    (unpack f (fsub f x y) = .nan ↔ fsub f x y = f.nanBits) ∧
    (unpack f (fmul f x y) = .nan ↔ fmul f x y = f.nanBits) ∧
    (unpack f (fdiv f x y) = .nan ↔ fdiv f x y = f.nanBits) ∧
    (unpack f (fadd f x y) = .nan ↔ unpack f x = .nan ∨ unpack f y = .nan ∨
      ∃ a, unpack f x = .inf a ∧ unpack f y = .inf (!a)) ∧
    (unpack f (fsub f x y) = .nan ↔ unpack f x = .nan ∨ unpack f y = .nan ∨
      ∃ a, unpack f x = .inf a ∧ unpack f y = .inf a) ∧
    (unpack f (fmul f x y) = .nan ↔ unpack f x = .nan ∨ unpack f y = .nan ∨
      ∃ a b, (unpack f x = .inf a ∧ unpack f y = .fin b 0) ∨
        (unpack f x = .fin a 0 ∧ unpack f y = .inf b)) ∧
    (unpack f (fdiv f x y) = .nan ↔ unpack f x = .nan ∨ unpack f y = .nan ∨
      ∃ a b, (unpack f x = .inf a ∧ unpack f y = .inf b) ∨
        (unpack f x = .fin a 0 ∧ unpack f y = .fin b 0))

/-- R113, R116 (signed zeros follow IEEE 754): the sign of a zero result. A zero sum is -0 exactly when
both operands are -0, a zero difference exactly for (-0) - (+0); x - x is +0 for finite x; the sign of a
product or a quotient that is not a NaN, whatever the operands, is the exclusive or of the signs. -/
def Obligations.ZeroSignsFollowTheStandard : Prop :=
  ∀ (f : Fmt) (x y : Nat), (f = binary64 ∨ f = binary32) →
    x < 2 * f.signWeight → y < 2 * f.signWeight →
    (∀ a b u v, unpack f x = .fin a u → unpack f y = .fin b v →
      (f.value x + f.value y = 0 → fadd f x y = if a = true ∧ b = true then f.signWeight else 0) ∧
      (f.value x - f.value y = 0 → fsub f x y = if a = true ∧ b = false then f.signWeight else 0) ∧
      fsub f x x = 0) ∧
    (unpack f (fmul f x y) ≠ .nan →
      decide (f.signWeight ≤ fmul f x y) = (decide (f.signWeight ≤ x) ^^ decide (f.signWeight ≤ y))) ∧
    (unpack f (fdiv f x y) ≠ .nan →
      decide (f.signWeight ≤ fdiv f x y) = (decide (f.signWeight ≤ x) ^^ decide (f.signWeight ≤ y)))

/-- R120 to R123: the Q add, subtract and renormalization give the exact integer wrapped to 64 bits,
the renormalization after a floor shift, and set OVF exactly when it lies outside [-2^63, 2^63); a
sample is added and subtracted component by component. -/
def Obligations.FixedPointWrapsAndFlags : Prop :=
  (∀ p q : Sample,
    addR .Q p q = ({ re := (qadd p.re q.re).1, im := (qadd p.im q.im).1 },
      (qadd p.re q.re).2 || (qadd p.im q.im).2) ∧
    subR .Q p q = ({ re := (qsub p.re q.re).1, im := (qsub p.im q.im).1 },
      (qsub p.re q.re).2 || (qsub p.im q.im).2)) ∧
  ∀ (x y : Word64) (shift : Nat) (p : Int),
    (s64 (qadd x y).1 = Int.bmod (s64 x + s64 y) (2 ^ 64) ∧
      ((qadd x y).2 = true ↔ s64 x + s64 y < -2 ^ 63 ∨ 2 ^ 63 ≤ s64 x + s64 y)) ∧
    (s64 (qsub x y).1 = Int.bmod (s64 x - s64 y) (2 ^ 64) ∧
      ((qsub x y).2 = true ↔ s64 x - s64 y < -2 ^ 63 ∨ 2 ^ 63 ≤ s64 x - s64 y)) ∧
    (s64 (renorm shift p).1 = Int.bmod ⌊(p : ℚ) / 2 ^ shift⌋ (2 ^ 64) ∧
      ((renorm shift p).2 = true ↔
        ⌊(p : ℚ) / 2 ^ shift⌋ < -2 ^ 63 ∨ 2 ^ 63 ≤ ⌊(p : ℚ) / 2 ^ shift⌋))

/-- R126: the Q division by N >= 2 is exact division rounded toward zero, component by component, and
never wraps. -/
def Obligations.FixedDivisionRoundsTowardZero : Prop :=
  (∀ (v : Sample) (n : Nat), divNR .Q v n = { re := qdiv v.re n, im := qdiv v.im n }) ∧
  ∀ (x : Word64) (n : Nat), 2 ≤ n →
    s64 (qdiv x n) = (s64 x).sign * ⌊((s64 x).natAbs : ℚ) / n⌋ ∧ (s64 (qdiv x n)).natAbs ≤ (s64 x).natAbs

/-- R129, R124, R125: with ROM values of magnitude at most 2^32, every product is at most 2^95 and every
sum or difference of two at most 2^96 in magnitude, so the 128-bit intermediate holds it exactly; and
the real-weight product is the complex product with (w, 0). -/
def Obligations.IntermediateFitsIn128Bits : Prop :=
  ∀ (a b c d : Word64), (s64 c).natAbs ≤ 2 ^ 32 → (s64 d).natAbs ≤ 2 ^ 32 →
    (s64 a * s64 c).natAbs ≤ 2 ^ 95 ∧
    (s64 a * s64 c - s64 b * s64 d).natAbs ≤ 2 ^ 96 ∧
    (s64 a * s64 d + s64 b * s64 c).natAbs ≤ 2 ^ 96 ∧
    ∀ shift, wmulR shift .Q { re := a, im := b } c =
      cmulR shift .Q { re := a, im := b } { re := c, im := 0#64 }

/-- R165, R161: the Q weights lie in [0, 2^32], so with RENORM_SHIFT = 32 the window pass in Q never
changes OVF, and no component grows in magnitude; the weight 2^32 keeps a component and the weight 0
makes it 0. -/
def Obligations.WindowPassNeverSetsOvf : Prop :=
  ∀ (s : State) (log2 k : Nat), 1 ≤ log2 → log2 ≤ 16 → k < 2 ^ log2 →
    0 ≤ s64 (hamming .Q log2 k) ∧ s64 (hamming .Q log2 k) ≤ 2 ^ 32 ∧
    0 ≤ s64 (hanning .Q log2 k) ∧ s64 (hanning .Q log2 k) ≤ 2 ^ 32 ∧
    (∀ (x w : Word64), 0 ≤ s64 w → s64 w ≤ 2 ^ 32 →
      (renorm 32 (s64 x * s64 w)).2 = false ∧
      (s64 (renorm 32 (s64 x * s64 w)).1).natAbs ≤ (s64 x).natAbs) ∧
    (∀ x : Word64, renorm 32 (s64 x * 2 ^ 32) = (x, false) ∧ renorm 32 (s64 x * 0) = (0#64, false)) ∧
    (s.Inv → s.params.renormShift = 32 → s.ctl = .ready →
      (windowPass .Q (latch s) s).ovf = s.ovf)

/-- R181: every twiddle ROM entry in D and S is the exact cosine or sine rounded once, an exact zero
being +0, and the Q entry is the D entry times 2^32 truncated toward zero. -/
def Obligations.TwiddleRomIsCorrectlyRounded : Prop :=
  ∀ (log2 k : Nat), 1 ≤ log2 → log2 ≤ 16 → k < 2 ^ log2 / 2 →
    RoundsTo binary64 (Real.cos (2 * Real.pi * k / 2 ^ log2)) (twiddleCos .D log2 k).toNat ∧
    RoundsTo binary64 (Real.sin (2 * Real.pi * k / 2 ^ log2)) (twiddleSin .D log2 k).toNat ∧
    RoundsTo binary32 (Real.cos (2 * Real.pi * k / 2 ^ log2)) (twiddleCos .S log2 k).toNat ∧
    RoundsTo binary32 (Real.sin (2 * Real.pi * k / 2 ^ log2)) (twiddleSin .S log2 k).toNat ∧
    (Real.cos (2 * Real.pi * k / 2 ^ log2) = 0 → twiddleCos .D log2 k = 0#64 ∧ twiddleCos .S log2 k = 0#64) ∧
    (Real.sin (2 * Real.pi * k / 2 ^ log2) = 0 → twiddleSin .D log2 k = 0#64 ∧ twiddleSin .S log2 k = 0#64) ∧
    (s64 (twiddleCos .Q log2 k) : ℚ) =
      (SignType.sign (binary64.value (twiddleCos .D log2 k).toNat) : ℚ) *
        ⌊|binary64.value (twiddleCos .D log2 k).toNat| * 2 ^ 32⌋ ∧
    (s64 (twiddleSin .Q log2 k) : ℚ) =
      (SignType.sign (binary64.value (twiddleSin .D log2 k).toNat) : ℚ) *
        ⌊|binary64.value (twiddleSin .D log2 k).toNat| * 2 ^ 32⌋

/-- R161: every window ROM entry in D and S is the exact weight 27/50 - (23/50)·c or 1/2 - (1/2)·c
rounded once, an exact zero being +0, and the Q entry is the D entry times 2^32 truncated, which lies
in [0, 2^32]. -/
def Obligations.WindowRomIsCorrectlyRounded : Prop :=
  ∀ (log2 k : Nat), 1 ≤ log2 → log2 ≤ 16 → k < 2 ^ log2 →
    RoundsTo binary64 (27 / 50 - 23 / 50 * Real.cos (2 * Real.pi * k / 2 ^ log2))
      (hamming .D log2 k).toNat ∧
    RoundsTo binary64 (1 / 2 - 1 / 2 * Real.cos (2 * Real.pi * k / 2 ^ log2))
      (hanning .D log2 k).toNat ∧
    RoundsTo binary32 (27 / 50 - 23 / 50 * Real.cos (2 * Real.pi * k / 2 ^ log2))
      (hamming .S log2 k).toNat ∧
    RoundsTo binary32 (1 / 2 - 1 / 2 * Real.cos (2 * Real.pi * k / 2 ^ log2))
      (hanning .S log2 k).toNat ∧
    s64 (hamming .Q log2 k) = ⌊binary64.value (hamming .D log2 k).toNat * 2 ^ 32⌋ ∧
    s64 (hanning .Q log2 k) = ⌊binary64.value (hanning .D log2 k).toNat * 2 ^ 32⌋ ∧
    (Real.cos (2 * Real.pi * k / 2 ^ log2) = 1 → hanning .D log2 k = 0#64 ∧ hanning .S log2 k = 0#64) ∧
    (0 ≤ s64 (hamming .Q log2 k) ∧ s64 (hamming .Q log2 k) ≤ 2 ^ 32) ∧
    (0 ≤ s64 (hanning .Q log2 k) ∧ s64 (hanning .Q log2 k) ≤ 2 ^ 32)

/-- R181, R169: the exact entries of the ROMs, and the symmetry of the window ROM. -/
def Obligations.RomsHoldTheirExactValues : Prop :=
  ∀ (log2 : Nat), 1 ≤ log2 → log2 ≤ 16 →
    (twiddleCos .D log2 0 = 0x3FF0000000000000#64 ∧ twiddleSin .D log2 0 = 0#64 ∧
      twiddleCos .S log2 0 = 0x3F800000#64 ∧ twiddleSin .S log2 0 = 0#64 ∧
      twiddleCos .Q log2 0 = 0x100000000#64 ∧ twiddleSin .Q log2 0 = 0#64) ∧
    (2 ≤ log2 →
      twiddleCos .D log2 (2 ^ log2 / 4) = 0#64 ∧
      twiddleSin .D log2 (2 ^ log2 / 4) = 0x3FF0000000000000#64 ∧
      twiddleCos .S log2 (2 ^ log2 / 4) = 0#64 ∧ twiddleSin .S log2 (2 ^ log2 / 4) = 0x3F800000#64 ∧
      twiddleSin .Q log2 (2 ^ log2 / 4) = 0x100000000#64 ∧
      hanning .D log2 (2 ^ log2 / 4) = 0x3FE0000000000000#64 ∧
      hanning .S log2 (2 ^ log2 / 4) = 0x3F000000#64 ∧
      hanning .Q log2 (2 ^ log2 / 4) = 0x80000000#64 ∧
      hamming .D log2 (2 ^ log2 / 4) = 0x3FE147AE147AE148#64) ∧
    hamming .D log2 0 = 0x3FB47AE147AE147B#64 ∧
    (∀ r, hanning r log2 0 = 0#64) ∧
    (hamming .D log2 (2 ^ log2 / 2) = 0x3FF0000000000000#64 ∧
      hanning .D log2 (2 ^ log2 / 2) = 0x3FF0000000000000#64 ∧
      hamming .S log2 (2 ^ log2 / 2) = 0x3F800000#64 ∧
      hanning .S log2 (2 ^ log2 / 2) = 0x3F800000#64 ∧
      hamming .Q log2 (2 ^ log2 / 2) = 0x100000000#64 ∧
      hanning .Q log2 (2 ^ log2 / 2) = 0x100000000#64) ∧
    (∀ r k, 1 ≤ k → k < 2 ^ log2 →
      hamming r log2 k = hamming r log2 (2 ^ log2 - k) ∧
      hanning r log2 k = hanning r log2 (2 ^ log2 - k))

/-! ### The whole machine -/

/-- The state after reset meets the invariant, whatever the legal parameters. -/
def Obligations.ResetMeetsTheInvariant : Prop :=
  ∀ p : Params, p.wf = true → (State.resetWith p).Inv

/-- R29, R36, R141, R142, R167, R257, R295: every step keeps the invariant: WIN is never 3 and
WINDOW_AT_APPLY never reported; in READY N = 2^L in range and, unless an INIT is rebuilding it, REV
holds the bit reversals; a running EXEC has the configuration as it stands; the RAMs keep their
canonical form inside the sample window. -/
def Obligations.StepKeepsTheInvariant : Prop :=
  ∀ s t : State, s.Inv → step s = .next t → t.Inv

/-- R296: from any state that meets the invariant, with a long command in flight and whatever the host
goes on doing short of touching reset, the command completes after finitely many steps. -/
def Obligations.EveryLongCommandCompletes : Prop :=
  ∀ s : State, s.Inv → s.busy = true → s.resetPin = false → noReset s.host = true →
    ∃ k t, core.run k s = .next t ∧ t.busy = false

/-- R28, R29, R147, R295: N, L, FWD and READY change only at the step that completes an INIT, to that
INIT's values and together with BUSY, and at the release of reset. -/
def Obligations.ConfigurationChangesOnlyWhenAnInitCompletes : Prop :=
  ∀ s t : State, step s = .next t →
    (t.n = s.n ∧ t.l = s.l ∧ t.fwd = s.fwd ∧ t.ctl = s.ctl) ∨
    (∃ size d half block j, s.seq = some (.init size d (.fill half block j)) ∧ size / 2 < block ∧
      t.n = size ∧ t.l = Nat.log2 size ∧ t.fwd = d ∧ t.ctl = .ready ∧ t.seq = none) ∨
    releasing s

/-- R29, R149: WIN changes only by a SETWIN that is not dropped and at the release of reset. -/
def Obligations.WindowChangesOnlyBySetwin : Prop :=
  ∀ s t : State, step s = .next t →
    t.win = s.win ∨
    (∃ v, writing s offCmd v ∧ decodeWord (v.setWidth 32) = .ok .setwin ∧ s.seq = none ∧
      s.arg.toNat ≤ 2 ∧ t.win = BitVec.ofNat 2 s.arg.toNat) ∨
    releasing s

/-- R26, R24, R10: ARG changes only by a host write to ARG and at the release of reset; the parameters,
and with them PARAM and the ROMs, never change. -/
def Obligations.CommandsNeverWriteArgOrParam : Prop :=
  ∀ s t : State, step s = .next t →
    t.params = s.params ∧
    (t.arg = s.arg ∨ (∃ v, writing s offArg v ∧ t.arg = v.setWidth 32) ∨ releasing s)

/-- R251, R27: ERR changes only at a command write that is not dropped, never at a completion; DROP is
set only by a command write while BUSY = 1 and cleared only by one while BUSY = 0; both also at the
release of reset. -/
def Obligations.ErrAndDropAreWrittenByCommandWrites : Prop :=
  ∀ s t : State, step s = .next t →
    (t.err = s.err ∨ (s.seq = none ∧ ∃ v, writing s offCmd v) ∨ releasing s) ∧
    (t.drop = s.drop ∨ (t.drop = true ∧ s.busy = true ∧ ∃ v, writing s offCmd v) ∨
      (t.drop = false ∧ ((s.seq = none ∧ ∃ v, writing s offCmd v) ∨ releasing s)))

/-- R122, R222, R116: OVF is set only while an EXEC.Q runs, and cleared only at the acceptance of an
EXEC and at the release of reset. -/
def Obligations.OvfIsSetByExecQAndClearedByExec : Prop :=
  ∀ s t : State, step s = .next t →
    t.ovf = s.ovf ∨
    (t.ovf = true ∧ ∃ cfg ph hz, s.seq = some (.exec .Q cfg ph hz)) ∨
    (t.ovf = false ∧
      ((∃ v r, writing s offCmd v ∧ s.seq = none ∧ decodeWord (v.setWidth 32) = .ok (execOf r) ∧
        t.seq = some (.exec r (latch s) (.window 0) false)) ∨ releasing s))

/-- R143, R32, R69: REV changes only while an INIT runs and at the release of reset; SCR only while an
EXEC is permuting and at the release of reset. -/
def Obligations.TablesChangeOnlyByTheirUnit : Prop :=
  ∀ s t : State, step s = .next t →
    (t.rev = s.rev ∨ initRunning s = true ∨ releasing s) ∧
    (t.scr = s.scr ∨ (∃ r cfg i hz, s.seq = some (.exec r cfg (.gather i) hz)) ∨ releasing s)

/-- R30, R57, R228, R282: a byte of the sample RAM changes only by a host write to it, by a running EXEC
that has borrowed its slot, and at the release of reset. -/
def Obligations.SampleBytesChangeOnlyByTheirOwner : Prop :=
  ∀ s t : State, s.Inv → step s = .next t → ∀ a, readByte t.mem a = readByte s.mem a ∨
    (s.resetPin = false ∧ ∃ off n v ops, s.host = .write (s.params.address off) n v :: ops ∧
      accessOk off n = true ∧ off.toNat ≤ a ∧ a < off.toNat + n ∧
      readByte t.mem a = BitVec.ofNat 8 (v.toNat / 256 ^ (a - off.toNat))) ∨
    (s.resetPin = false ∧ ∃ r cfg ph hz, s.seq = some (.exec r cfg ph hz) ∧ inSlots cfg.n a) ∨
    releasing s

/-! ### The host's moves, and the inside of an EXEC -/

/-- R8, R50, R65, R90: the block's offsets stand at the platform addresses from BLOCK_BASE on. A step whose
host access is a read or a write of one is `memRead` or `memWrite` on the state with the access taken off
the list; an access elsewhere does not reach the block; a poll at BUSY = 0 is one read of STATUS and one
at BUSY = 1 waits for the engine. With a long command in flight it is open whether an access or the engine
moves (logs 2, 3 and 10: how the host's moves are cut into steps is the model's choice). -/
def Obligations.HostAccessesAreTheBusFunctions : Prop :=
  ∀ (s : State) (off : Offset) (a n : Nat) (v : Word64) (ops : List HostOp), s.resetPin = false →
    (s.params.wf = true → 0x200000 ∣ s.params.blockBase) ∧
    s.params.address off = s.params.blockBase + off.toNat ∧
    (s.seq = none →
      (s.host = .read (s.params.address off) n :: ops →
        step s = .next (memRead off n { s with host := ops })) ∧
      (s.host = .write (s.params.address off) n v :: ops →
        step s = memWrite off n v { s with host := ops }) ∧
      ((a < s.params.blockBase ∨ s.params.blockBase + 0x200000 ≤ a) →
        s.host = .read a n :: ops ∨ s.host = .write a n v :: ops →
        step s = .next { s with host := ops }) ∧
      (s.host = .poll :: ops →
        step s = .next { s with host := ops
                                resp := { data := (statusWord s).setWidth 64, error := false } :: s.resp })) ∧
    (∀ job, s.seq = some job →
      (s.host = .read (s.params.address off) n :: ops →
        step s = .next (if Config.hostFirst s.draws then
            memRead off n { s with host := ops, draws := s.draws + 1 }
          else engineTurn job { s with draws := s.draws + 1 })) ∧
      (s.host = .write (s.params.address off) n v :: ops →
        step s = if Config.hostFirst s.draws then
            memWrite off n v { s with host := ops, draws := s.draws + 1 }
          else .next (engineTurn job { s with draws := s.draws + 1 })) ∧
      ((a < s.params.blockBase ∨ s.params.blockBase + 0x200000 ≤ a) →
        s.host = .read a n :: ops ∨ s.host = .write a n v :: ops →
        step s = .next (if Config.hostFirst s.draws then { s with host := ops, draws := s.draws + 1 }
          else engineTurn job { s with draws := s.draws + 1 })) ∧
      (s.host = .poll :: ops ∨ s.host = [] →
        step s = .next (engineTurn job s) ∧ (engineTurn job s).host = s.host))

/-- R183, R117, R128: the twiddle factor: its real part is the cosine of the ROM at the address of R182, its
imaginary part the sine, negated when the direction is forward. The negation flips the sign bit in D and
S and is -x in Q, where it is exact for a ROM value. At i = 0 the factor is (1, -0) forward and (1, +0)
inverse in D and S, and (2^32, 0) in Q. -/
def Obligations.TwiddleFactorFollowsTheDirection : Prop :=
  (∀ (r : Representation) (log2 : Nat) (cfg : Latched) (stage i : Nat),
    twiddle r log2 cfg stage i =
      if cfg.fwd then
        { re := twiddleCos r log2 ((i <<< stage) <<< (log2 - cfg.l))
          im := neg1 r (twiddleSin r log2 ((i <<< stage) <<< (log2 - cfg.l))) }
      else
        { re := twiddleCos r log2 ((i <<< stage) <<< (log2 - cfg.l))
          im := twiddleSin r log2 ((i <<< stage) <<< (log2 - cfg.l)) }) ∧
  (∀ x : Word64,
    neg1 .D x = x ^^^ 0x8000000000000000#64 ∧
    neg1 .S x = BitVec.ofNat 64 (x.toNat % 2 ^ 32) ^^^ 0x80000000#64 ∧
    neg1 .Q x = -x ∧ ((s64 x).natAbs ≤ 2 ^ 32 → s64 (neg1 .Q x) = -s64 x)) ∧
  ∀ (log2 stage : Nat) (cfg : Latched), 1 ≤ log2 → log2 ≤ 16 →
    (cfg.fwd = true →
      twiddle .D log2 cfg stage 0 = { re := 0x3FF0000000000000#64, im := 0x8000000000000000#64 } ∧
      twiddle .S log2 cfg stage 0 = { re := 0x3F800000#64, im := 0x80000000#64 }) ∧
    (cfg.fwd = false →
      twiddle .D log2 cfg stage 0 = { re := 0x3FF0000000000000#64, im := 0#64 } ∧
      twiddle .S log2 cfg stage 0 = { re := 0x3F800000#64, im := 0#64 }) ∧
    twiddle .Q log2 cfg stage 0 = { re := 0x100000000#64, im := 0#64 }

/-- R31, R112 to R115, R124, R125: what the engine reads of a slot and writes to it: in D and Q the slot's
words whole, in S their low halves, the high ones being written 0. And the operations on samples,
component by component: in D on the words' patterns, in S on the patterns in their low halves, with no
OVF; the complex product and the real-weight product in Q, renormalized once per part. Every result
pattern fits its word, and N in format F, by which the inverse divides, is N exactly. -/
def Obligations.SampleOperationsActOnComponents : Prop :=
  (∀ (s : State) (j : Nat) (v : Sample),
    let low (x : Word64) : Word64 := BitVec.ofNat 64 (x.toNat % 2 ^ 32)
    sread .D s j = readSlot s.mem j ∧ sread .Q s j = readSlot s.mem j ∧
    sread .S s j = { re := low (readSlot s.mem j).re, im := low (readSlot s.mem j).im } ∧
    readSlot (swrite .D j v s).mem j = v ∧ readSlot (swrite .Q j v s).mem j = v ∧
    readSlot (swrite .S j v s).mem j = { re := low v.re, im := low v.im } ∧
    ∀ r, { swrite r j v s with mem := s.mem } = s ∧
      ∀ k, k ≠ j → readSlot (swrite r j v s).mem k = readSlot s.mem k) ∧
  (∀ (p q : Sample) (w : Word64) (shift n : Nat),
    let d (f : Nat → Nat → Nat) (x y : Word64) : Word64 := BitVec.ofNat 64 (f x.toNat y.toNat)
    addR .D p q = ({ re := d (fadd binary64) p.re q.re, im := d (fadd binary64) p.im q.im }, false) ∧
    subR .D p q = ({ re := d (fsub binary64) p.re q.re, im := d (fsub binary64) p.im q.im }, false) ∧
    cmulR shift .D p q =
      ({ re := d (fsub binary64) (d (fmul binary64) p.re q.re) (d (fmul binary64) p.im q.im)
         im := d (fadd binary64) (d (fmul binary64) p.re q.im) (d (fmul binary64) p.im q.re) }, false) ∧
    wmulR shift .D p w = ({ re := d (fmul binary64) p.re w, im := d (fmul binary64) p.im w }, false) ∧
    divNR .D p n = { re := BitVec.ofNat 64 (fdiv binary64 p.re.toNat (ofNatBits binary64 n))
                     im := BitVec.ofNat 64 (fdiv binary64 p.im.toNat (ofNatBits binary64 n)) }) ∧
  (∀ (p q : Sample) (w : Word64) (shift n : Nat),
    let e (f : Nat → Nat → Nat) (x y : Word64) : Word64 :=
      BitVec.ofNat 64 (f (x.toNat % 2 ^ 32) (y.toNat % 2 ^ 32))
    addR .S p q = ({ re := e (fadd binary32) p.re q.re, im := e (fadd binary32) p.im q.im }, false) ∧
    subR .S p q = ({ re := e (fsub binary32) p.re q.re, im := e (fsub binary32) p.im q.im }, false) ∧
    cmulR shift .S p q =
      ({ re := e (fsub binary32) (e (fmul binary32) p.re q.re) (e (fmul binary32) p.im q.im)
         im := e (fadd binary32) (e (fmul binary32) p.re q.im) (e (fmul binary32) p.im q.re) }, false) ∧
    wmulR shift .S p w = ({ re := e (fmul binary32) p.re w, im := e (fmul binary32) p.im w }, false) ∧
    divNR .S p n =
      { re := BitVec.ofNat 64 (fdiv binary32 (p.re.toNat % 2 ^ 32) (ofNatBits binary32 n))
        im := BitVec.ofNat 64 (fdiv binary32 (p.im.toNat % 2 ^ 32) (ofNatBits binary32 n)) }) ∧
  (∀ (p q : Sample) (w : Word64) (shift : Nat),
    let re := renorm shift (s64 p.re * s64 q.re - s64 p.im * s64 q.im)
    let im := renorm shift (s64 p.re * s64 q.im + s64 p.im * s64 q.re)
    cmulR shift .Q p q = ({ re := re.1, im := im.1 }, re.2 || im.2) ∧
    wmulR shift .Q p w =
      ({ re := (renorm shift (s64 p.re * s64 w)).1, im := (renorm shift (s64 p.im * s64 w)).1 },
        (renorm shift (s64 p.re * s64 w)).2 || (renorm shift (s64 p.im * s64 w)).2)) ∧
  ∀ f : Fmt, (f = binary64 ∨ f = binary32) →
    (∀ x y, fadd f x y < 2 * f.signWeight ∧ fsub f x y < 2 * f.signWeight ∧
      fmul f x y < 2 * f.signWeight ∧ fdiv f x y < 2 * f.signWeight) ∧
    ∀ l ≤ 16, f.isFinite (ofNatBits f (2 ^ l)) ∧ f.value (ofNatBits f (2 ^ l)) = 2 ^ l ∧
      ofNatBits f (2 ^ l) < f.signWeight

/-- R184, R185, R194: for a transform of size N = 2^L the stages run in order, stage `stage` having 2^stage
parts of size 2^(L-stage) and in each the butterflies i below dx = 2^(L-1-stage), on the slots
x = partSize·part + i and y = x + dx, both below N, with the twiddle factor of the stage and i; the
pairs of a stage are disjoint. -/
def Obligations.StagesFollowTheSchedule : Prop :=
  ∀ (r : Representation) (cfg : Latched) (s : State), cfg.n = 2 ^ cfg.l →
    (∀ stage < cfg.l,
      partSize cfg stage = 2 ^ (cfg.l - stage) ∧ halfPart cfg stage = 2 ^ (cfg.l - 1 - stage) ∧
      ∀ part < 2 ^ stage, ∀ i < 2 ^ (cfg.l - 1 - stage),
        let x := 2 ^ (cfg.l - stage) * part + i
        let y := x + 2 ^ (cfg.l - 1 - stage)
        x < y ∧ y < cfg.n ∧
        stageButterfly r cfg stage part i s =
          butterfly r x y (twiddle r s.params.log2Nmax cfg stage i) s ∧
        ∀ part' < 2 ^ stage, ∀ i' < 2 ^ (cfg.l - 1 - stage), (part', i') ≠ (part, i) →
          let x' := 2 ^ (cfg.l - stage) * part' + i'
          let y' := x' + 2 ^ (cfg.l - 1 - stage)
          x ≠ x' ∧ x ≠ y' ∧ y ≠ x' ∧ y ≠ y') ∧
    stages r cfg s =
      forRange cfg.l
        (fun stage => forRange (2 ^ stage)
          (fun part => forRange (2 ^ (cfg.l - 1 - stage))
            (fun i t =>
              butterfly r (2 ^ (cfg.l - stage) * part + i)
                (2 ^ (cfg.l - stage) * part + i + 2 ^ (cfg.l - 1 - stage))
                (twiddle r t.params.log2Nmax cfg stage i) t))) s
end

