-- ==== Sys2Proof/Laws/State.lean ====
section
/-! SUPPORT. One lemma per field per update of the state, so that no later proof unfolds a record
update. A lemma says either the new value or that the field is as before. -/

namespace Sys2Proof.Machine

/-! ### `report` -/

section
variable (e : ErrCode) (s : State)
@[simp] theorem report_params : (report e s).params = s.params := rfl
@[simp] theorem report_arg : (report e s).arg = s.arg := rfl
@[simp] theorem report_err : (report e s).err = e := rfl
@[simp] theorem report_ovf : (report e s).ovf = s.ovf := rfl
@[simp] theorem report_drop : (report e s).drop = s.drop := rfl
@[simp] theorem report_ctl : (report e s).ctl = s.ctl := rfl
@[simp] theorem report_n : (report e s).n = s.n := rfl
@[simp] theorem report_l : (report e s).l = s.l := rfl
@[simp] theorem report_fwd : (report e s).fwd = s.fwd := rfl
@[simp] theorem report_win : (report e s).win = s.win := rfl
@[simp] theorem report_mem : (report e s).mem = s.mem := rfl
@[simp] theorem report_rev : (report e s).rev = s.rev := rfl
@[simp] theorem report_scr : (report e s).scr = s.scr := rfl
@[simp] theorem report_seq : (report e s).seq = s.seq := rfl
@[simp] theorem report_resetPin : (report e s).resetPin = s.resetPin := rfl
@[simp] theorem report_host : (report e s).host = s.host := rfl
@[simp] theorem report_resp : (report e s).resp = s.resp := rfl
@[simp] theorem report_faults : (report e s).faults = s.faults := rfl
@[simp] theorem report_draws : (report e s).draws = s.draws := rfl
end

/-! ### `setOvf` -/

section
variable (b : Bool) (s : State)
@[simp] theorem setOvf_params : (setOvf b s).params = s.params := rfl
@[simp] theorem setOvf_arg : (setOvf b s).arg = s.arg := rfl
@[simp] theorem setOvf_err : (setOvf b s).err = s.err := rfl
@[simp] theorem setOvf_ovf : (setOvf b s).ovf = (s.ovf || b) := rfl
@[simp] theorem setOvf_drop : (setOvf b s).drop = s.drop := rfl
@[simp] theorem setOvf_ctl : (setOvf b s).ctl = s.ctl := rfl
@[simp] theorem setOvf_n : (setOvf b s).n = s.n := rfl
@[simp] theorem setOvf_l : (setOvf b s).l = s.l := rfl
@[simp] theorem setOvf_fwd : (setOvf b s).fwd = s.fwd := rfl
@[simp] theorem setOvf_win : (setOvf b s).win = s.win := rfl
@[simp] theorem setOvf_mem : (setOvf b s).mem = s.mem := rfl
@[simp] theorem setOvf_rev : (setOvf b s).rev = s.rev := rfl
@[simp] theorem setOvf_scr : (setOvf b s).scr = s.scr := rfl
@[simp] theorem setOvf_seq : (setOvf b s).seq = s.seq := rfl
@[simp] theorem setOvf_resetPin : (setOvf b s).resetPin = s.resetPin := rfl
@[simp] theorem setOvf_host : (setOvf b s).host = s.host := rfl
@[simp] theorem setOvf_resp : (setOvf b s).resp = s.resp := rfl
@[simp] theorem setOvf_faults : (setOvf b s).faults = s.faults := rfl
@[simp] theorem setOvf_draws : (setOvf b s).draws = s.draws := rfl
end

/-! ### Entries of REV -/

theorem nmax_pos (p : Params) : 0 < p.nmax := Nat.two_pow_pos _

/-- An entry has LOG2_NMAX bits (10_state.md R32). -/
theorem revEntry_lt (p : Params) (v : Nat) : revEntry p v < p.nmax := Nat.mod_lt _ (nmax_pos p)

/-- A value that fits an entry is kept. -/
theorem revEntry_of_lt {p : Params} {v : Nat} (h : v < p.nmax) : revEntry p v = v := Nat.mod_eq_of_lt h

theorem readRev_lt (s : State) (i : Nat) : readRev s i < s.params.nmax := revEntry_lt _ _

/-- An entry written is read back. -/
theorem readRev_of_lookup {s : State} {i v : Nat} (h : lookup i s.rev.cells = some v) (hv : v < s.params.nmax) :
    readRev s i = v := by
  rw [readRev, h]; exact revEntry_of_lt hv

/-! ### `writeRev` -/

section
variable (i v : Nat) (s : State)
@[simp] theorem writeRev_params : (writeRev i v s).params = s.params := rfl
@[simp] theorem writeRev_arg : (writeRev i v s).arg = s.arg := rfl
@[simp] theorem writeRev_err : (writeRev i v s).err = s.err := rfl
@[simp] theorem writeRev_ovf : (writeRev i v s).ovf = s.ovf := rfl
@[simp] theorem writeRev_drop : (writeRev i v s).drop = s.drop := rfl
@[simp] theorem writeRev_ctl : (writeRev i v s).ctl = s.ctl := rfl
@[simp] theorem writeRev_n : (writeRev i v s).n = s.n := rfl
@[simp] theorem writeRev_l : (writeRev i v s).l = s.l := rfl
@[simp] theorem writeRev_fwd : (writeRev i v s).fwd = s.fwd := rfl
@[simp] theorem writeRev_win : (writeRev i v s).win = s.win := rfl
@[simp] theorem writeRev_mem : (writeRev i v s).mem = s.mem := rfl
@[simp] theorem writeRev_rev : (writeRev i v s).rev = s.rev.write i (revEntry s.params v) := rfl
@[simp] theorem writeRev_scr : (writeRev i v s).scr = s.scr := rfl
@[simp] theorem writeRev_seq : (writeRev i v s).seq = s.seq := rfl
@[simp] theorem writeRev_resetPin : (writeRev i v s).resetPin = s.resetPin := rfl
@[simp] theorem writeRev_host : (writeRev i v s).host = s.host := rfl
@[simp] theorem writeRev_resp : (writeRev i v s).resp = s.resp := rfl
@[simp] theorem writeRev_faults : (writeRev i v s).faults = s.faults := rfl
@[simp] theorem writeRev_draws : (writeRev i v s).draws = s.draws := rfl
end

/-! ### `writeScr` -/

section
variable (i : Nat) (v : Sample) (s : State)
@[simp] theorem writeScr_params : (writeScr i v s).params = s.params := rfl
@[simp] theorem writeScr_arg : (writeScr i v s).arg = s.arg := rfl
@[simp] theorem writeScr_err : (writeScr i v s).err = s.err := rfl
@[simp] theorem writeScr_ovf : (writeScr i v s).ovf = s.ovf := rfl
@[simp] theorem writeScr_drop : (writeScr i v s).drop = s.drop := rfl
@[simp] theorem writeScr_ctl : (writeScr i v s).ctl = s.ctl := rfl
@[simp] theorem writeScr_n : (writeScr i v s).n = s.n := rfl
@[simp] theorem writeScr_l : (writeScr i v s).l = s.l := rfl
@[simp] theorem writeScr_fwd : (writeScr i v s).fwd = s.fwd := rfl
@[simp] theorem writeScr_win : (writeScr i v s).win = s.win := rfl
@[simp] theorem writeScr_mem : (writeScr i v s).mem = s.mem := rfl
@[simp] theorem writeScr_rev : (writeScr i v s).rev = s.rev := rfl
@[simp] theorem writeScr_scr : (writeScr i v s).scr = s.scr.write i v := rfl
@[simp] theorem writeScr_seq : (writeScr i v s).seq = s.seq := rfl
@[simp] theorem writeScr_resetPin : (writeScr i v s).resetPin = s.resetPin := rfl
@[simp] theorem writeScr_host : (writeScr i v s).host = s.host := rfl
@[simp] theorem writeScr_resp : (writeScr i v s).resp = s.resp := rfl
@[simp] theorem writeScr_faults : (writeScr i v s).faults = s.faults := rfl
@[simp] theorem writeScr_draws : (writeScr i v s).draws = s.draws := rfl
end

/-! ### `swrite` -/

section
variable (r : Representation) (j : Nat) (v : Sample) (s : State)
@[simp] theorem swrite_params : (swrite r j v s).params = s.params := rfl
@[simp] theorem swrite_arg : (swrite r j v s).arg = s.arg := rfl
@[simp] theorem swrite_err : (swrite r j v s).err = s.err := rfl
@[simp] theorem swrite_ovf : (swrite r j v s).ovf = s.ovf := rfl
@[simp] theorem swrite_drop : (swrite r j v s).drop = s.drop := rfl
@[simp] theorem swrite_ctl : (swrite r j v s).ctl = s.ctl := rfl
@[simp] theorem swrite_n : (swrite r j v s).n = s.n := rfl
@[simp] theorem swrite_l : (swrite r j v s).l = s.l := rfl
@[simp] theorem swrite_fwd : (swrite r j v s).fwd = s.fwd := rfl
@[simp] theorem swrite_win : (swrite r j v s).win = s.win := rfl
@[simp] theorem swrite_mem : (swrite r j v s).mem = writeSlot s.mem j { re := componentIn r v.re, im := componentIn r v.im } := rfl
@[simp] theorem swrite_rev : (swrite r j v s).rev = s.rev := rfl
@[simp] theorem swrite_scr : (swrite r j v s).scr = s.scr := rfl
@[simp] theorem swrite_seq : (swrite r j v s).seq = s.seq := rfl
@[simp] theorem swrite_resetPin : (swrite r j v s).resetPin = s.resetPin := rfl
@[simp] theorem swrite_host : (swrite r j v s).host = s.host := rfl
@[simp] theorem swrite_resp : (swrite r j v s).resp = s.resp := rfl
@[simp] theorem swrite_faults : (swrite r j v s).faults = s.faults := rfl
@[simp] theorem swrite_draws : (swrite r j v s).draws = s.draws := rfl
end

/-! ### `startLong` -/

section
variable (job : Job) (s : State)
@[simp] theorem startLong_params : (startLong job s).params = s.params := rfl
@[simp] theorem startLong_arg : (startLong job s).arg = s.arg := rfl
@[simp] theorem startLong_err : (startLong job s).err = .ok := rfl
@[simp] theorem startLong_ovf : (startLong job s).ovf = s.ovf := rfl
@[simp] theorem startLong_drop : (startLong job s).drop = s.drop := rfl
@[simp] theorem startLong_ctl : (startLong job s).ctl = s.ctl := rfl
@[simp] theorem startLong_n : (startLong job s).n = s.n := rfl
@[simp] theorem startLong_l : (startLong job s).l = s.l := rfl
@[simp] theorem startLong_fwd : (startLong job s).fwd = s.fwd := rfl
@[simp] theorem startLong_win : (startLong job s).win = s.win := rfl
@[simp] theorem startLong_mem : (startLong job s).mem = s.mem := rfl
@[simp] theorem startLong_rev : (startLong job s).rev = s.rev := rfl
@[simp] theorem startLong_scr : (startLong job s).scr = s.scr := rfl
@[simp] theorem startLong_seq : (startLong job s).seq = some job := rfl
@[simp] theorem startLong_resetPin : (startLong job s).resetPin = s.resetPin := rfl
@[simp] theorem startLong_host : (startLong job s).host = s.host := rfl
@[simp] theorem startLong_resp : (startLong job s).resp = s.resp := rfl
@[simp] theorem startLong_faults : (startLong job s).faults = s.faults := rfl
@[simp] theorem startLong_draws : (startLong job s).draws = s.draws := rfl
end

/-! ### `goto` -/

section
variable (r : Representation) (cfg : Latched) (hz : Bool) (ph : Phase) (s : State)
@[simp] theorem goto_params : (goto r cfg hz ph s).params = s.params := rfl
@[simp] theorem goto_arg : (goto r cfg hz ph s).arg = s.arg := rfl
@[simp] theorem goto_err : (goto r cfg hz ph s).err = s.err := rfl
@[simp] theorem goto_ovf : (goto r cfg hz ph s).ovf = s.ovf := rfl
@[simp] theorem goto_drop : (goto r cfg hz ph s).drop = s.drop := rfl
@[simp] theorem goto_ctl : (goto r cfg hz ph s).ctl = s.ctl := rfl
@[simp] theorem goto_n : (goto r cfg hz ph s).n = s.n := rfl
@[simp] theorem goto_l : (goto r cfg hz ph s).l = s.l := rfl
@[simp] theorem goto_fwd : (goto r cfg hz ph s).fwd = s.fwd := rfl
@[simp] theorem goto_win : (goto r cfg hz ph s).win = s.win := rfl
@[simp] theorem goto_mem : (goto r cfg hz ph s).mem = s.mem := rfl
@[simp] theorem goto_rev : (goto r cfg hz ph s).rev = s.rev := rfl
@[simp] theorem goto_scr : (goto r cfg hz ph s).scr = s.scr := rfl
@[simp] theorem goto_seq : (goto r cfg hz ph s).seq = some (.exec r cfg ph hz) := rfl
@[simp] theorem goto_resetPin : (goto r cfg hz ph s).resetPin = s.resetPin := rfl
@[simp] theorem goto_host : (goto r cfg hz ph s).host = s.host := rfl
@[simp] theorem goto_resp : (goto r cfg hz ph s).resp = s.resp := rfl
@[simp] theorem goto_faults : (goto r cfg hz ph s).faults = s.faults := rfl
@[simp] theorem goto_draws : (goto r cfg hz ph s).draws = s.draws := rfl
end

/-! ### `finishInit` -/

section
variable (size : Nat) (d : Bool) (s : State)
@[simp] theorem finishInit_params : (finishInit size d s).params = s.params := rfl
@[simp] theorem finishInit_arg : (finishInit size d s).arg = s.arg := rfl
@[simp] theorem finishInit_err : (finishInit size d s).err = s.err := rfl
@[simp] theorem finishInit_ovf : (finishInit size d s).ovf = s.ovf := rfl
@[simp] theorem finishInit_drop : (finishInit size d s).drop = s.drop := rfl
@[simp] theorem finishInit_ctl : (finishInit size d s).ctl = .ready := rfl
@[simp] theorem finishInit_n : (finishInit size d s).n = size := rfl
@[simp] theorem finishInit_l : (finishInit size d s).l = Nat.log2 size := rfl
@[simp] theorem finishInit_fwd : (finishInit size d s).fwd = d := rfl
@[simp] theorem finishInit_win : (finishInit size d s).win = s.win := rfl
@[simp] theorem finishInit_mem : (finishInit size d s).mem = s.mem := rfl
@[simp] theorem finishInit_rev : (finishInit size d s).rev = s.rev := rfl
@[simp] theorem finishInit_scr : (finishInit size d s).scr = s.scr := rfl
@[simp] theorem finishInit_seq : (finishInit size d s).seq = none := rfl
@[simp] theorem finishInit_resetPin : (finishInit size d s).resetPin = s.resetPin := rfl
@[simp] theorem finishInit_host : (finishInit size d s).host = s.host := rfl
@[simp] theorem finishInit_resp : (finishInit size d s).resp = s.resp := rfl
@[simp] theorem finishInit_faults : (finishInit size d s).faults = s.faults := rfl
@[simp] theorem finishInit_draws : (finishInit size d s).draws = s.draws := rfl
end

/-! ### `respond` -/

section
variable (v : Word64) (s : State)
@[simp] theorem respond_params : (respond v s).params = s.params := rfl
@[simp] theorem respond_arg : (respond v s).arg = s.arg := rfl
@[simp] theorem respond_err : (respond v s).err = s.err := rfl
@[simp] theorem respond_ovf : (respond v s).ovf = s.ovf := rfl
@[simp] theorem respond_drop : (respond v s).drop = s.drop := rfl
@[simp] theorem respond_ctl : (respond v s).ctl = s.ctl := rfl
@[simp] theorem respond_n : (respond v s).n = s.n := rfl
@[simp] theorem respond_l : (respond v s).l = s.l := rfl
@[simp] theorem respond_fwd : (respond v s).fwd = s.fwd := rfl
@[simp] theorem respond_win : (respond v s).win = s.win := rfl
@[simp] theorem respond_mem : (respond v s).mem = s.mem := rfl
@[simp] theorem respond_rev : (respond v s).rev = s.rev := rfl
@[simp] theorem respond_scr : (respond v s).scr = s.scr := rfl
@[simp] theorem respond_seq : (respond v s).seq = s.seq := rfl
@[simp] theorem respond_resetPin : (respond v s).resetPin = s.resetPin := rfl
@[simp] theorem respond_host : (respond v s).host = s.host := rfl
@[simp] theorem respond_resp : (respond v s).resp = { data := v, error := false } :: s.resp := rfl
@[simp] theorem respond_faults : (respond v s).faults = s.faults := rfl
@[simp] theorem respond_draws : (respond v s).draws = s.draws := rfl
end

/-! ### `busError` -/

section
variable (s : State)
@[simp] theorem busError_params : (busError s).params = s.params := rfl
@[simp] theorem busError_arg : (busError s).arg = s.arg := rfl
@[simp] theorem busError_err : (busError s).err = s.err := rfl
@[simp] theorem busError_ovf : (busError s).ovf = s.ovf := rfl
@[simp] theorem busError_drop : (busError s).drop = s.drop := rfl
@[simp] theorem busError_ctl : (busError s).ctl = s.ctl := rfl
@[simp] theorem busError_n : (busError s).n = s.n := rfl
@[simp] theorem busError_l : (busError s).l = s.l := rfl
@[simp] theorem busError_fwd : (busError s).fwd = s.fwd := rfl
@[simp] theorem busError_win : (busError s).win = s.win := rfl
@[simp] theorem busError_mem : (busError s).mem = s.mem := rfl
@[simp] theorem busError_rev : (busError s).rev = s.rev := rfl
@[simp] theorem busError_scr : (busError s).scr = s.scr := rfl
@[simp] theorem busError_seq : (busError s).seq = s.seq := rfl
@[simp] theorem busError_resetPin : (busError s).resetPin = s.resetPin := rfl
@[simp] theorem busError_host : (busError s).host = s.host := rfl
@[simp] theorem busError_resp : (busError s).resp = { data := 0#64, error := true } :: s.resp := rfl
@[simp] theorem busError_faults : (busError s).faults = .busProtocol :: s.faults := rfl
@[simp] theorem busError_draws : (busError s).draws = s.draws := rfl
end

/-! ### `State.drawn` -/

section
variable (s : State)
@[simp] theorem drawn_params : s.drawn.params = s.params := rfl
@[simp] theorem drawn_arg : s.drawn.arg = s.arg := rfl
@[simp] theorem drawn_err : s.drawn.err = s.err := rfl
@[simp] theorem drawn_ovf : s.drawn.ovf = s.ovf := rfl
@[simp] theorem drawn_drop : s.drawn.drop = s.drop := rfl
@[simp] theorem drawn_ctl : s.drawn.ctl = s.ctl := rfl
@[simp] theorem drawn_n : s.drawn.n = s.n := rfl
@[simp] theorem drawn_l : s.drawn.l = s.l := rfl
@[simp] theorem drawn_fwd : s.drawn.fwd = s.fwd := rfl
@[simp] theorem drawn_win : s.drawn.win = s.win := rfl
@[simp] theorem drawn_mem : s.drawn.mem = s.mem := rfl
@[simp] theorem drawn_rev : s.drawn.rev = s.rev := rfl
@[simp] theorem drawn_scr : s.drawn.scr = s.scr := rfl
@[simp] theorem drawn_seq : s.drawn.seq = s.seq := rfl
@[simp] theorem drawn_resetPin : s.drawn.resetPin = s.resetPin := rfl
@[simp] theorem drawn_host : s.drawn.host = s.host := rfl
@[simp] theorem drawn_resp : s.drawn.resp = s.resp := rfl
@[simp] theorem drawn_faults : s.drawn.faults = s.faults := rfl
@[simp] theorem drawn_draws : s.drawn.draws = s.draws + 1 := rfl
end

/-! ### `releaseReset` -/

section
variable (s : State)
@[simp] theorem releaseReset_params : (releaseReset s).params = s.params := rfl
@[simp] theorem releaseReset_arg : (releaseReset s).arg = 0#32 := rfl
@[simp] theorem releaseReset_err : (releaseReset s).err = .ok := rfl
@[simp] theorem releaseReset_ovf : (releaseReset s).ovf = false := rfl
@[simp] theorem releaseReset_drop : (releaseReset s).drop = false := rfl
@[simp] theorem releaseReset_ctl : (releaseReset s).ctl = .uninit := rfl
@[simp] theorem releaseReset_n : (releaseReset s).n = 0 := rfl
@[simp] theorem releaseReset_l : (releaseReset s).l = 0 := rfl
@[simp] theorem releaseReset_fwd : (releaseReset s).fwd = false := rfl
@[simp] theorem releaseReset_win : (releaseReset s).win = 0#2 := rfl
@[simp] theorem releaseReset_mem : (releaseReset s).mem = s.mem.redraw := rfl
@[simp] theorem releaseReset_rev : (releaseReset s).rev = s.rev.redraw := rfl
@[simp] theorem releaseReset_scr : (releaseReset s).scr = s.scr.redraw := rfl
@[simp] theorem releaseReset_seq : (releaseReset s).seq = none := rfl
@[simp] theorem releaseReset_resetPin : (releaseReset s).resetPin = false := rfl
@[simp] theorem releaseReset_host : (releaseReset s).host = s.host := rfl
@[simp] theorem releaseReset_resp : (releaseReset s).resp = s.resp := rfl
@[simp] theorem releaseReset_faults : (releaseReset s).faults = s.faults := rfl
@[simp] theorem releaseReset_draws : (releaseReset s).draws = s.draws := rfl
end

/-! ### Views -/

section
variable (s : State)
@[simp] theorem busy_startLong (job : Job) : (startLong job s).busy = true := rfl
@[simp] theorem busy_goto (r : Representation) (cfg : Latched) (hz : Bool) (ph : Phase) :
    (goto r cfg hz ph s).busy = true := rfl
@[simp] theorem busy_finishInit (size : Nat) (d : Bool) : (finishInit size d s).busy = false := rfl
@[simp] theorem ready_finishInit (size : Nat) (d : Bool) : (finishInit size d s).ready = true := rfl
theorem busy_eq_false_iff : s.busy = false ↔ s.seq = none := by simp [State.busy]
theorem busy_eq_true_iff : s.busy = true ↔ ∃ job, s.seq = some job := by
  simp [State.busy, Option.isSome_iff_exists]
theorem ready_eq_true_iff : s.ready = true ↔ s.ctl = .ready := by simp [State.ready]
end

end Sys2Proof.Machine
end

