-- ==== Sys2Proof/Laws/Step.lean ====
section
/-! SUPPORT. What a command, a host access and a step can do, said once: the inversion lemmas that the
proofs about the whole machine cite instead of unfolding `exec`, `hostOp` and `step`. -/

namespace Sys2Proof.Machine

/-! ### Commands -/

/-- With the engine idle a command clears DROP and runs its own rule. -/
theorem command_idle (body : State → State) {s : State} (h : s.seq = none) :
    command body s = .next (body { s with drop := false }) := by
  simp [command, State.busy, h]

/-- While a long command runs a command is dropped. -/
theorem command_busy (body : State → State) {s : State} {job : Job} (h : s.seq = some job) :
    command body s = .next { s with drop := true } := by
  simp [command, State.busy, h]

theorem execOf_ne_setwin (r : Representation) : execOf r ≠ .setwin := by cases r <;> decide

theorem exec_initOf (fwd : Bool) (s : State) : exec (initOf fwd) s = command (initCommand fwd) s := by
  cases fwd <;> rfl

theorem exec_execOf (r : Representation) (s : State) : exec (execOf r) s = command (execCommand r) s := by
  cases r <;> rfl

/-- Every command is NOP, an INIT, SETWIN or an EXEC. -/
theorem instr_cases (i : Instr) :
    i = .nop ∨ (∃ fwd, i = initOf fwd) ∨ i = .setwin ∨ ∃ r, i = execOf r := by
  cases i
  · exact .inl rfl
  · exact .inr (.inl ⟨false, rfl⟩)
  · exact .inr (.inl ⟨true, rfl⟩)
  · exact .inr (.inr (.inl rfl))
  · exact .inr (.inr (.inr ⟨.D, rfl⟩))
  · exact .inr (.inr (.inr ⟨.S, rfl⟩))
  · exact .inr (.inr (.inr ⟨.Q, rfl⟩))

/-- The checks of an EXEC pass exactly when `execReady` holds. -/
theorem execCheck_eq_none_iff (s : State) : execCheck s = none ↔ execReady s := by
  unfold execCheck execReady
  cases s.ctl <;> simp
  split_ifs <;> simp_all

/-- WINDOW_AT_APPLY is reported only with WIN = 3. -/
theorem execCheck_windowAtApply {s : State} (h : execCheck s = some .windowAtApply) : s.win = 3#2 := by
  unfold execCheck at h
  split_ifs at h <;> first | assumption | cases h

theorem extract_window (a : Word32) :
    a.extractLsb' 0 2 = BitVec.ofNat 2 a.toNat := by
  apply BitVec.eq_of_toNat_eq; simp

/-- What a command with the engine idle can do: report a code, set WIN, start an INIT, start an EXEC. -/
def CommandEffect (i : Instr) (s t : State) : Prop :=
  (∃ e, (e = .windowAtApply → s.win = 3#2) ∧ t = { s with drop := false, err := e }) ∨
  (i = .setwin ∧ s.arg.toNat ≤ 2 ∧
    t = { s with drop := false, err := .ok, win := BitVec.ofNat 2 s.arg.toNat }) ∨
  (∃ fwd, i = initOf fwd ∧ validSize s.params s.arg.toNat = true ∧
    t = { s with drop := false, err := .ok, seq := some (.init s.arg.toNat fwd .start) }) ∨
  (∃ r, i = execOf r ∧ execReady s ∧
    t = { s with drop := false, err := .ok, ovf := false,
                 seq := some (.exec r (latch s) (.window 0) false) })

/-- Every command is `command` of a body. -/
theorem exec_eq_command (i : Instr) : ∃ body, ∀ s, exec i s = command body s := by
  cases i <;> exact ⟨_, fun _ => rfl⟩

/-- The inversion of `exec`. -/
theorem exec_inv {i : Instr} {s t : State} (h : exec i s = .next t) :
    (s.busy = true ∧ t = { s with drop := true }) ∨ (s.seq = none ∧ CommandEffect i s t) := by
  by_cases hbusy : s.busy = true
  · obtain ⟨job, hq⟩ := (busy_eq_true_iff s).mp hbusy
    obtain ⟨body, hb⟩ := exec_eq_command i
    rw [hb, command_busy body hq, Host.Outcome.next.injEq] at h
    exact .inl ⟨hbusy, h.symm⟩
  · have hq := (busy_eq_false_iff s).mp (by simpa using hbusy)
    refine .inr ⟨hq, ?_⟩
    rcases instr_cases i with rfl | ⟨fwd, rfl⟩ | rfl | ⟨r, rfl⟩
    · simp only [exec, execNop, command_idle _ hq, Host.Outcome.next.injEq] at h
      exact .inl ⟨.ok, by simp, h.symm⟩
    · rw [exec_initOf, command_idle _ hq, Host.Outcome.next.injEq] at h
      unfold initCommand at h
      split_ifs at h with hv
      · exact .inr (.inr (.inl ⟨fwd, rfl, hv, h.symm⟩))
      · exact .inl ⟨.config, by simp, h.symm⟩
    · simp only [exec, execSetwin, command_idle _ hq, Host.Outcome.next.injEq] at h
      unfold setwinCommand validWindow at h
      split_ifs at h with hv
      · have hv : s.arg.toNat ≤ 2 := by simpa using hv
        refine .inr (.inl ⟨rfl, hv, ?_⟩)
        rw [← h, ← extract_window]; rfl
      · exact .inl ⟨.windowId, by simp, h.symm⟩
    · rw [exec_execOf, command_idle _ hq, Host.Outcome.next.injEq] at h
      unfold execCommand at h
      split at h
      · next e he => exact .inl ⟨e, fun h' => execCheck_windowAtApply (h' ▸ he), h.symm⟩
      · next he => exact .inr (.inr (.inr ⟨r, rfl, (execCheck_eq_none_iff _).mp he, h.symm⟩))

/-- Every command answers a next state. -/
theorem exec_next (i : Instr) (s : State) : ∃ t, exec i s = .next t := by
  obtain ⟨body, hb⟩ := exec_eq_command i
  rw [hb, command]
  split_ifs <;> exact ⟨_, rfl⟩

/-! ### Host accesses -/

/-- What a command write can do: the decoded command, or ILLEGAL_CMD. -/
theorem issueCommand_inv {w : Word32} {s t : State} (h : issueCommand w s = .next t) :
    (∃ i, decodeWord w = .ok i ∧ exec i s = .next t) ∨
    (s.busy = true ∧ t = { s with drop := true }) ∨
    (s.seq = none ∧ t = { s with drop := false, err := .illegalCmd }) := by
  unfold issueCommand at h
  split at h
  · next i hi => exact .inl ⟨i, hi, h⟩
  · unfold illegalCommand command at h
    split_ifs at h with hb
    · exact .inr (.inl ⟨hb, by simpa [eq_comm] using h⟩)
    · exact .inr (.inr ⟨(busy_eq_false_iff s).mp (by simpa using hb), by simpa [report, eq_comm] using h⟩)

/-- The same with the command's effect said: a drop, a code reported, or a command's effect. -/
theorem issueCommand_effect {w : Word32} {s t : State} (h : issueCommand w s = .next t) :
    (s.busy = true ∧ t = { s with drop := true }) ∨
    (s.seq = none ∧ t = { s with drop := false, err := .illegalCmd }) ∨
    (s.seq = none ∧ ∃ i, decodeWord w = .ok i ∧ CommandEffect i s t) := by
  rcases issueCommand_inv h with ⟨i, hi, hx⟩ | h | h
  · exact (exec_inv hx).imp id fun hx => .inr ⟨hx.1, i, hi, hx.2⟩
  · exact .inl h
  · exact .inr (.inl h)

theorem accessOk_iff (addr : Offset) (n : Nat) :
    accessOk addr n = true ↔
      (n = 4 ∧ addr.toNat % 4 = 0) ∨ (n = 8 ∧ addr.toNat % 8 = 0 ∧ sampleBase ≤ addr.toNat) := by
  simp [accessOk, and_assoc]

/-- An access the bus takes below the sample window has 4 bytes. -/
theorem accessOk_low {addr : Offset} {n : Nat} (h : accessOk addr n = true)
    (ha : addr.toNat < sampleBase) : n = 4 ∧ addr.toNat % 4 = 0 := by
  rcases (accessOk_iff addr n).mp h with h | h
  · exact h
  · omega

theorem registerAt_cmd {a : Nat} (h : registerAt a = .cmd) : a = 0x08 := by
  unfold registerAt at h; split at h <;> simp_all

theorem registerAt_arg {a : Nat} (h : registerAt a = .arg) : a = 0x0C := by
  unfold registerAt at h; split at h <;> simp_all

theorem registerAt_ne_sample (a j : Nat) : registerAt a ≠ .sample j := by
  unfold registerAt; split <;> simp

/-- The region of an access the bus takes is CMD only for a 4-byte access at the offset of CMD. -/
theorem regionOf_cmd {p : Params} {addr : Offset} {n : Nat} (hok : accessOk addr n = true)
    (h : regionOf p addr = .cmd) : addr = offCmd ∧ n = 4 := by
  unfold regionOf at h
  simp only at h
  split_ifs at h with h1
  obtain ⟨hn, hm⟩ := accessOk_low hok (by simp only [sampleBase]; omega)
  have := registerAt_cmd h
  refine ⟨BitVec.eq_of_toNat_eq ?_, hn⟩
  show addr.toNat = 8
  omega

/-- The same for ARG. -/
theorem regionOf_arg {p : Params} {addr : Offset} {n : Nat} (hok : accessOk addr n = true)
    (h : regionOf p addr = .arg) : addr = offArg ∧ n = 4 := by
  unfold regionOf at h
  simp only at h
  split_ifs at h with h1
  obtain ⟨hn, hm⟩ := accessOk_low hok (by simp only [sampleBase]; omega)
  have := registerAt_arg h
  refine ⟨BitVec.eq_of_toNat_eq ?_, hn⟩
  show addr.toNat = 12
  omega

/-- The region of an offset is a slot only inside the sample window. -/
theorem regionOf_sample {p : Params} {addr : Offset} {j : Nat} (h : regionOf p addr = .sample j) :
    sampleBase ≤ addr.toNat ∧ addr.toNat < sampleBase + 16 * p.nmax ∧
      j = (addr.toNat - sampleBase) / 16 := by
  unfold regionOf at h
  simp only at h
  split_ifs at h with h1 h2 h3
  · exact absurd h (registerAt_ne_sample _ _)
  · exact ⟨h3.1, h3.2, (Region.sample.inj h).symm⟩

/-- And every offset inside it is one: the windows below end before it when NMAX is in range. -/
theorem regionOf_eq_sample {p : Params} {addr : Offset} (hp : p.wf = true) (lo : sampleBase ≤ addr.toNat)
    (hi : addr.toNat < sampleBase + 16 * p.nmax) :
    regionOf p addr = .sample ((addr.toNat - sampleBase) / 16) := by
  have hn : p.nmax ≤ 65536 := by
    simp only [Params.wf, Bool.and_eq_true, decide_eq_true_eq] at hp
    exact Nat.pow_le_pow_right (n := 2) (by norm_num) hp.1.1.2
  have hs : sampleBase = 0x100000 := rfl
  have hr : revBase = 0x40000 := rfl
  unfold regionOf
  dsimp only
  rw [if_neg (by omega), if_neg (by omega), if_pos ⟨lo, hi⟩]

/-- A slot is in use exactly when a running EXEC has borrowed it. -/
theorem slotInUse_iff (s : State) (slot : Nat) :
    slotInUse s slot = true ↔ ∃ r cfg ph hz, s.seq = some (.exec r cfg ph hz) ∧ slot < cfg.n := by
  unfold slotInUse
  split
  · next r cfg ph hz h => simp [h]
  · next h => exact ⟨fun h' => (Bool.false_ne_true h').elim, fun ⟨r, cfg, ph, hz, h', _⟩ => (h r cfg ph hz h').elim⟩

/-- A write to CMD issues the low 32 bits of its value (30_encoding.md R80, R86). -/
theorem memWrite_cmd (v : Word64) (s : State) :
    memWrite offCmd 4 v s = issueCommand (v.setWidth 32) (respond 0#64 s) := by
  have h : regionOf s.params offCmd = .cmd := rfl
  unfold memWrite
  rw [if_pos (by decide), h]

/-- With the engine idle a read of the sample window gives the bytes there. -/
theorem memRead_sample {addr : Offset} {n : Nat} {s : State} (hp : s.params.wf = true) (hq : s.seq = none)
    (ok : accessOk addr n = true) (lo : sampleBase ≤ addr.toNat)
    (hi : addr.toNat < sampleBase + 16 * s.params.nmax) :
    memRead addr n s = respond (BitVec.ofNat 64 (readLE s.mem addr.toNat n)) s := by
  unfold memRead
  rw [if_pos ok, regionOf_eq_sample hp lo hi]
  simp [slotInUse, hq]

/-- With the engine idle a write to the sample window stores its bytes. -/
theorem memWrite_sample {addr : Offset} {n : Nat} (v : Word64) {s : State} (hp : s.params.wf = true)
    (hq : s.seq = none) (ok : accessOk addr n = true) (lo : sampleBase ≤ addr.toNat)
    (hi : addr.toNat < sampleBase + 16 * s.params.nmax) :
    memWrite addr n v s = .next (respond 0#64 { s with mem := writeLE s.mem addr.toNat n v.toNat }) := by
  unfold memWrite sampleWrite
  rw [if_pos ok, regionOf_eq_sample hp lo hi]
  simp [slotInUse, hq]

/-- A read leaves an answer, and else only the model's own records. -/
theorem memRead_inv (addr : Offset) (n : Nat) (s : State) :
    ∃ r fs d, memRead addr n s = { s with resp := r :: s.resp, faults := fs, draws := d } := by
  unfold memRead
  split_ifs
  · split
    · exact ⟨_, _, _, rfl⟩
    · exact ⟨_, _, _, rfl⟩
    · exact ⟨_, _, _, rfl⟩
    · exact ⟨_, _, _, rfl⟩
    · exact ⟨_, _, _, rfl⟩
    · exact ⟨_, _, _, rfl⟩
    · exact ⟨_, _, _, rfl⟩
    · unfold revRead; split_ifs <;> exact ⟨_, _, _, rfl⟩
    · split_ifs <;> exact ⟨_, _, _, rfl⟩
    · exact ⟨_, _, _, rfl⟩
  · exact ⟨_, _, _, rfl⟩

/-! ### The host window -/

@[simp] theorem offsetOf_address (p : Params) (off : Offset) : p.offsetOf (p.address off) = some off := by
  have := off.isLt
  unfold Params.offsetOf Params.address Config.windowBytes
  rw [if_pos ⟨by omega, by omega⟩, Nat.add_sub_cancel_left, BitVec.ofNat_toNat, BitVec.setWidth_eq]

/-- The platform addresses that name a block offset. -/
theorem offsetOf_eq_some_iff {p : Params} {a : Nat} {off : Offset} :
    p.offsetOf a = some off ↔ a = p.address off := by
  refine ⟨fun h => ?_, fun h => h ▸ offsetOf_address p off⟩
  unfold Params.offsetOf Config.windowBytes at h
  split_ifs at h with hw
  rw [← Option.some.inj h, Params.address, BitVec.toNat_ofNat, Nat.mod_eq_of_lt (by omega)]
  omega

/-- The platform addresses that name none. -/
theorem offsetOf_outside {p : Params} {a : Nat} (h : a < p.blockBase ∨ p.blockBase + 0x200000 ≤ a) :
    p.offsetOf a = none := by
  unfold Params.offsetOf Config.windowBytes
  rw [if_neg (by omega)]

/-- The host's turn at a read in the window. -/
@[simp] theorem hostOp_read (off : Offset) (n : Nat) (s : State) :
    hostOp (.read (s.params.address off) n) s = .next (memRead off n s) := by
  simp only [hostOp, offsetOf_address]

/-- The host's turn at a write in the window. -/
@[simp] theorem hostOp_write (off : Offset) (n : Nat) (v : Word64) (s : State) :
    hostOp (.write (s.params.address off) n v) s = memWrite off n v s := by
  simp only [hostOp, offsetOf_address]

/-! ### The host's turn -/

/-- What one entry of the host's list can do. -/
inductive HostEffect (op : HostOp) (s t : State) : Prop where
  /-- An access outside the host window. -/
  | outside (eq : t = s)
  /-- A read, a poll, an ignored write or a bus error. -/
  | observe (r : Response) (fs : List Fault) (d : Nat)
      (eq : t = { s with resp := r :: s.resp, faults := fs, draws := d })
  /-- An edge of the reset input. -/
  | pin (b : Bool) (eq : t = { s with resetPin := b })
      (op_eq : (op = .assertReset ∧ b = true) ∨ (op = .releaseReset ∧ b = s.resetPin))
  /-- A command write. -/
  | command (v : Word64) (op_eq : op = .write (s.params.address offCmd) 4 v)
      (eq : issueCommand (v.setWidth 32) (respond 0#64 s) = .next t)
  /-- A write of ARG. -/
  | arg (v : Word64) (op_eq : op = .write (s.params.address offArg) 4 v)
      (eq : t = respond 0#64 { s with arg := v.setWidth 32 })
  /-- A write to the sample window. -/
  | sample (addr : Offset) (n : Nat) (v : Word64) (op_eq : op = .write (s.params.address addr) n v)
      (ok : accessOk addr n = true) (low : sampleBase ≤ addr.toNat)
      (high : addr.toNat < sampleBase + 16 * s.params.nmax)
      (eq : t = respond 0#64 (sampleWrite addr n v ((addr.toNat - sampleBase) / 16) s))

/-- The inversion of a host access. -/
theorem hostOp_inv {op : HostOp} {s t : State} (h : hostOp op s = .next t) : HostEffect op s t := by
  cases op with
  | read addr n =>
    cases ha : s.params.offsetOf addr with
    | none => exact .outside (by simpa [hostOp, ha, eq_comm] using h)
    | some off =>
      obtain ⟨r, fs, d, hr⟩ := memRead_inv off n s
      exact .observe r fs d (by simpa [hostOp, ha, hr, eq_comm] using h)
  | poll => exact .observe _ _ _ (by simpa [hostOp, respond, eq_comm] using h)
  | assertReset => exact .pin true (Host.Outcome.next.inj h).symm (.inl ⟨rfl, rfl⟩)
  | releaseReset => exact .pin s.resetPin (Host.Outcome.next.inj h).symm (.inr ⟨rfl, rfl⟩)
  | write addr n v =>
    cases ha : s.params.offsetOf addr with
    | none => exact .outside (by simpa [hostOp, ha, eq_comm] using h)
    | some off =>
      obtain rfl := offsetOf_eq_some_iff.mp ha
      rw [hostOp_write, memWrite] at h
      split_ifs at h with hok
      · cases hreg : regionOf s.params off <;> simp only [hreg] at h
        case cmd =>
          obtain ⟨rfl, rfl⟩ := regionOf_cmd hok hreg
          exact .command v rfl h
        case arg =>
          obtain ⟨rfl, rfl⟩ := regionOf_arg hok hreg
          exact .arg v rfl (by simpa [eq_comm] using h)
        case sample j =>
          obtain ⟨h1, h2, rfl⟩ := regionOf_sample hreg
          exact .sample off n v rfl hok h1 h2 (by simpa [eq_comm] using h)
        all_goals exact .observe _ _ _ (by simpa [respond, eq_comm] using h)
      · exact .observe _ _ _ (by simpa [busError, eq_comm] using h)

/-- A write always answers a next state. -/
theorem memWrite_next (off : Offset) (n : Nat) (v : Word64) (s : State) :
    ∃ t, memWrite off n v s = .next t := by
  unfold memWrite
  split_ifs
  · split
    · unfold issueCommand
      split
      · exact exec_next _ _
      · unfold illegalCommand command; split_ifs <;> exact ⟨_, rfl⟩
    · exact ⟨_, rfl⟩
    · exact ⟨_, rfl⟩
    · exact ⟨_, rfl⟩
  · exact ⟨_, rfl⟩

/-- The host's turn always answers a next state. -/
theorem hostOp_next (op : HostOp) (s : State) : ∃ t, hostOp op s = .next t := by
  cases op with
  | read addr n => simp only [hostOp]; split <;> exact ⟨_, rfl⟩
  | poll => exact ⟨_, rfl⟩
  | assertReset => exact ⟨_, rfl⟩
  | releaseReset => exact ⟨_, rfl⟩
  | write addr n v =>
    simp only [hostOp]
    split
    · exact memWrite_next _ n v s
    · exact ⟨_, rfl⟩

/-! ### Steps -/

/-- What a step can do. -/
inductive StepEffect (s t : State) : Prop where
  /-- Nothing moves. -/
  | idle (eq : t = s) (host_eq : s.host = [])
  /-- With reset asserted, it is asserted again or the host makes an access outside the window. -/
  | held (op : HostOp) (ops : List HostOp) (pin : s.resetPin = true) (host_eq : s.host = op :: ops)
      (eq : t = { s with host := ops })
  /-- Reset is released. -/
  | release (ops : List HostOp) (pin : s.resetPin = true) (host_eq : s.host = .releaseReset :: ops)
      (eq : t = releaseReset { s with host := ops })
  /-- The engine moves. -/
  | engine (job : Job) (d : Nat) (pin : s.resetPin = false) (seq_eq : s.seq = some job)
      (eq : t = engineTurn job { s with draws := d }) (le : s.draws ≤ d)
  /-- The host moves. -/
  | host (op : HostOp) (ops : List HostOp) (d : Nat) (pin : s.resetPin = false)
      (host_eq : s.host = op :: ops) (eff : HostEffect op { s with host := ops, draws := d } t)
      (le : s.draws ≤ d)

/-- While reset is asserted an access the machine survives is one outside the window. -/
theorem resetAccess_inv {addr : Nat} {ops : List HostOp} {s t : State} (h : resetAccess addr ops s = .next t) :
    t = { s with host := ops } := by
  unfold resetAccess at h
  split at h
  · cases h
  · exact (Host.Outcome.next.inj h).symm

/-- The inversion of `step`. -/
theorem step_inv {s t : State} (h : step s = .next t) : StepEffect s t := by
  unfold step turn at h
  cases hp : s.resetPin with
  | true =>
    rw [if_pos hp, resetTurn] at h
    split at h
    · next hh => exact .idle (Host.Outcome.next.inj h).symm hh
    · next ops hh => exact .release ops hp hh (Host.Outcome.next.inj h).symm
    · next ops hh => exact .held _ ops hp hh (Host.Outcome.next.inj h).symm
    · next ops hh => exact .held _ ops hp hh (resetAccess_inv h)
    · next ops hh => exact .held _ ops hp hh (resetAccess_inv h)
    · cases h
  | false =>
    rw [if_neg (by simp [hp])] at h
    split at h
    · next _ hh => exact .idle (Host.Outcome.next.inj h).symm hh
    · next op ops hq hh => exact .host op ops s.draws hp hh (hostOp_inv h) le_rfl
    · next job hq hh => exact .engine job s.draws hp hq (Host.Outcome.next.inj h).symm le_rfl
    · next job ops hq hh => exact .engine job s.draws hp hq (Host.Outcome.next.inj h).symm le_rfl
    · next job op ops _ hq hh =>
      split_ifs at h
      · exact .host op ops (s.draws + 1) hp hh (hostOp_inv h) (Nat.le_succ _)
      · exact .engine job (s.draws + 1) hp hq (Host.Outcome.next.inj h).symm (Nat.le_succ _)

end Sys2Proof.Machine
end

