-- ==== Sys2Proof/Laws/Store.lean ====
section
/-! SUPPORT. The laws of the canonical stores and of the sample RAM built on them: what a lookup sees
after an insertion, that every memory operation keeps the canonical form, and what a read of bytes or
of a slot sees after a write. -/

namespace Sys2Proof.Machine

/-! ### Stores -/

@[simp] theorem lookup_nil {α : Type} (k : Nat) : lookup k ([] : List (Nat × α)) = none := rfl

theorem rising_tail {α : Type} {c : Nat × α} {t : List (Nat × α)} (h : rising (c :: t) = true) :
    rising t = true := by
  cases t with
  | nil => rfl
  | cons d t => obtain ⟨a, v⟩ := c; obtain ⟨b, w⟩ := d; simp [rising] at h; exact h.2

theorem rising_head_lt {α : Type} {a : Nat} {v : α} {t : List (Nat × α)}
    (h : rising ((a, v) :: t) = true) : ∀ c ∈ t, a < c.1 := by
  induction t generalizing a v with
  | nil => simp
  | cons d t ih =>
    obtain ⟨b, w⟩ := d
    simp [rising] at h
    intro c hc
    rcases List.mem_cons.mp hc with rfl | hc
    · exact h.1
    · exact h.1.trans (ih h.2 c hc)

theorem rising_cons {α : Type} {a : Nat} {v : α} {t : List (Nat × α)}
    (ha : ∀ c ∈ t, a < c.1) (ht : rising t = true) : rising ((a, v) :: t) = true := by
  cases t with
  | nil => rfl
  | cons d t => obtain ⟨b, w⟩ := d; simp [rising, ht]; exact ha (b, w) (by simp)

/-- The entries after an insertion are the new one and entries that were there. -/
theorem mem_insert {α : Type} {k : Nat} {v : α} {m : List (Nat × α)} {c : Nat × α}
    (h : c ∈ insert k v m) : c = (k, v) ∨ c ∈ m := by
  induction m with
  | nil => simpa [insert] using h
  | cons d t ih =>
    obtain ⟨a, w⟩ := d
    simp only [insert] at h
    split_ifs at h
    · simpa using h
    · rcases List.mem_cons.mp h with h | h
      · exact .inl h
      · exact .inr (List.mem_cons_of_mem _ h)
    · rcases List.mem_cons.mp h with h | h
      · exact .inr (by simp [h])
      · exact (ih h).imp id (List.mem_cons_of_mem _)

/-- An insertion keeps the canonical form. -/
theorem rising_insert {α : Type} (k : Nat) (v : α) {m : List (Nat × α)} (h : rising m = true) :
    rising (insert k v m) = true := by
  induction m with
  | nil => rfl
  | cons d t ih =>
    obtain ⟨a, w⟩ := d
    have hlt := rising_head_lt h
    have ht := rising_tail h
    simp only [insert]
    split_ifs with h1 h2
    · simp [rising, h1]; exact h
    · subst h2; exact rising_cons hlt ht
    · refine rising_cons (fun c hc => ?_) (ih ht)
      rcases mem_insert hc with rfl | hc
      · show a < k; omega
      · exact hlt c hc

theorem lookup_eq_none_of_lt {α : Type} {k : Nat} {t : List (Nat × α)} (h : ∀ c ∈ t, k < c.1) :
    lookup k t = none := by
  induction t with
  | nil => rfl
  | cons d t ih =>
    obtain ⟨a, w⟩ := d
    have : k < a := h (a, w) (by simp)
    simp [lookup, show a ≠ k by omega, ih (fun c hc => h c (by simp [hc]))]

/-- A lookup of the key just inserted. -/
@[simp] theorem lookup_insert_same {α : Type} (k : Nat) (v : α) (m : List (Nat × α)) :
    lookup k (insert k v m) = some v := by
  induction m with
  | nil => simp [insert, lookup]
  | cons d t ih =>
    obtain ⟨a, w⟩ := d
    simp only [insert]
    split_ifs with h1 h2
    · simp [lookup]
    · simp [lookup]
    · simp [lookup, show a ≠ k by omega, ih]

/-- A lookup of any other key. -/
theorem lookup_insert_other {α : Type} {k j : Nat} (v : α) (m : List (Nat × α)) (h : j ≠ k) :
    lookup j (insert k v m) = lookup j m := by
  induction m with
  | nil => simp [insert, lookup, Ne.symm h]
  | cons d t ih =>
    obtain ⟨a, w⟩ := d
    simp only [insert]
    split_ifs with h1 h2
    · simp [lookup, Ne.symm h]
    · subst h2; simp [lookup, Ne.symm h]
    · simp [lookup, ih]

theorem lookup_insert {α : Type} (k j : Nat) (v : α) (m : List (Nat × α)) :
    lookup j (insert k v m) = if j = k then some v else lookup j m := by
  split_ifs with h
  · subst h; simp
  · exact lookup_insert_other v m h

/-! ### RAMs -/

section
variable {α : Type} (m : Ram α) (k : Nat) (v : α)
@[simp] theorem Ram.write_cells : (m.write k v).cells = insert k v m.cells := rfl
@[simp] theorem Ram.write_draw : (m.write k v).draw = m.draw := rfl
@[simp] theorem Ram.redraw_cells : m.redraw.cells = [] := rfl
@[simp] theorem Ram.redraw_draw : m.redraw.draw = m.draw + 1 := rfl
end

/-! ### Bytes -/

theorem readByte_write (k j : Nat) (v : Byte) (m : Ram Byte) :
    readByte (m.write k v) j = if j = k then v else readByte m j := by
  simp only [readByte, Ram.write_cells, Ram.write_draw, lookup_insert]; split_ifs <;> rfl

/-- After a reset a byte is the free value that reset drew for it. -/
@[simp] theorem readByte_redraw (m : Ram Byte) (j : Nat) :
    readByte m.redraw j = Config.unwrittenByte (m.draw + 1) j := rfl

/-- A write of bytes keeps the canonical form. -/
theorem rising_writeLE (a n v : Nat) {m : Ram Byte} (h : rising m.cells = true) :
    rising (writeLE m a n v).cells = true := by
  induction n generalizing a v m with
  | zero => exact h
  | succ n ih => exact ih _ _ (rising_insert _ _ h)

/-- The cells after a write of bytes are those written and cells that were there. -/
theorem mem_writeLE {a n v : Nat} {m : Ram Byte} {c : Host.Cell} (h : c ∈ (writeLE m a n v).cells) :
    (a ≤ c.1 ∧ c.1 < a + n) ∨ c ∈ m.cells := by
  induction n generalizing a v m with
  | zero => exact .inr h
  | succ n ih =>
    rcases ih h with h | h
    · exact .inl (by omega)
    · rcases mem_insert h with rfl | h
      · exact .inl (by simp)
      · exact .inr h

/-- The byte at any offset after a write of `n` bytes of `v`. -/
theorem readByte_writeLE (m : Ram Byte) (a n v j : Nat) :
    readByte (writeLE m a n v) j =
      if a ≤ j ∧ j < a + n then BitVec.ofNat 8 (v / 256 ^ (j - a)) else readByte m j := by
  induction n generalizing a v m with
  | zero => simp [writeLE, show ¬(a ≤ j ∧ j < a) by omega]
  | succ n ih =>
    simp only [writeLE, ih, readByte_write]
    rcases lt_trichotomy j a with h | h | h
    · rw [if_neg (by omega), if_neg (by omega), if_neg (by omega)]
    · subst h; simp
    · by_cases h2 : j < a + 1 + n
      · rw [if_pos ⟨by omega, h2⟩, if_pos ⟨by omega, by omega⟩, Nat.div_div_eq_div_mul]
        congr 2
        rw [show j - a = (j - (a + 1)) + 1 by omega, pow_succ, mul_comm]
      · rw [if_neg (by omega), if_neg (by omega), if_neg (by omega)]

theorem readLE_lt (m : Ram Byte) (a n : Nat) : readLE m a n < 256 ^ n := by
  induction n generalizing a with
  | zero => simp [readLE]
  | succ n ih =>
    have := (readByte m a).isLt
    have := ih (a + 1)
    simp only [readLE, pow_succ]
    omega

/-- A read of bytes depends on those bytes alone. -/
theorem readLE_congr {m m' : Ram Byte} {a n : Nat}
    (h : ∀ j, a ≤ j → j < a + n → readByte m j = readByte m' j) : readLE m a n = readLE m' a n := by
  induction n generalizing a with
  | zero => rfl
  | succ n ih =>
    simp only [readLE]
    rw [h a (by omega) (by omega), ih (fun j h1 h2 => h j (by omega) (by omega))]

/-- A read of the bytes just written gives what was written. -/
theorem readLE_writeLE_same (m : Ram Byte) (a n v : Nat) :
    readLE (writeLE m a n v) a n = v % 256 ^ n := by
  induction n generalizing a v m with
  | zero => simp [readLE, Nat.mod_one]
  | succ n ih =>
    simp only [readLE, writeLE]
    rw [ih, readByte_writeLE, if_neg (by omega), readByte_write, if_pos rfl, pow_succ,
      Nat.mul_comm (256 ^ n) 256, Nat.mod_mul]
    simp

/-- A read of bytes apart from those written sees what was there. -/
theorem readLE_writeLE_other (m : Ram Byte) {a n b k : Nat} (v : Nat)
    (h : b + k ≤ a ∨ a + n ≤ b) : readLE (writeLE m a n v) b k = readLE m b k :=
  readLE_congr fun j h1 h2 => by rw [readByte_writeLE, if_neg (by omega)]

/-! ### Slots -/

/-- A write of a slot keeps the canonical form. -/
theorem rising_writeSlot (j : Nat) (v : Sample) {m : Ram Byte} (h : rising m.cells = true) :
    rising (writeSlot m j v).cells = true := rising_writeLE _ _ _ (rising_writeLE _ _ _ h)

/-- The cells after a write of a slot are those of the slot and cells that were there. -/
theorem mem_writeSlot {j : Nat} {v : Sample} {m : Ram Byte} {c : Host.Cell}
    (h : c ∈ (writeSlot m j v).cells) : (slotAddr j ≤ c.1 ∧ c.1 < slotAddr j + 16) ∨ c ∈ m.cells := by
  rcases mem_writeLE h with h | h
  · exact .inl (by omega)
  · rcases mem_writeLE h with h | h
    · exact .inl (by omega)
    · exact .inr h

/-- Bytes outside a slot are as before after a write of it. -/
theorem readByte_writeSlot_other (m : Ram Byte) {j a : Nat} (v : Sample)
    (h : a < slotAddr j ∨ slotAddr j + 16 ≤ a) : readByte (writeSlot m j v) a = readByte m a := by
  simp only [writeSlot, readByte_writeLE]
  rw [if_neg (by omega), if_neg (by omega)]

@[simp] theorem readSlot_writeSlot_same (m : Ram Byte) (j : Nat) (v : Sample) :
    readSlot (writeSlot m j v) j = v := by
  simp only [readSlot, writeSlot, readLE_writeLE_same]
  rw [readLE_writeLE_other _ _ (.inl (by omega)), readLE_writeLE_same]
  obtain ⟨re, im⟩ := v
  have h1 := re.isLt
  have h2 := im.isLt
  simp only [Sample.mk.injEq]
  constructor <;> apply BitVec.eq_of_toNat_eq <;> simp <;> omega

/-- A write of eight bytes at a slot is a write of its first word (20_memory.md R57). -/
theorem readSlot_writeLE_re (m : Ram Byte) (j : Nat) (v : Word64) :
    readSlot (writeLE m (slotAddr j) 8 v.toNat) j = { re := v, im := (readSlot m j).im } := by
  simp only [readSlot, readLE_writeLE_same]
  rw [readLE_writeLE_other _ _ (.inr (by omega))]
  simp only [Sample.mk.injEq, and_true]
  exact BitVec.eq_of_toNat_eq (by simpa using v.isLt)

/-- And one at the eighth byte is a write of its second. -/
theorem readSlot_writeLE_im (m : Ram Byte) (j : Nat) (v : Word64) :
    readSlot (writeLE m (slotAddr j + 8) 8 v.toNat) j = { re := (readSlot m j).re, im := v } := by
  simp only [readSlot, readLE_writeLE_same]
  rw [readLE_writeLE_other _ _ (.inl (by omega))]
  simp only [Sample.mk.injEq, true_and]
  exact BitVec.eq_of_toNat_eq (by simpa using v.isLt)

theorem readSlot_congr {m m' : Ram Byte} {j : Nat}
    (h : ∀ a, slotAddr j ≤ a → a < slotAddr j + 16 → readByte m a = readByte m' a) :
    readSlot m j = readSlot m' j := by
  simp only [readSlot]
  rw [readLE_congr fun a h1 h2 => h a (by omega) (by omega),
    readLE_congr fun a h1 h2 => h a (by omega) (by omega)]

theorem readSlot_writeSlot_other (m : Ram Byte) {j k : Nat} (v : Sample) (h : k ≠ j) :
    readSlot (writeSlot m j v) k = readSlot m k :=
  readSlot_congr fun a h1 h2 => readByte_writeSlot_other m v (by simp only [slotAddr] at *; omega)

end Sys2Proof.Machine
end

