-- ==== Sys2Proof/Laws/Engine.lean ====
section
/-! SUPPORT. What one turn of the engine can do: the frame of each of its operations, said once, and
the laws of `freeSlots` and of the loops of Body.lean. -/

namespace Sys2Proof.Machine

/-! ### Free slots -/

theorem freeSlots_succ (n : Nat) (s : State) :
    freeSlots (n + 1) s =
      { freeSlots n s with
        mem := writeSlot (freeSlots n s).mem n
          { re := Config.freeWord (freeSlots n s).draws
            im := Config.freeWord ((freeSlots n s).draws + 1) }
        draws := (freeSlots n s).draws + 2 } := rfl

/-- `freeSlots` writes the sample RAM and counts draws, nothing else. -/
theorem freeSlots_eq (n : Nat) (s : State) :
    freeSlots n s = { s with mem := (freeSlots n s).mem, draws := s.draws + 2 * n } := by
  induction n with
  | zero => rfl
  | succ n ih =>
    rw [freeSlots_succ]
    generalize freeSlots n s = t at *
    generalize writeSlot t.mem n _ = m
    rw [ih]
    simp [Nat.mul_add, Nat.add_assoc]

@[simp] theorem freeSlots_draws (n : Nat) (s : State) : (freeSlots n s).draws = s.draws + 2 * n := by
  rw [freeSlots_eq]

theorem rising_freeSlots (n : Nat) {s : State} (h : rising s.mem.cells = true) :
    rising (freeSlots n s).mem.cells = true := by
  induction n with
  | zero => exact h
  | succ n ih => rw [freeSlots_succ]; dsimp only; exact rising_writeSlot n _ ih

/-- Bytes outside the slots freed are as before. -/
theorem readByte_freeSlots_other {n a : Nat} (s : State) (h : ¬inSlots n a) :
    readByte (freeSlots n s).mem a = readByte s.mem a := by
  induction n with
  | zero => rfl
  | succ n ih =>
    rw [freeSlots_succ]
    dsimp only
    rw [readByte_writeSlot_other _ _ (by simp only [inSlots, slotAddr] at *; omega),
      ih (by simp only [inSlots] at *; omega)]

/-- Each word of a slot freed is a draw of its own. -/
theorem readSlot_freeSlots {n j : Nat} (s : State) (h : j < n) :
    readSlot (freeSlots n s).mem j =
      { re := Config.freeWord (s.draws + 2 * j), im := Config.freeWord (s.draws + 2 * j + 1) } := by
  induction n with
  | zero => omega
  | succ n ih =>
    rw [freeSlots_succ]
    dsimp only
    by_cases hj : j = n
    · subst hj; rw [readSlot_writeSlot_same, freeSlots_draws]
    · rw [readSlot_writeSlot_other _ _ hj, ih (by omega)]

/-- The cells after freeing slots lie in those slots or were there. -/
theorem mem_freeSlots {n : Nat} {s : State} {c : Host.Cell} (h : c ∈ (freeSlots n s).mem.cells) :
    inSlots n c.1 ∨ c ∈ s.mem.cells := by
  induction n with
  | zero => exact .inr h
  | succ n ih =>
    rw [freeSlots_succ] at h
    dsimp only at h
    rcases mem_writeSlot h with h | h
    · exact .inl (by simp only [inSlots, slotAddr] at *; omega)
    · rcases ih h with h | h
      · exact .inl (by simp only [inSlots] at *; omega)
      · exact .inr h

/-! ### Samples -/

@[simp] theorem componentIn_idem (r : Representation) (w : Word64) :
    componentIn r (componentIn r w) = componentIn r w := by
  cases r <;> simp [componentIn, low32]

/-- A write of slot j is read back through the representation. -/
theorem sread_swrite_same (r : Representation) (j : Nat) (v : Sample) (s : State) :
    sread r (swrite r j v s) j = { re := componentIn r v.re, im := componentIn r v.im } := by
  simp [sread]

theorem sread_swrite_other (r r' : Representation) {j k : Nat} (v : Sample) (s : State) (h : k ≠ j) :
    sread r (swrite r' j v s) k = sread r s k := by
  simp [sread, readSlot_writeSlot_other _ _ h]

/-- What the engine reads depends on the sample RAM alone. -/
theorem sread_congr (r : Representation) {s t : State} {j : Nat}
    (h : readSlot s.mem j = readSlot t.mem j) : sread r s j = sread r t j := by
  simp [sread, h]

/-! ### Operations -/

/-- A change of the state that touches only the slots below n of the sample RAM, OVF and SCR. -/
structure Touches (n : Nat) (s t : State) : Prop where
  frame  : { t with mem := s.mem, scr := s.scr, ovf := s.ovf } = s
  bytes  : ∀ a, ¬inSlots n a → readByte t.mem a = readByte s.mem a
  rising : rising s.mem.cells = true → rising t.mem.cells = true
  cells  : ∀ c ∈ t.mem.cells, inSlots n c.1 ∨ c ∈ s.mem.cells
  scr    : Machine.rising s.scr.cells = true → Machine.rising t.scr.cells = true

theorem Touches.refl (n : Nat) (s : State) : Touches n s s :=
  ⟨rfl, fun _ _ => rfl, id, fun _ h => .inr h, id⟩

theorem Touches.trans {n : Nat} {s t u : State} (h : Touches n s t) (k : Touches n t u) :
    Touches n s u where
  frame := by
    have h1 := h.frame
    have h2 := k.frame
    rw [← h1]
    conv_rhs => rw [← h2]
  bytes a ha := (k.bytes a ha).trans (h.bytes a ha)
  rising hs := k.rising (h.rising hs)
  cells c hc := (k.cells c hc).elim .inl (h.cells c)
  scr hs := k.scr (h.scr hs)

theorem touches_setOvf (n : Nat) (b : Bool) (s : State) : Touches n s (setOvf b s) :=
  ⟨rfl, fun _ _ => rfl, id, fun _ h => .inr h, id⟩

theorem touches_writeScr (n i : Nat) (v : Sample) (s : State) : Touches n s (writeScr i v s) :=
  ⟨rfl, fun _ _ => rfl, id, fun _ h => .inr h, fun h => rising_insert _ _ h⟩

theorem touches_swrite {n j : Nat} (r : Representation) (v : Sample) (s : State) (h : j < n) :
    Touches n s (swrite r j v s) := by
  have hj : ∀ a, slotAddr j ≤ a ∧ a < slotAddr j + 16 → inSlots n a := fun a ha => by
    simp only [inSlots, slotAddr] at *; omega
  unfold swrite
  generalize ({ re := componentIn r v.re, im := componentIn r v.im } : Sample) = w
  refine ⟨rfl, fun a ha => ?_, fun hs => ?_, fun c hc => ?_, id⟩
  · dsimp only
    exact readByte_writeSlot_other _ _ (by by_contra hc; exact ha (hj a (by omega)))
  · dsimp only; exact rising_writeSlot _ _ hs
  · dsimp only at hc; exact (mem_writeSlot hc).imp (hj _) id

theorem touches_weightSlot {cfg : Latched} {i : Nat} (r : Representation) (s : State) (h : i < cfg.n) :
    Touches cfg.n s (weightSlot r cfg i s) := by
  unfold weightSlot
  generalize wmulR _ r _ _ = v
  dsimp only
  exact (touches_swrite r v.1 s h).trans (touches_setOvf cfg.n v.2 (swrite r i v.1 s))

theorem touches_butterfly {n x y : Nat} (r : Representation) (w : Sample) (s : State) (hx : x < n)
    (hy : y < n) : Touches n s (butterfly r x y w s) := by
  unfold butterfly
  dsimp only
  generalize addR r _ _ = a
  generalize subR r _ _ = d
  generalize cmulR _ r d.1 w = m
  exact ((touches_swrite r a.1 s hx).trans (touches_swrite r m.1 (swrite r x a.1 s) hy)).trans
    (touches_setOvf n (d.2 || a.2 || m.2) (swrite r y m.1 (swrite r x a.1 s)))

theorem touches_gatherSlot (n i : Nat) (r : Representation) (s : State) :
    Touches n s (gatherSlot r i s) := touches_writeScr _ _ _ _

theorem touches_scatterSlot {n i : Nat} (r : Representation) (s : State) (h : i < n) :
    Touches n s (scatterSlot r i s) := by
  unfold scatterSlot
  generalize readScr s i = v
  exact touches_swrite r v s h

theorem touches_scaleSlot {cfg : Latched} {i : Nat} (r : Representation) (s : State) (h : i < cfg.n) :
    Touches cfg.n s (scaleSlot r cfg i s) := by
  unfold scaleSlot
  generalize divNR r _ _ = v
  exact touches_swrite r v s h

theorem weightSlot_scr (r : Representation) (cfg : Latched) (i : Nat) (s : State) :
    (weightSlot r cfg i s).scr = s.scr := by
  unfold weightSlot setOvf; dsimp only; exact swrite_scr ..

theorem butterfly_scr (r : Representation) (x y : Nat) (w : Sample) (s : State) :
    (butterfly r x y w s).scr = s.scr := by
  unfold butterfly setOvf; dsimp only; rw [swrite_scr, swrite_scr]

theorem scatterSlot_scr (r : Representation) (i : Nat) (s : State) :
    (scatterSlot r i s).scr = s.scr := by unfold scatterSlot; exact swrite_scr ..

theorem scaleSlot_scr (r : Representation) (cfg : Latched) (i : Nat) (s : State) :
    (scaleSlot r cfg i s).scr = s.scr := by unfold scaleSlot; exact swrite_scr ..

/-- The size of a part of a stage (43_butterfly.md R184). -/
theorem partSize_eq {cfg : Latched} {stage : Nat} (hn : cfg.n = 2 ^ cfg.l) (hs : stage ≤ cfg.l) :
    partSize cfg stage = 2 ^ (cfg.l - stage) := by
  rw [partSize, hn, Nat.shiftRight_eq_div_pow, Nat.pow_div hs (by norm_num)]

/-- The distance of a pair of a stage (R184). -/
theorem halfPart_eq {cfg : Latched} {stage : Nat} (hn : cfg.n = 2 ^ cfg.l) (hs : stage < cfg.l) :
    halfPart cfg stage = 2 ^ (cfg.l - 1 - stage) := by
  rw [halfPart, hn, Nat.shiftRight_eq_div_pow, Nat.shiftRight_eq_div_pow,
    Nat.pow_div (by omega) (by norm_num), Nat.pow_div (by omega) (by norm_num)]

/-- A part is two halves (R184). -/
theorem partSize_eq_two_mul {cfg : Latched} {stage : Nat} (hn : cfg.n = 2 ^ cfg.l) (hs : stage < cfg.l) :
    partSize cfg stage = 2 * halfPart cfg stage := by
  rw [partSize_eq hn hs.le, halfPart_eq hn hs, ← pow_succ']
  congr 1
  omega

/-- With N = 2^L both ends of every butterfly of a stage are below N (R184, R185). -/
theorem butterfly_in_range {cfg : Latched} {stage part i : Nat} (hn : cfg.n = 2 ^ cfg.l)
    (hs : stage < cfg.l) (hp : part < 2 ^ stage) (hi : i < halfPart cfg stage) :
    partSize cfg stage * part + i + halfPart cfg stage < cfg.n := by
  have hnn : cfg.n = partSize cfg stage * 2 ^ stage := by
    rw [partSize_eq hn hs.le, ← pow_add, Nat.sub_add_cancel hs.le, hn]
  have h2 := partSize_eq_two_mul hn hs
  have : partSize cfg stage * (part + 1) ≤ partSize cfg stage * 2 ^ stage := Nat.mul_le_mul_left _ hp
  rw [mul_add, mul_one] at this
  omega

theorem touches_stageButterfly {cfg : Latched} {stage part i : Nat} (r : Representation) (s : State)
    (hn : cfg.n = 2 ^ cfg.l) (hs : stage < cfg.l) (hp : part < 2 ^ stage)
    (hi : i < halfPart cfg stage) : Touches cfg.n s (stageButterfly r cfg stage part i s) := by
  have := butterfly_in_range hn hs hp hi
  exact touches_butterfly r _ s (by omega) this

/-! ### Loops -/

@[simp] theorem forRange_zero (f : Nat → State → State) (s : State) : forRange 0 f s = s := rfl

theorem forRange_succ (n : Nat) (f : Nat → State → State) (s : State) :
    forRange (n + 1) f s = f n (forRange n f s) := rfl

/-- A property that every pass of a loop keeps holds at its end. -/
theorem forRange_keeps {P : State → Prop} {n : Nat} {f : Nat → State → State} {s : State} (h0 : P s)
    (hf : ∀ i < n, ∀ t, P t → P (f i t)) : P (forRange n f s) := by
  induction n with
  | zero => exact h0
  | succ n ih => exact hf n (by omega) _ (ih fun i hi => hf i (by omega))

/-- A loop depends on its passes within the range alone. -/
theorem forRange_congr {n : Nat} {f g : Nat → State → State} (h : ∀ i < n, ∀ t, f i t = g i t) (s : State) :
    forRange n f s = forRange n g s := by
  induction n with
  | zero => rfl
  | succ n ih => rw [forRange_succ, forRange_succ, ih fun i hi => h i (by omega), h n (by omega)]

theorem touches_forRange {m n : Nat} {f : Nat → State → State} (s : State)
    (hf : ∀ i < n, ∀ t, Touches m t (f i t)) : Touches m s (forRange n f s) :=
  forRange_keeps (P := Touches m s) (.refl m s) fun i hi _ ht => ht.trans (hf i hi _)

/-- The whole body of an EXEC touches the slots below N alone (44_execute.md R228). -/
theorem touches_execBody {cfg : Latched} (r : Representation) (s : State) (hn : cfg.n = 2 ^ cfg.l) :
    Touches cfg.n s (execBody r cfg s) := by
  have h1 : ∀ s, Touches cfg.n s (windowPass r cfg s) := fun s => by
    unfold windowPass; split_ifs
    · exact .refl _ _
    · exact touches_forRange s fun i hi t => touches_weightSlot r t hi
  have h2 : ∀ s, Touches cfg.n s (stages r cfg s) := fun s =>
    touches_forRange s fun stage hs t => touches_forRange t fun part hp u =>
      touches_forRange u fun i hi v => touches_stageButterfly r v hn hs hp hi
  have h3 : ∀ s, Touches cfg.n s (permute r cfg s) := fun s =>
    (touches_forRange s fun i _ t => touches_gatherSlot _ i r t).trans
      (touches_forRange _ fun i hi t => touches_scatterSlot r t hi)
  have h4 : ∀ s, Touches cfg.n s (scale r cfg s) := fun s => by
    unfold scale; split_ifs
    · exact .refl _ _
    · exact touches_forRange s fun i hi t => touches_scaleSlot r t hi
  exact (((h1 s).trans (h2 _)).trans (h3 _)).trans (h4 _)

/-! ### Turns -/

/-- What one turn of an EXEC can do: move to a phase after a change inside the slots below N, or
complete. -/
theorem execTurn_inv (r : Representation) {cfg : Latched} (hz : Bool) (ph : Phase) (s : State)
    (hn : cfg.n = 2 ^ cfg.l) :
    (∃ ph' t, Touches cfg.n s t ∧ execTurn r cfg hz ph s = goto r cfg hz ph' t ∧
      ((∀ i, ph ≠ .gather i) → t.scr = s.scr)) ∨
    execTurn r cfg hz ph s = finishExec cfg hz s := by
  cases ph with
  | window i =>
    simp only [execTurn]
    split_ifs with h
    · exact .inl ⟨_, s, .refl _ _, rfl, fun _ => rfl⟩
    · exact .inl ⟨_, _, touches_weightSlot r s (by omega), rfl, fun _ => weightSlot_scr ..⟩
  | stages stage part i =>
    simp only [execTurn]
    split_ifs with h1 h2 h3
    · exact .inl ⟨_, s, .refl _ _, rfl, fun _ => rfl⟩
    · exact .inl ⟨_, s, .refl _ _, rfl, fun _ => rfl⟩
    · exact .inl ⟨_, s, .refl _ _, rfl, fun _ => rfl⟩
    · exact .inl ⟨_, _, touches_stageButterfly r s hn (by omega) (by omega) (by omega), rfl,
        fun _ => butterfly_scr ..⟩
  | gather i =>
    simp only [execTurn]
    split_ifs with h
    · exact .inl ⟨_, s, .refl _ _, rfl, fun _ => rfl⟩
    · exact .inl ⟨_, _, touches_gatherSlot _ i r s, rfl, fun h' => absurd rfl (h' i)⟩
  | scatter i =>
    simp only [execTurn]
    split_ifs with h
    · exact .inl ⟨_, s, .refl _ _, rfl, fun _ => rfl⟩
    · exact .inl ⟨_, _, touches_scatterSlot r s (by omega), rfl, fun _ => scatterSlot_scr ..⟩
  | scale i =>
    simp only [execTurn]
    split_ifs with h
    · exact .inr rfl
    · exact .inl ⟨_, _, touches_scaleSlot r s (by omega), rfl, fun _ => scaleSlot_scr ..⟩

/-! ### What a turn leaves alone, for any latched configuration -/

/-- Only Q sets OVF: in D and S the operations say so (40_numerics.md R116). -/
theorem ops_no_ovf {r : Representation} (h : r ≠ .Q) (shift : Nat) (p q w : Sample) (x : Word64) :
    (addR r p q).2 = false ∧ (subR r p q).2 = false ∧ (cmulR shift r p w).2 = false ∧
      (wmulR shift r p x).2 = false := by
  cases r <;> simp_all [addR, subR, cmulR, wmulR, add1, sub1, wmul1, pairUp]

/-- A change of the state that touches only the RAMs the engine works on and OVF, and OVF only as
representation r may: set in Q, kept in D and S. -/
structure Within (r : Representation) (s t : State) : Prop where
  frame : { t with mem := s.mem, scr := s.scr, ovf := s.ovf } = s
  keep  : r ≠ .Q → t.ovf = s.ovf
  mono  : s.ovf = true → t.ovf = true

theorem Within.refl (r : Representation) (s : State) : Within r s s := ⟨rfl, fun _ => rfl, id⟩

theorem Within.trans {r : Representation} {s t u : State} (h : Within r s t) (k : Within r t u) :
    Within r s u where
  frame := by
    have h1 := h.frame
    have h2 := k.frame
    rw [← h1]
    conv_rhs => rw [← h2]
  keep hr := (k.keep hr).trans (h.keep hr)
  mono ho := k.mono (h.mono ho)

theorem within_swrite (r : Representation) (j : Nat) (v : Sample) (s : State) :
    Within r s (swrite r j v s) := by
  unfold swrite
  exact ⟨rfl, fun _ => rfl, id⟩

theorem within_setOvf {r : Representation} {b : Bool} (s : State) (h : r ≠ .Q → b = false) :
    Within r s (setOvf b s) :=
  ⟨rfl, fun hr => by simp [h hr], fun ho => by simp [ho]⟩

theorem within_weightSlot (r : Representation) (cfg : Latched) (i : Nat) (s : State) :
    Within r s (weightSlot r cfg i s) := by
  have h : r ≠ .Q → (wmulR s.params.renormShift r (sread r s i)
      (windowWeight r s.params.log2Nmax cfg i)).2 = false := fun hr =>
    (ops_no_ovf hr s.params.renormShift (sread r s i) (sread r s i) (sread r s i) _).2.2.2
  unfold weightSlot
  generalize wmulR _ r _ _ = v at *
  dsimp only
  exact (within_swrite r i v.1 s).trans (within_setOvf (swrite r i v.1 s) h)

theorem within_butterfly (r : Representation) (x y : Nat) (w : Sample) (s : State) :
    Within r s (butterfly r x y w s) := by
  unfold butterfly
  dsimp only
  generalize sread r s x = p
  generalize sread r s y = q
  have h := fun hr : r ≠ .Q => ops_no_ovf hr s.params.renormShift p q w 0
  have h' := fun hr : r ≠ .Q => ops_no_ovf hr s.params.renormShift (subR r p q).1 q w 0
  generalize addR r p q = a at *
  generalize subR r p q = d at *
  generalize cmulR _ r d.1 w = m at *
  exact ((within_swrite r x a.1 s).trans (within_swrite r y m.1 (swrite r x a.1 s))).trans
    (within_setOvf (swrite r y m.1 (swrite r x a.1 s)) fun hr => by
      rw [(h hr).1, (h hr).2.1, (h' hr).2.2.1]; rfl)

theorem within_gatherSlot (r : Representation) (i : Nat) (s : State) : Within r s (gatherSlot r i s) :=
  ⟨rfl, fun _ => rfl, id⟩

theorem within_scatterSlot (r : Representation) (i : Nat) (s : State) :
    Within r s (scatterSlot r i s) := by
  unfold scatterSlot
  generalize readScr s i = v
  exact within_swrite r i v s

theorem within_scaleSlot (r : Representation) (cfg : Latched) (i : Nat) (s : State) :
    Within r s (scaleSlot r cfg i s) := by
  unfold scaleSlot
  generalize divNR r _ _ = v
  exact within_swrite r i v s

theorem within_stageButterfly (r : Representation) (cfg : Latched) (stage part i : Nat) (s : State) :
    Within r s (stageButterfly r cfg stage part i s) := by
  unfold stageButterfly
  exact within_butterfly ..

theorem within_forRange {r : Representation} {n : Nat} {f : Nat → State → State} (s : State)
    (hf : ∀ i t, Within r t (f i t)) : Within r s (forRange n f s) :=
  forRange_keeps (P := Within r s) (.refl r s) fun i _ _ ht => ht.trans (hf i _)

/-- Completion of an EXEC writes the sample RAM, the draws and the sequencer alone. -/
theorem finishExec_inv (cfg : Latched) (hz : Bool) (s : State) :
    ∃ m d, finishExec cfg hz s = { s with mem := m, draws := d, seq := none } := by
  unfold finishExec
  split_ifs
  · have e := freeSlots_eq cfg.n s
    generalize (freeSlots cfg.n s).mem = m at *
    rw [e]
    exact ⟨_, _, rfl⟩
  · exact ⟨_, _, rfl⟩

/-- One turn of an EXEC, for any latched configuration. -/
theorem execTurn_frame (r : Representation) (cfg : Latched) (hz : Bool) (ph : Phase) (s : State) :
    (∃ ph' t, Within r s t ∧ execTurn r cfg hz ph s = goto r cfg hz ph' t ∧
      ((∀ i, ph ≠ .gather i) → t.scr = s.scr)) ∨
    execTurn r cfg hz ph s = finishExec cfg hz s := by
  cases ph with
  | window i =>
    simp only [execTurn]
    split_ifs with h
    · exact .inl ⟨_, s, .refl _ _, rfl, fun _ => rfl⟩
    · exact .inl ⟨_, _, within_weightSlot r cfg i s, rfl, fun _ => weightSlot_scr ..⟩
  | stages stage part i =>
    simp only [execTurn]
    split_ifs with h1 h2 h3
    · exact .inl ⟨_, s, .refl _ _, rfl, fun _ => rfl⟩
    · exact .inl ⟨_, s, .refl _ _, rfl, fun _ => rfl⟩
    · exact .inl ⟨_, s, .refl _ _, rfl, fun _ => rfl⟩
    · exact .inl ⟨_, _, within_stageButterfly r cfg stage part i s, rfl, fun _ => butterfly_scr ..⟩
  | gather i =>
    simp only [execTurn]
    split_ifs with h
    · exact .inl ⟨_, s, .refl _ _, rfl, fun _ => rfl⟩
    · exact .inl ⟨_, _, within_gatherSlot r i s, rfl, fun h' => absurd rfl (h' i)⟩
  | scatter i =>
    simp only [execTurn]
    split_ifs with h
    · exact .inl ⟨_, s, .refl _ _, rfl, fun _ => rfl⟩
    · exact .inl ⟨_, _, within_scatterSlot r i s, rfl, fun _ => scatterSlot_scr ..⟩
  | scale i =>
    simp only [execTurn]
    split_ifs with h
    · exact .inr rfl
    · exact .inl ⟨_, _, within_scaleSlot r cfg i s, rfl, fun _ => scaleSlot_scr ..⟩

/-- One turn of the engine on an EXEC is that of `execTurn`, but for OVF and the draws. -/
theorem engineTurn_exec (r : Representation) (cfg : Latched) (ph : Phase) (hz : Bool) (s : State) :
    ∃ o d, engineTurn (.exec r cfg ph hz) s = { execTurn r cfg hz ph s with ovf := o, draws := d } := by
  simp only [engineTurn]
  split_ifs
  · exact ⟨_, _, rfl⟩
  · exact ⟨_, _, rfl⟩

/-- A turn of an EXEC keeps OVF in D and S, and never clears it. -/
theorem engineTurn_exec_ovf (r : Representation) (cfg : Latched) (ph : Phase) (hz : Bool) (s : State) :
    (r ≠ .Q → (engineTurn (.exec r cfg ph hz) s).ovf = s.ovf) ∧
    (s.ovf = true → (engineTurn (.exec r cfg ph hz) s).ovf = true) := by
  have h : (r ≠ .Q → (execTurn r cfg hz ph s).ovf = s.ovf) ∧
      (s.ovf = true → (execTurn r cfg hz ph s).ovf = true) := by
    rcases execTurn_frame r cfg hz ph s with ⟨ph', t, ht, he, -⟩ | he
    · rw [he]; exact ⟨ht.keep, ht.mono⟩
    · obtain ⟨m, d, e⟩ := finishExec_inv cfg hz s
      rw [he, e]; exact ⟨fun _ => rfl, id⟩
  simp only [engineTurn]
  generalize execTurn r cfg hz ph s = t at *
  split_ifs with hq
  · exact ⟨fun hr => absurd (by simp at hq; exact hq.2) hr, fun ho => by simp [freeOvf, ho]⟩
  · exact h

/-- One turn of the engine on an EXEC that no hazard has marked. -/
theorem engineTurn_exec_clean (r : Representation) (cfg : Latched) (ph : Phase) (s : State) :
    engineTurn (.exec r cfg ph false) s = execTurn r cfg false ph s := rfl

/-- One turn of an INIT: one write of REV, a move of its loop, or its completion. -/
theorem initTurn_inv (size : Nat) (fwd : Bool) (loop : BuildLoop) (s : State) :
    (∃ loop' rev', initTurn size fwd loop s =
      { s with rev := rev', seq := some (.init size fwd loop') } ∧
      (rising s.rev.cells = true → rising rev'.cells = true)) ∨
    (∃ half block j, loop = .fill half block j ∧ size / 2 < block ∧
      initTurn size fwd loop s = finishInit size fwd s) := by
  cases loop with
  | start => exact .inl ⟨_, _, rfl, rising_insert _ _⟩
  | fill half block j =>
    simp only [initTurn]
    split_ifs with h1 h2
    · exact .inr ⟨half, block, j, rfl, h1, rfl⟩
    · exact .inl ⟨_, s.rev, rfl, id⟩
    · exact .inl ⟨_, _, rfl, rising_insert _ _⟩

/-- A turn of the engine changes the RAMs, the configuration, OVF, the sequencer and the count of draws,
nothing else. -/
theorem engineTurn_frame (job : Job) (s : State) :
    { engineTurn job s with
      mem := s.mem, rev := s.rev, scr := s.scr, ovf := s.ovf, n := s.n, l := s.l, fwd := s.fwd, ctl := s.ctl
      seq := s.seq, draws := s.draws } = s := by
  cases job with
  | init size fwd loop =>
    rcases initTurn_inv size fwd loop s with ⟨l', r', he, -⟩ | ⟨hf, b, j, hl, hb, he⟩
    all_goals rw [engineTurn, he]
    rfl
  | exec r cfg ph hz =>
    obtain ⟨o, d, e⟩ := engineTurn_exec r cfg ph hz s
    rw [e]
    rcases execTurn_frame r cfg hz ph s with ⟨ph', u, hw, he, -⟩ | he
    · rw [he]
      conv_rhs => rw [← hw.frame]
      simp [← congrArg State.n hw.frame, ← congrArg State.l hw.frame, ← congrArg State.fwd hw.frame,
        ← congrArg State.ctl hw.frame, ← congrArg State.rev hw.frame, ← congrArg State.seq hw.frame,
        ← congrArg State.draws hw.frame]
    · obtain ⟨m, d2, e⟩ := finishExec_inv cfg hz s
      rw [he, e]

/-- A turn of a marked EXEC that completes it leaves each word of its slots a free value drawn then
(70_reset_and_hazards.md R293). -/
theorem engineTurn_marked {r : Representation} {cfg : Latched} {ph : Phase} {s : State}
    (h : (engineTurn (.exec r cfg ph true) s).busy = false) {j : Nat} (hj : j < cfg.n) :
    readSlot (engineTurn (.exec r cfg ph true) s).mem j =
      { re := Config.freeWord (s.draws + 2 * j), im := Config.freeWord (s.draws + 2 * j + 1) } := by
  obtain ⟨o, d, e⟩ := engineTurn_exec r cfg ph true s
  rw [e] at h ⊢
  rcases execTurn_frame r cfg true ph s with ⟨ph', t, -, he, -⟩ | he
  · rw [he] at h; simp [State.busy] at h
  · rw [he]; simp only [finishExec, if_true]; exact readSlot_freeSlots s hj

end Sys2Proof.Machine
end

