-- ==== Sys2Proof/Laws/Run.lean ====
section
/-! SUPPORT. Runs of the machine: how runs compose, what a step does when the host has nothing to do,
and the turns of an EXEC added up to the loops of Body.lean. -/

namespace Sys2Proof.Machine

/-! ### Runs -/

/-- A run leads from `s` to `t`. -/
def Reaches (s t : State) : Prop := ∃ k, core.run k s = .next t

theorem run_succ (k : Nat) {s t : State} (h : step s = .next t) : core.run (k + 1) s = core.run k t := by
  have h' : core.step s = .next t := h
  simp only [Host.Core.run, h']

theorem run_succ_fault (k : Nat) {s : State} {r : Fault} (h : step s = .fault r) :
    core.run (k + 1) s = .fault r := by
  have h' : core.step s = .fault r := h
  simp only [Host.Core.run, h']

theorem run_succ_refused (k : Nat) {s : State} {r : Refusal} (h : step s = .refused r) :
    core.run (k + 1) s = .refused r := by
  have h' : core.step s = .refused r := h
  simp only [Host.Core.run, h']

theorem run_add {j : Nat} (k : Nat) {s t : State} (h : core.run j s = .next t) :
    core.run (j + k) s = core.run k t := by
  induction j generalizing s with
  | zero => rw [Nat.zero_add]; cases h; rfl
  | succ j ih =>
    rw [show j + 1 + k = (j + k) + 1 by omega]
    cases hs : step s with
    | next u => rw [run_succ _ hs] at h ⊢; exact ih h
    | fault r => rw [run_succ_fault _ hs] at h; cases h
    | refused r => rw [run_succ_refused _ hs] at h; cases h

theorem Reaches.refl (s : State) : Reaches s s := ⟨0, rfl⟩

theorem Reaches.trans {s t u : State} (h : Reaches s t) (k : Reaches t u) : Reaches s u := by
  obtain ⟨i, hi⟩ := h
  obtain ⟨j, hj⟩ := k
  exact ⟨i + j, by rw [run_add j hi, hj]⟩

theorem Reaches.of_step {s t : State} (h : step s = .next t) : Reaches s t := ⟨1, by rw [run_succ 0 h]; rfl⟩

/-- The host has nothing to do and reset is not asserted. -/
structure Alone (s : State) : Prop where
  host : s.host = []
  pin  : s.resetPin = false

/-- With the host at rest a step is a turn of the engine. -/
theorem step_alone {s : State} {job : Job} (h : Alone s) (hq : s.seq = some job) :
    step s = .next (engineTurn job s) := by
  simp [step, turn, h.host, h.pin, hq]

/-! ### The turns read nothing of the sequencer -/

theorem goto_goto (r : Representation) (cfg : Latched) (hz : Bool) (p q : Phase) (s : State) :
    goto r cfg hz p (goto r cfg hz q s) = goto r cfg hz p s := rfl

theorem sread_goto (r r' : Representation) (cfg : Latched) (hz : Bool) (p : Phase) (s : State) (j : Nat) :
    sread r' (goto r cfg hz p s) j = sread r' s j := by simp only [sread, goto_mem]

/-- A change of the state that neither reads nor writes the sequencer. -/
def Blind (f : State → State) : Prop := ∀ q s, f { s with seq := q } = { f s with seq := q }

theorem blind_setOvf (b : Bool) : Blind (setOvf b) := fun _ _ => rfl

theorem sread_setSeq (r : Representation) (s : State) (q : Option Job) (j : Nat) :
    sread r { s with seq := q } j = sread r s j := by simp only [sread]

theorem blind_swrite (r : Representation) (j : Nat) (v : Sample) : Blind (swrite r j v) := by
  intro q s; simp only [swrite]

theorem blind_weightSlot (r : Representation) (cfg : Latched) (i : Nat) : Blind (weightSlot r cfg i) := by
  intro q s
  unfold weightSlot
  simp only [sread_setSeq]
  generalize wmulR _ r _ _ = v
  rw [blind_swrite, blind_setOvf]

theorem blind_butterfly (r : Representation) (x y : Nat) (w : Sample) : Blind (butterfly r x y w) := by
  intro q s
  unfold butterfly
  simp only [sread_setSeq]
  generalize addR r _ _ = a
  generalize subR r _ _ = d
  generalize cmulR _ r d.1 w = m
  rw [blind_swrite r x a.1 q s, blind_swrite r y m.1 q (swrite r x a.1 s)]
  exact blind_setOvf _ q _

theorem blind_stageButterfly (r : Representation) (cfg : Latched) (stage part i : Nat) :
    Blind (stageButterfly r cfg stage part i) := by
  intro q s
  unfold stageButterfly
  exact blind_butterfly ..

theorem blind_gatherSlot (r : Representation) (i : Nat) : Blind (gatherSlot r i) := by
  intro q s
  unfold gatherSlot
  simp only [sread_setSeq, readRev]
  rfl

theorem blind_scatterSlot (r : Representation) (i : Nat) : Blind (scatterSlot r i) := by
  intro q s
  unfold scatterSlot
  simp only [readScr]
  generalize (lookup i s.scr.cells).getD _ = v
  rw [blind_swrite]

theorem blind_scaleSlot (r : Representation) (cfg : Latched) (i : Nat) : Blind (scaleSlot r cfg i) := by
  intro q s
  unfold scaleSlot
  simp only [sread_setSeq]
  generalize divNR r _ _ = v
  rw [blind_swrite]

theorem Blind.goto {f : State → State} (h : Blind f) (r : Representation) (cfg : Latched) (hz : Bool)
    (p q : Phase) (s : State) :
    Machine.goto r cfg hz p (f (Machine.goto r cfg hz q s)) = Machine.goto r cfg hz p (f s) := by
  unfold Machine.goto
  rw [h]

/-! ### Every EXEC ends -/

/-- A bound on the turns an EXEC has still to make: it falls at each. -/
def execMeasure (cfg : Latched) : Phase → Nat
  | .scale i => cfg.n - i
  | .scatter i => (cfg.n - i) + 1 + cfg.n
  | .gather i => (cfg.n - i) + 2 + 2 * cfg.n
  | .stages stage part i =>
    (cfg.l - stage) * ((2 ^ cfg.l + 1) * (cfg.n + 2)) + (2 ^ stage - part) * (cfg.n + 2) +
      (halfPart cfg stage - i) + 3 + 3 * cfg.n
  | .window i =>
    (cfg.n - i) + cfg.l * ((2 ^ cfg.l + 1) * (cfg.n + 2)) + (cfg.n + 2) + 4 + 4 * cfg.n

theorem halfPart_le (cfg : Latched) (stage : Nat) : halfPart cfg stage ≤ cfg.n := by
  rw [halfPart, Nat.shiftRight_eq_div_pow, Nat.shiftRight_eq_div_pow]
  exact (Nat.div_le_self _ _).trans (Nat.div_le_self _ _)

/-- One turn of an EXEC brings it nearer its end, or completes it. -/
theorem execTurn_measure (r : Representation) (cfg : Latched) (hz : Bool) (ph : Phase) (s : State) :
    (∃ ph' t, execTurn r cfg hz ph s = goto r cfg hz ph' t ∧ execMeasure cfg ph' < execMeasure cfg ph) ∨
    execTurn r cfg hz ph s = finishExec cfg hz s := by
  cases ph with
  | window i =>
    simp only [execTurn]
    split_ifs with h
    · refine .inl ⟨_, s, rfl, ?_⟩
      have := halfPart_le cfg 0
      simp only [execMeasure, pow_zero, Nat.sub_zero, one_mul]; omega
    · exact .inl ⟨_, _, rfl, by simp only [execMeasure]; omega⟩
  | stages stage part i =>
    simp only [execTurn]
    split_ifs with h1 h2 h3
    · exact .inl ⟨_, s, rfl, by simp only [execMeasure]; omega⟩
    · refine .inl ⟨_, s, rfl, ?_⟩
      have hp : 2 ^ (stage + 1) * (cfg.n + 2) ≤ 2 ^ cfg.l * (cfg.n + 2) :=
        Nat.mul_le_mul_right _ (Nat.pow_le_pow_right (by norm_num) (by omega))
      have hh := halfPart_le cfg (stage + 1)
      simp only [execMeasure]
      rw [show cfg.l - stage = cfg.l - (stage + 1) + 1 by omega, Nat.succ_mul _ ((2 ^ cfg.l + 1) * _),
        show (2 ^ cfg.l + 1) * (cfg.n + 2) = 2 ^ cfg.l * (cfg.n + 2) + (cfg.n + 2) by ring, Nat.sub_zero,
        Nat.sub_zero]
      omega
    · refine .inl ⟨_, s, rfl, ?_⟩
      have hh := halfPart_le cfg stage
      simp only [execMeasure]
      rw [show 2 ^ stage - part = 2 ^ stage - (part + 1) + 1 by omega,
        Nat.succ_mul (2 ^ stage - (part + 1)) (cfg.n + 2)]
      omega
    · exact .inl ⟨_, _, rfl, by simp only [execMeasure]; omega⟩
  | gather i =>
    simp only [execTurn]
    split_ifs with h
    · exact .inl ⟨_, s, rfl, by simp only [execMeasure]; omega⟩
    · exact .inl ⟨_, _, rfl, by simp only [execMeasure]; omega⟩
  | scatter i =>
    simp only [execTurn]
    split_ifs with h
    · exact .inl ⟨_, s, rfl, by simp only [execMeasure]; omega⟩
    · exact .inl ⟨_, _, rfl, by simp only [execMeasure]; omega⟩
  | scale i =>
    simp only [execTurn]
    split_ifs with h
    · exact .inr rfl
    · exact .inl ⟨_, _, rfl, by simp only [execMeasure]; omega⟩

/-! ### The turns of an EXEC add up to its loops -/

/-- A turn of an EXEC with the host at rest. -/
theorem reaches_goto {r : Representation} {cfg : Latched} {p : Phase} {s t : State} (h : Alone s)
    (he : execTurn r cfg false p (goto r cfg false p s) = t) : Reaches (goto r cfg false p s) t := by
  have hs : step (goto r cfg false p s) = .next (execTurn r cfg false p (goto r cfg false p s)) :=
    step_alone (job := .exec r cfg p false) ⟨h.host, h.pin⟩ rfl
  exact .of_step (he ▸ hs)

/-- A loop of turns: if each pass moves from one phase to the next, so do all of them together. -/
theorem reaches_loop {r : Representation} {cfg : Latched} {ph : Nat → Phase} {f : Nat → State → State}
    {n : Nat} {s : State} (hf : ∀ i t, Alone t → Alone (f i t))
    (hp : ∀ i < n, ∀ t, Alone t → Reaches (goto r cfg false (ph i) t) (goto r cfg false (ph (i + 1)) (f i t)))
    (h : Alone s) :
    Reaches (goto r cfg false (ph 0) s) (goto r cfg false (ph n) (forRange n f s)) ∧
      Alone (forRange n f s) := by
  induction n with
  | zero => exact ⟨.refl _, h⟩
  | succ n ih =>
    obtain ⟨h1, h2⟩ := ih fun i hi => hp i (by omega)
    exact ⟨h1.trans (hp n (by omega) _ h2), hf n _ h2⟩

/-! A turn of each kind leaves the host alone, for any cfg (no bound on the slots is needed). -/

theorem alone_of_host {s t : State} (h1 : t.host = s.host) (h2 : t.resetPin = s.resetPin)
    (h : Alone s) : Alone t := ⟨h1.trans h.host, h2.trans h.pin⟩

theorem alone_weightSlot (r : Representation) (cfg : Latched) (i : Nat) (t : State) (h : Alone t) :
    Alone (weightSlot r cfg i t) := by
  unfold weightSlot
  generalize wmulR _ r _ _ = v
  exact alone_of_host (by simp) (by simp) h

theorem alone_butterfly (r : Representation) (x y : Nat) (w : Sample) {t : State} (h : Alone t) :
    Alone (butterfly r x y w t) := by
  unfold butterfly
  dsimp only
  generalize addR r _ _ = a
  generalize cmulR _ r _ w = m
  exact alone_of_host (by simp) (by simp) h

theorem alone_stageButterfly (r : Representation) (cfg : Latched) (stage part i : Nat) (t : State)
    (h : Alone t) : Alone (stageButterfly r cfg stage part i t) := by
  unfold stageButterfly; exact alone_butterfly r _ _ _ h

theorem alone_gatherSlot (r : Representation) (i : Nat) (t : State) (h : Alone t) :
    Alone (gatherSlot r i t) := ⟨h.host, h.pin⟩

theorem alone_scatterSlot (r : Representation) (i : Nat) (t : State) (h : Alone t) :
    Alone (scatterSlot r i t) := by
  unfold scatterSlot
  generalize readScr t i = v
  exact alone_of_host (by simp) (by simp) h

theorem alone_scaleSlot (r : Representation) (cfg : Latched) (i : Nat) (t : State) (h : Alone t) :
    Alone (scaleSlot r cfg i t) := by
  unfold scaleSlot
  generalize divNR r _ _ = v
  exact alone_of_host (by simp) (by simp) h

theorem reaches_window (r : Representation) (cfg : Latched) {s : State} (h : Alone s) :
    Reaches (goto r cfg false (.window 0) s) (goto r cfg false (.stages 0 0 0) (windowPass r cfg s)) ∧
      Alone (windowPass r cfg s) := by
  unfold windowPass
  split_ifs with hw
  · exact ⟨reaches_goto h (by simp only [execTurn]; rw [if_pos (.inl hw), goto_goto]), h⟩
  · obtain ⟨h1, h2⟩ := reaches_loop (ph := .window) (f := weightSlot r cfg) (n := cfg.n) (cfg := cfg)
      (r := r) (alone_weightSlot r cfg)
      (fun i hi t ht => reaches_goto ht (by
        simp only [execTurn]
        rw [if_neg (by rintro (h | h) <;> [exact hw h; omega])]
        exact (blind_weightSlot r cfg i).goto r cfg false _ _ t)) h
    exact ⟨h1.trans (reaches_goto h2 (by
      simp only [execTurn]; rw [if_pos (.inr (by omega)), goto_goto])), h2⟩

theorem reaches_part (r : Representation) (cfg : Latched) {stage part : Nat} {s : State} (h : Alone s)
    (hs : stage < cfg.l) (hp : part < 2 ^ stage) :
    Reaches (goto r cfg false (.stages stage part 0) s)
        (goto r cfg false (.stages stage (part + 1) 0)
          (forRange (halfPart cfg stage) (stageButterfly r cfg stage part) s)) ∧
      Alone (forRange (halfPart cfg stage) (stageButterfly r cfg stage part) s) := by
  obtain ⟨h1, h2⟩ := reaches_loop (ph := .stages stage part) (f := stageButterfly r cfg stage part)
    (n := halfPart cfg stage) (cfg := cfg) (r := r) (alone_stageButterfly r cfg stage part)
    (fun i hi t ht => reaches_goto ht (by
      simp only [execTurn]
      rw [if_neg (by omega), if_neg (by omega), if_neg (by omega)]
      exact (blind_stageButterfly r cfg stage part i).goto r cfg false _ _ t)) h
  exact ⟨h1.trans (reaches_goto h2 (by
    simp only [execTurn]
    rw [if_neg (by omega), if_neg (by omega), if_pos (by omega), goto_goto])), h2⟩

theorem alone_forRange {n : Nat} {f : Nat → State → State} {s : State}
    (hf : ∀ i t, Alone t → Alone (f i t)) (h : Alone s) : Alone (forRange n f s) :=
  forRange_keeps h fun i _ t => hf i t

theorem reaches_stage (r : Representation) (cfg : Latched) {stage : Nat} {s : State} (h : Alone s)
    (hs : stage < cfg.l) :
    Reaches (goto r cfg false (.stages stage 0 0) s)
      (goto r cfg false (.stages (stage + 1) 0 0)
        (forRange (2 ^ stage)
          (fun part => forRange (halfPart cfg stage) (stageButterfly r cfg stage part)) s)) := by
  obtain ⟨h1, h2⟩ := reaches_loop (ph := fun part => .stages stage part 0)
    (f := fun part => forRange (halfPart cfg stage) (stageButterfly r cfg stage part))
    (n := 2 ^ stage) (cfg := cfg) (r := r)
    (fun part t ht => alone_forRange (alone_stageButterfly r cfg stage part) ht)
    (fun part hp t ht => (reaches_part r cfg ht hs hp).1) h
  exact h1.trans (reaches_goto h2 (by
    simp only [execTurn]; rw [if_neg (by omega), if_pos (by omega), goto_goto]))

theorem reaches_stages (r : Representation) (cfg : Latched) {s : State} (h : Alone s) :
    Reaches (goto r cfg false (.stages 0 0 0) s) (goto r cfg false (.gather 0) (stages r cfg s)) ∧
      Alone (stages r cfg s) := by
  obtain ⟨h1, h2⟩ := reaches_loop (ph := fun stage => .stages stage 0 0)
    (f := fun stage => forRange (2 ^ stage)
      (fun part => forRange (halfPart cfg stage) (stageButterfly r cfg stage part)))
    (n := cfg.l) (cfg := cfg) (r := r)
    (fun stage t ht => alone_forRange
      (fun part u hu => alone_forRange (alone_stageButterfly r cfg stage part) hu) ht)
    (fun stage hs t ht => reaches_stage r cfg ht hs) h
  exact ⟨h1.trans (reaches_goto h2 (by
    simp only [execTurn]; rw [if_pos (by omega), goto_goto]; rfl)), h2⟩

theorem reaches_permute (r : Representation) (cfg : Latched) {s : State} (h : Alone s) :
    Reaches (goto r cfg false (.gather 0) s) (goto r cfg false (.scale 0) (permute r cfg s)) ∧
      Alone (permute r cfg s) := by
  obtain ⟨h1, h2⟩ := reaches_loop (ph := .gather) (f := gatherSlot r) (n := cfg.n) (cfg := cfg)
    (r := r) (alone_gatherSlot r)
    (fun i hi t ht => reaches_goto ht (by
      simp only [execTurn]
      rw [if_neg (by omega)]
      exact (blind_gatherSlot r i).goto r cfg false _ _ t)) h
  obtain ⟨h3, h4⟩ := reaches_loop (ph := .scatter) (f := scatterSlot r) (n := cfg.n) (cfg := cfg)
    (r := r) (alone_scatterSlot r)
    (fun i hi t ht => reaches_goto ht (by
      simp only [execTurn]
      rw [if_neg (by omega)]
      exact (blind_scatterSlot r i).goto r cfg false _ _ t)) h2
  exact ⟨(h1.trans (reaches_goto h2 (by
    simp only [execTurn]; rw [if_pos (by omega), goto_goto]))).trans
    (h3.trans (reaches_goto h4 (by
      simp only [execTurn]; rw [if_pos (by omega), goto_goto]; rfl))), h4⟩

theorem finishExec_goto (r : Representation) (cfg : Latched) (p : Phase) (s : State) :
    finishExec cfg false (goto r cfg false p s) = { s with seq := none } := rfl

theorem reaches_scale (r : Representation) (cfg : Latched) {s : State} (h : Alone s) :
    Reaches (goto r cfg false (.scale 0) s) { scale r cfg s with seq := none } := by
  unfold scale
  split_ifs with hf
  · exact reaches_goto h (by simp only [execTurn]; rw [if_pos (.inl hf), finishExec_goto])
  · obtain ⟨h1, h2⟩ := reaches_loop (ph := .scale) (f := scaleSlot r cfg) (n := cfg.n) (cfg := cfg)
      (r := r) (alone_scaleSlot r cfg)
      (fun i hi t ht => reaches_goto ht (by
        simp only [execTurn]
        rw [if_neg (by rintro (h | h) <;> [exact hf h; omega])]
        exact (blind_scaleSlot r cfg i).goto r cfg false _ _ t)) h
    exact h1.trans (reaches_goto h2 (by
      simp only [execTurn]; rw [if_pos (.inr (by omega)), finishExec_goto]))

end Sys2Proof.Machine
end

