-- ==== Sys2Proof/Laws/Build.lean ====
section
/-! SUPPORT. The bit-reversal unit: the laws of `bitRev` (41_bitrev.md R142), and that each turn of
BUILD_REV (R141) keeps `buildInv`. -/

namespace Sys2Proof.Machine

/-! ### Bit reversal -/

@[simp] theorem bitRev_zero (l : Nat) : bitRev l 0 = 0 := by
  induction l with
  | zero => rfl
  | succ l ih => simp [bitRev, ih]

theorem bitRev_lt (l i : Nat) : bitRev l i < 2 ^ l := by
  induction l generalizing i with
  | zero => simp [bitRev]
  | succ l ih =>
    have := ih (i / 2)
    have : i % 2 = 0 ∨ i % 2 = 1 := by omega
    rw [bitRev, pow_succ]
    rcases this with h | h <;> rw [h] <;> omega

/-- The bit above the index: it comes out at the mirrored place (R141). -/
theorem bitRev_add {l b j : Nat} (hb : b < l) (hj : j < 2 ^ b) :
    bitRev l (2 ^ b + j) = bitRev l j + 2 ^ (l - (b + 1)) := by
  induction b generalizing l j with
  | zero =>
    obtain ⟨l, rfl⟩ : ∃ k, l = k + 1 := ⟨l - 1, by omega⟩
    have : j = 0 := by simpa using hj
    subst this
    simp [bitRev]
  | succ b ih =>
    obtain ⟨l, rfl⟩ : ∃ k, l = k + 1 := ⟨l - 1, by omega⟩
    have h2 : (2 ^ (b + 1) + j) / 2 = 2 ^ b + j / 2 := by rw [pow_succ]; omega
    have h3 : (2 ^ (b + 1) + j) % 2 = j % 2 := by rw [pow_succ]; omega
    rw [bitRev, bitRev, h2, h3, ih (by omega) (by rw [pow_succ] at hj; omega), Nat.add_sub_add_right]
    omega

/-- Bit k of the reversal is bit l - 1 - k. -/
theorem testBit_bitRev {l k : Nat} (i : Nat) (hk : k < l) :
    (bitRev l i).testBit k = i.testBit (l - 1 - k) := by
  induction l generalizing i with
  | zero => omega
  | succ l ih =>
    rw [bitRev, Nat.mul_comm, Nat.testBit_two_pow_mul_add _ (bitRev_lt l _)]
    split_ifs with h
    · rw [ih _ h, Nat.testBit_div_two]; congr 1; omega
    · rw [show k = l by omega]; simp [Nat.testBit_zero]

/-- The reversal is its own inverse (R149). -/
theorem bitRev_bitRev {l i : Nat} (h : i < 2 ^ l) : bitRev l (bitRev l i) = i := by
  apply Nat.eq_of_testBit_eq
  intro k
  by_cases hk : k < l
  · rw [testBit_bitRev _ hk, testBit_bitRev _ (by omega)]; congr 1; omega
  · have hle : 2 ^ l ≤ 2 ^ k := Nat.pow_le_pow_right (by norm_num) (by omega)
    rw [Nat.testBit_lt_two_pow ((bitRev_lt l _).trans_le hle), Nat.testBit_lt_two_pow (h.trans_le hle)]

theorem bitRev_ones (l : Nat) : bitRev l (2 ^ l - 1) = 2 ^ l - 1 := by
  apply Nat.eq_of_testBit_eq
  intro k
  by_cases hk : k < l
  · rw [testBit_bitRev _ hk]; simp [Nat.testBit_two_pow_sub_one, hk]; omega
  · rw [Nat.testBit_lt_two_pow]
    · simp [Nat.testBit_two_pow_sub_one, hk]
    · exact (bitRev_lt l _).trans_le (Nat.pow_le_pow_right (by norm_num) (by omega))

/-! ### Sizes -/

/-- A valid size is a power of two in range (R146). -/
theorem validSize_iff (p : Params) (size : Nat) :
    validSize p size = true ↔ ∃ l, 1 ≤ l ∧ l ≤ p.log2Nmax ∧ size = 2 ^ l := by
  simp only [validSize, Params.nmax, Bool.and_eq_true, decide_eq_true_eq, beq_iff_eq]
  constructor
  · rintro ⟨⟨h1, h2⟩, h3⟩
    obtain ⟨l, rfl⟩ := (Nat.and_sub_one_eq_zero_iff_isPowerOfTwo (by omega)).mp h3
    refine ⟨l, ?_, (Nat.pow_le_pow_iff_right (a := 2) (by norm_num)).mp (of_decide_eq_true h2), rfl⟩
    rcases l with _ | l
    · norm_num at h1
    · omega
  · rintro ⟨l, h1, h2, rfl⟩
    refine ⟨⟨?_, decide_eq_true (Nat.pow_le_pow_right (n := 2) (by norm_num) h2)⟩,
      (Nat.and_sub_one_eq_zero_iff_isPowerOfTwo (by positivity)).mpr ⟨l, rfl⟩⟩
    calc 2 = 2 ^ 1 := rfl
      _ ≤ 2 ^ l := Nat.pow_le_pow_right (by norm_num) h1

/-! ### Turns of BUILD_REV -/

/-- A write of an entry keeps the form of the table. -/
theorem revInv_writeRev {s : State} {i : Nat} (v : Nat) (h : revInv s) (hi : i < s.params.nmax) :
    revInv (writeRev i v s) := by
  refine ⟨rising_insert _ _ h.1, fun c hc => ?_⟩
  rcases mem_insert hc with rfl | hc
  · exact ⟨hi, revEntry_lt _ _⟩
  · exact h.2 c hc

/-- A bound on the turns a build of size 2^l has still to make: it falls at each. -/
def buildMeasure (l : Nat) : BuildLoop → Nat
  | .start => (l + 1) * (2 ^ l + 2)
  | .fill _ block j => (l - Nat.log2 block) * (2 ^ l + 2) + (2 ^ l - j)

/-- One turn of the build of a table of size 2^l: another turn with the invariant kept, or the
completion with the whole table built. -/
theorem buildInv_turn {l : Nat} (hl : 1 ≤ l) (fwd : Bool) {loop : BuildLoop} {s : State}
    (hle : 2 ^ l ≤ s.params.nmax) (h : buildInv (2 ^ l) s.rev loop) :
    (∃ loop' rev', initTurn (2 ^ l) fwd loop s =
        { s with rev := rev', seq := some (.init (2 ^ l) fwd loop') } ∧
      buildInv (2 ^ l) rev' loop' ∧ buildMeasure l loop' < buildMeasure l loop ∧
      (∀ i, 2 ^ l ≤ i → lookup i rev'.cells = lookup i s.rev.cells) ∧ rev'.draw = s.rev.draw ∧
      (revInv s → revInv { s with rev := rev' })) ∨
    (initTurn (2 ^ l) fwd loop s = finishInit (2 ^ l) fwd s ∧
      ∀ i < 2 ^ l, lookup i s.rev.cells = some (bitRev l i)) := by
  have hpos : 0 < 2 ^ l := by positivity
  cases loop with
  | start =>
    refine .inl ⟨_, _, rfl, ⟨0, by simp, by simp, by simp, by simp, by simp, fun i hi => ?_⟩,
      ?_, fun i hi => lookup_insert_other _ _ (by omega), rfl, fun h => revInv_writeRev 0 h (nmax_pos _)⟩
    swap
    · simp only [buildMeasure, show Nat.log2 1 = 0 from by decide]
      rw [Nat.succ_mul, Nat.sub_zero]; omega
    rw [show i = 0 by omega, bitRev_zero, writeRev_rev, Ram.write_cells, lookup_insert_same,
      revEntry_of_lt (nmax_pos _)]
  | fill half block j =>
    obtain ⟨b, hb, rfl, rfl, hj, hjz, ht⟩ := h
    rw [Nat.log2_two_pow] at hb hjz ht
    have hhalf : 2 ^ l / 2 = 2 ^ (l - 1) := by
      conv_lhs => rw [show l = l - 1 + 1 by omega, pow_succ]
      exact Nat.mul_div_cancel _ (by norm_num)
    simp only [initTurn, hhalf]
    by_cases hbl : b = l
    · refine .inr ⟨?_, ?_⟩
      · rw [if_pos]
        rw [hbl]
        exact Nat.pow_lt_pow_right (by norm_num) (by omega)
      · rw [hjz hbl, hbl] at ht; simpa using ht
    · have hlt : b < l := by omega
      rw [if_neg (by
        have : 2 ^ b ≤ 2 ^ (l - 1) := Nat.pow_le_pow_right (by norm_num) (by omega)
        omega)]
      split_ifs with hjb
      · have hjb : j = 2 ^ b := le_antisymm hj hjb
        refine .inl ⟨_, s.rev, rfl, ⟨b + 1, by rw [Nat.log2_two_pow]; omega, by rw [pow_succ]; ring, ?_,
          by simp, by simp, fun i hi => ?_⟩, ?_, fun i _ => rfl, rfl, id⟩
        · rw [Nat.div_div_eq_div_mul, ← pow_succ]
        · rw [Nat.log2_two_pow]; exact ht i (by omega)
        · have : 2 * 2 ^ b = 2 ^ (b + 1) := by rw [pow_succ]; ring
          simp only [buildMeasure, this, Nat.log2_two_pow]
          rw [show l - b = l - (b + 1) + 1 by omega, Nat.succ_mul]; omega
      · have hsucc : 2 ^ (b + 1) ≤ 2 ^ l := Nat.pow_le_pow_right (by norm_num) (by omega)
        rw [pow_succ] at hsucc
        refine .inl ⟨_, _, rfl, ⟨b, by rw [Nat.log2_two_pow]; omega, rfl, rfl, by omega,
          fun h' => by rw [Nat.log2_two_pow] at h'; omega, fun i hi => ?_⟩,
          ?_, fun i hi => lookup_insert_other _ _ (by omega), rfl, fun h => revInv_writeRev _ h (by omega)⟩
        · rw [Nat.log2_two_pow, writeRev_rev, Ram.write_cells, lookup_insert]
          split_ifs with hi'
          · have hread : readRev s j = bitRev l j := by
              have hj' : bitRev l j < 2 ^ l := bitRev_lt l j
              exact readRev_of_lookup (ht j (by omega)) (by omega)
            have hnew : bitRev l (2 ^ b + j) < 2 ^ l := bitRev_lt l _
            rw [bitRev_add hlt (by omega)] at hnew
            rw [hi', hread, bitRev_add hlt (by omega), Nat.pow_div (by omega) (by norm_num),
              revEntry_of_lt (by omega)]
          · exact ht i (by omega)
        · have : 2 ^ b ≤ 2 ^ l := Nat.pow_le_pow_right (by norm_num) hb
          simp only [buildMeasure]; omega

/-- With the host at rest an INIT in flight runs to its completion. -/
theorem reaches_init {l : Nat} (hl : 1 ≤ l) (fwd : Bool) {loop : BuildLoop} {s : State} (h : Alone s)
    (hle : 2 ^ l ≤ s.params.nmax) (hq : s.seq = some (.init (2 ^ l) fwd loop)) (hb : buildInv (2 ^ l) s.rev loop) :
    ∃ rev', Reaches s (finishInit (2 ^ l) fwd { s with rev := rev' }) ∧
      (∀ i < 2 ^ l, lookup i rev'.cells = some (bitRev l i)) ∧
      (∀ i, 2 ^ l ≤ i → lookup i rev'.cells = lookup i s.rev.cells) ∧ rev'.draw = s.rev.draw := by
  induction hm : buildMeasure l loop using Nat.strong_induction_on generalizing loop s with
  | _ m ih =>
    have hs := step_alone h hq
    rcases buildInv_turn hl fwd hle hb with ⟨loop', rev', he, hb', hlt, hout, hd, -⟩ | ⟨he, ht⟩
    · rw [engineTurn, he] at hs
      obtain ⟨rev'', h1, h2, h3, h4⟩ := ih _ (hm ▸ hlt) (loop := loop')
        (s := { s with rev := rev', seq := some (.init (2 ^ l) fwd loop') }) ⟨h.host, h.pin⟩ hle rfl hb' rfl
      exact ⟨rev'', (Reaches.of_step hs).trans h1, h2, fun i hi => (h3 i hi).trans (hout i hi), h4.trans hd⟩
    · rw [engineTurn, he] at hs
      exact ⟨s.rev, .of_step hs, ht, fun _ _ => rfl, rfl⟩

end Sys2Proof.Machine
end

