-- ==== Sys2Proof/Laws/Float.lean ====
section
/-! SUPPORT. What `roundMag` computes: the nearest representable magnitude, ties to even, and the
infinity from the overflow threshold on (00_scope.md R13, 40_numerics.md R110). -/

namespace Sys2Proof.Machine

/-- The bounds on a format that the laws below use; both formats meet them. -/
structure Fmt.Ok (f : Fmt) : Prop where
  exp  : 3 ≤ f.expBits
  frac : 1 ≤ f.fracBits

theorem binary64_ok : binary64.Ok := ⟨by decide, by decide⟩

theorem binary32_ok : binary32.Ok := ⟨by decide, by decide⟩

/-! ### Magnitudes -/

/-- The pattern with exponent offset `k` and significand `m`. -/
theorem magUnits_pattern {f : Fmt} {k m : Nat} (hm : m < 2 ^ (f.fracBits + 1))
    (hk : k = 0 ∨ 2 ^ f.fracBits ≤ m) : magUnits f (k * 2 ^ f.fracBits + m) = m * 2 ^ k := by
  have hp : 0 < 2 ^ f.fracBits := by positivity
  rw [pow_succ] at hm
  unfold magUnits
  by_cases h : m < 2 ^ f.fracBits
  · obtain rfl : k = 0 := by omega
    rw [Nat.zero_mul, Nat.zero_add, if_pos (Nat.div_eq_of_lt h)]; simp
  · have hd : (k * 2 ^ f.fracBits + m) / 2 ^ f.fracBits = k + 1 := by
      rw [Nat.mul_comm, Nat.mul_add_div hp]
      congr 1
      exact Nat.div_eq_of_lt_le (by omega) (by omega)
    have hr : (k * 2 ^ f.fracBits + m) % 2 ^ f.fracBits = m - 2 ^ f.fracBits := by
      rw [Nat.mul_comm, Nat.mul_add_mod, Nat.mod_eq_sub_mod (by omega), Nat.mod_eq_of_lt (by omega)]
    rw [hd, hr, if_neg (by omega), Nat.add_sub_cancel, Nat.add_sub_cancel' (by omega)]

/-- Every pattern is one with an exponent offset and a significand. -/
theorem exists_pattern (f : Fmt) (a : Nat) :
    ∃ k m, a = k * 2 ^ f.fracBits + m ∧ m < 2 ^ (f.fracBits + 1) ∧ (k = 0 ∨ 2 ^ f.fracBits ≤ m) := by
  have hp : 0 < 2 ^ f.fracBits := by positivity
  have hlt := Nat.mod_lt a hp
  have hdm := Nat.div_add_mod a (2 ^ f.fracBits)
  by_cases h : a / 2 ^ f.fracBits = 0
  · exact ⟨0, a, by simp, by
      have := (Nat.div_eq_zero_iff_lt hp).mp h; rw [pow_succ]; omega, .inl rfl⟩
  · refine ⟨a / 2 ^ f.fracBits - 1, 2 ^ f.fracBits + a % 2 ^ f.fracBits, ?_,
      by rw [pow_succ, mul_two]; exact Nat.add_lt_add_left hlt _, .inr (Nat.le_add_right _ _)⟩
    conv_lhs => rw [← hdm]
    obtain ⟨q, hq⟩ : ∃ q, a / 2 ^ f.fracBits = q + 1 := Nat.exists_eq_succ_of_ne_zero h
    rw [hq, Nat.add_sub_cancel]; ring

/-- The value one pattern further: one unit of the exponent offset more. -/
theorem magUnits_succ {f : Fmt} {k m : Nat} (hm : m < 2 ^ (f.fracBits + 1))
    (hk : k = 0 ∨ 2 ^ f.fracBits ≤ m) :
    magUnits f (k * 2 ^ f.fracBits + m + 1) = (m + 1) * 2 ^ k := by
  by_cases h : m + 1 < 2 ^ (f.fracBits + 1)
  · rw [Nat.add_assoc]
    exact magUnits_pattern h (hk.imp id fun h => by omega)
  · have hm' : m + 1 = 2 ^ (f.fracBits + 1) := by omega
    have : k * 2 ^ f.fracBits + m + 1 = (k + 1) * 2 ^ f.fracBits + 2 ^ f.fracBits := by
      rw [Nat.add_assoc, hm', pow_succ]; ring
    rw [this, magUnits_pattern (by rw [pow_succ]; have : 0 < 2 ^ f.fracBits := by positivity
                                   omega) (.inr le_rfl), hm', pow_succ, pow_succ]
    ring

theorem magUnits_lt_succ (f : Fmt) (a : Nat) : magUnits f a < magUnits f (a + 1) := by
  obtain ⟨k, m, rfl, hm, hk⟩ := exists_pattern f a
  rw [magUnits_pattern hm hk, magUnits_succ hm hk]
  have : 0 < 2 ^ k := by positivity
  nlinarith

theorem magUnits_strictMono (f : Fmt) : StrictMono (magUnits f) :=
  strictMono_nat_of_lt_succ (magUnits_lt_succ f)

@[simp] theorem magUnits_zero (f : Fmt) : magUnits f 0 = 0 := by simp [magUnits]

/-! ### Rounding -/

/-- What the rounded significand is made of: the quotient falls between two neighbours. -/
theorem roundMag_parts (f : Fmt) (num : Nat) {den : Nat} (hd : 0 < den) :
    ∃ k m r, num = m * (den * 2 ^ k) + r ∧ r < den * 2 ^ k ∧ m < 2 ^ (f.fracBits + 1) ∧
      (k = 0 ∨ 2 ^ f.fracBits ≤ m) ∧
      roundMag f num den = min (k * 2 ^ f.fracBits + m +
        (if den * 2 ^ k < 2 * r ∨ (2 * r = den * 2 ^ k ∧ m % 2 = 1) then 1 else 0)) f.infBits := by
  set k := Nat.log2 (num / den) - f.fracBits with hk
  have hpos : 0 < den * 2 ^ k := by positivity
  refine ⟨k, num / (den * 2 ^ k), num % (den * 2 ^ k), ?_, Nat.mod_lt _ hpos, ?_, ?_, ?_⟩
  · rw [Nat.mul_comm]; exact (Nat.div_add_mod _ _).symm
  · rw [← Nat.div_div_eq_div_mul]
    rcases Nat.eq_zero_or_pos (num / den) with h | h
    · rw [h, Nat.zero_div]; positivity
    · rw [Nat.div_lt_iff_lt_mul (by positivity), ← pow_add]
      exact Nat.lt_log2_self.trans_le (Nat.pow_le_pow_right (by norm_num) (by omega))
  · rcases Nat.eq_zero_or_pos k with h | h
    · exact .inl h
    · right
      rw [← Nat.div_div_eq_div_mul, Nat.le_div_iff_mul_le (by positivity), ← pow_add]
      have hne : num / den ≠ 0 := fun h0 => by rw [h0] at hk; simp at hk; omega
      rw [show f.fracBits + k = Nat.log2 (num / den) by omega]
      exact Nat.log2_self_le hne
  · simp only [roundMag, ← hk]
    rw [Nat.add_assoc]
    congr 3
    split_ifs with h
    · rcases h with h | ⟨h, h'⟩
      · simp [h]
      · simp [h, h']
    · push Not at h
      have h1 : ¬ den * 2 ^ k < 2 * (num % (den * 2 ^ k)) := by omega
      simp only [decide_eq_false h1, Bool.false_or]
      by_cases he : 2 * (num % (den * 2 ^ k)) = den * 2 ^ k
      · have := h.2 he
        simp [he, show num / (den * 2 ^ k) % 2 = 0 by omega]
      · simp [he]

/-- Twice the least magnitude, in units, that rounds to ∞, halved: `Fmt.overflowAt` in units. -/
def overflowUnits (f : Fmt) : Nat := (2 ^ (f.fracBits + 2) - 1) * 2 ^ (2 ^ f.expBits - 4)

/-- Below the overflow threshold the rounded pattern is finite and made as `roundMag_parts` says; from
the threshold on it is the infinity. -/
theorem roundMag_range {f : Fmt} (hf : f.Ok) {k m r d den : Nat} (hd : 0 < den)
    (hdk : d = den * 2 ^ k) (hr : r < d) (hm : m < 2 ^ (f.fracBits + 1))
    (hk : k = 0 ∨ 2 ^ f.fracBits ≤ m) :
    (m * d + r < den * overflowUnits f →
      k * 2 ^ f.fracBits + m + (if d < 2 * r ∨ (2 * r = d ∧ m % 2 = 1) then 1 else 0) < f.infBits) ∧
    (den * overflowUnits f ≤ m * d + r →
      f.infBits ≤ k * 2 ^ f.fracBits + m + (if d < 2 * r ∨ (2 * r = d ∧ m % 2 = 1) then 1 else 0)) := by
  obtain ⟨e, he⟩ : ∃ e, 2 ^ f.expBits = e + 4 := by
    have : 2 ^ 3 ≤ 2 ^ f.expBits := Nat.pow_le_pow_right (by norm_num) hf.exp
    exact ⟨2 ^ f.expBits - 4, by omega⟩
  obtain ⟨P, hP⟩ : ∃ P, 2 ^ f.fracBits = P := ⟨_, rfl⟩
  have hP1 : 0 < P := hP ▸ by positivity
  have hP2 : P % 2 = 0 := by
    obtain ⟨b, hb⟩ : ∃ b, f.fracBits = b + 1 := ⟨f.fracBits - 1, by have := hf.frac; omega⟩
    rw [← hP, hb, pow_succ]; omega
  have hov : overflowUnits f = (4 * P - 1) * 2 ^ e := by
    rw [overflowUnits, he, Nat.add_sub_cancel, pow_add, hP]; congr 2; omega
  have hinf : f.infBits = (e + 3) * P := by rw [Fmt.infBits, he, hP]; rfl
  rw [pow_succ, hP] at hm
  rw [hP] at hk
  rw [hov, hinf, hP]
  rcases lt_trichotomy k (e + 1) with h | h | h
  · -- the value is below 2^(fracBits + 1 + e), so it is finite and below the threshold
    have hke : den * 2 ^ k ≤ den * 2 ^ e := Nat.mul_le_mul_left _ (Nat.pow_le_pow_right (by norm_num) (by omega))
    have hlt : m * d + r < den * ((4 * P - 1) * 2 ^ e) := by
      have h1 : m * d + r < 2 * P * (den * 2 ^ e) := by
        calc m * d + r < (m + 1) * d := by rw [Nat.succ_mul]; omega
          _ ≤ (2 * P) * (den * 2 ^ e) := Nat.mul_le_mul (by omega) (hdk ▸ hke)
      have h2 : 2 * P * (den * 2 ^ e) ≤ (4 * P - 1) * (den * 2 ^ e) := Nat.mul_le_mul_right _ (by omega)
      calc m * d + r < (4 * P - 1) * (den * 2 ^ e) := h1.trans_le h2
        _ = den * ((4 * P - 1) * 2 ^ e) := by ring
    refine ⟨fun _ => ?_, fun h' => absurd hlt (by omega)⟩
    have : k * P ≤ e * P := Nat.mul_le_mul_right _ (by omega)
    rw [show (e + 3) * P = e * P + 3 * P by ring]
    split_ifs <;> omega
  · subst h
    have hm' : P ≤ m := by omega
    have hd2 : d = 2 * (den * 2 ^ e) := by rw [hdk, pow_succ]; ring
    have key : den * ((4 * P - 1) * 2 ^ e) = (2 * P - 1) * d + den * 2 ^ e := by
      rw [hd2]
      obtain ⟨q, rfl⟩ : ∃ q, P = q + 1 := ⟨P - 1, by omega⟩
      rw [show 4 * (q + 1) - 1 = 4 * q + 3 by omega, show 2 * (q + 1) - 1 = 2 * q + 1 by omega]; ring
    rw [key, show (e + 3) * P = (e + 1) * P + 2 * P by ring]
    have hpos : 0 < den * 2 ^ e := by positivity
    generalize den * 2 ^ e = c at *
    by_cases hmax : m = 2 * P - 1
    · subst hmax
      constructor
      · intro h'
        rw [if_neg (by omega)]; omega
      · intro h'
        rw [if_pos (by omega)]; omega
    · have hle : (m + 1) * d ≤ (2 * P - 1) * d := Nat.mul_le_mul_right _ (by omega)
      rw [Nat.succ_mul] at hle
      refine ⟨fun _ => ?_, fun h' => absurd h' (by omega)⟩
      split_ifs <;> omega
  · have hm' : P ≤ m := by omega
    have hke : (e + 2) * P ≤ k * P := Nat.mul_le_mul_right _ (by omega)
    have h4 : den * 2 ^ (e + 2) ≤ d := hdk ▸ Nat.mul_le_mul_left _ (Nat.pow_le_pow_right (by norm_num) (by omega))
    have hge : den * ((4 * P - 1) * 2 ^ e) ≤ m * d + r := by
      calc den * ((4 * P - 1) * 2 ^ e) ≤ den * ((4 * P) * 2 ^ e) :=
            Nat.mul_le_mul_left _ (Nat.mul_le_mul_right _ (by omega))
        _ = P * (den * 2 ^ (e + 2)) := by rw [pow_add]; ring
        _ ≤ m * d := Nat.mul_le_mul hm' h4
        _ ≤ m * d + r := Nat.le_add_right _ _
    refine ⟨fun h' => absurd hge (by omega), fun _ => ?_⟩
    rw [show (e + 3) * P = (e + 2) * P + P by ring]
    split_ifs <;> omega

/-- From the overflow threshold on the rounded magnitude is the infinity. -/
theorem roundMag_overflow {f : Fmt} (hf : f.Ok) {num den : Nat} (hd : 0 < den)
    (h : den * overflowUnits f ≤ num) : roundMag f num den = f.infBits := by
  obtain ⟨k, m, r, hnum, hr, hm, hk, e⟩ := roundMag_parts f num hd
  rw [e]
  exact min_eq_right ((roundMag_range hf hd rfl hr hm hk).2 (hnum ▸ h))

/-- Below it the rounded magnitude is finite, no magnitude is nearer to `num / den` units, and if
another value is as near its pattern is even. -/
theorem roundMag_nearest {f : Fmt} (hf : f.Ok) {num den : Nat} (hd : 0 < den)
    (h : num < den * overflowUnits f) :
    roundMag f num den < f.infBits ∧ ∀ z,
      |(magUnits f (roundMag f num den) : ℤ) * den - num| ≤ |(magUnits f z : ℤ) * den - num| ∧
      (|(magUnits f (roundMag f num den) : ℤ) * den - num| = |(magUnits f z : ℤ) * den - num| →
        magUnits f z = magUnits f (roundMag f num den) ∨ roundMag f num den % 2 = 0) := by
  obtain ⟨k, m, r, hnum, hr, hm, hk, e⟩ := roundMag_parts f num hd
  have hlt := (roundMag_range hf hd rfl hr hm hk).1 (hnum ▸ h)
  rw [min_eq_left hlt.le] at e
  refine ⟨by rw [e]; exact hlt, fun z => ?_⟩
  have hlo := magUnits_pattern hm hk
  have hhi := magUnits_succ hm hk
  have hcase : magUnits f z ≤ m * 2 ^ k ∨ (m + 1) * 2 ^ k ≤ magUnits f z := by
    rcases Nat.lt_or_ge (k * 2 ^ f.fracBits + m) z with h' | h'
    · right; rw [← hhi]; exact (magUnits_strictMono f).monotone h'
    · left; rw [← hlo]; exact (magUnits_strictMono f).monotone h'
  have heven : 2 ^ f.fracBits % 2 = 0 := by
    obtain ⟨b, hb⟩ : ∃ b, f.fracBits = b + 1 := ⟨f.fracBits - 1, by have := hf.frac; omega⟩
    rw [hb, pow_succ]; omega
  have hpar : (k * 2 ^ f.fracBits) % 2 = 0 := by rw [Nat.mul_mod, heven]; simp
  have hval : ∀ u : ℕ, (u : ℤ) * den - num = (u * den : ℕ) - (num : ℤ) := fun u => by push_cast; ring
  have hZ : (magUnits f z * den ≤ m * (den * 2 ^ k)) ∨ ((m + 1) * (den * 2 ^ k) ≤ magUnits f z * den) := by
    rcases hcase with h' | h'
    · left
      calc magUnits f z * den ≤ m * 2 ^ k * den := Nat.mul_le_mul_right _ h'
        _ = m * (den * 2 ^ k) := by ring
    · right
      calc (m + 1) * (den * 2 ^ k) = (m + 1) * 2 ^ k * den := by ring
        _ ≤ magUnits f z * den := Nat.mul_le_mul_right _ h'
  have hinj : ∀ u, magUnits f z * den = u * den → magUnits f z = u := fun u h' =>
    Nat.eq_of_mul_eq_mul_right hd h'
  rw [Nat.succ_mul] at hZ
  split_ifs at e with hup
  · have hw : magUnits f (roundMag f num den) = (m + 1) * 2 ^ k := by rw [e, hhi]
    have hwd : magUnits f (roundMag f num den) * den = m * (den * 2 ^ k) + den * 2 ^ k := by rw [hw]; ring
    have hiv := hinj (magUnits f (roundMag f num den))
    rw [hval, hval]
    generalize magUnits f (roundMag f num den) = w at *
    generalize magUnits f z = y at *
    generalize m * (den * 2 ^ k) = M at *
    generalize den * 2 ^ k = D at *
    subst hnum
    rw [hwd]
    simp only [abs_eq_max_neg]
    constructor
    · omega
    · intro h'
      rcases hZ with hz | hz
      · right; omega
      · left; exact hiv (by omega)
  · have hw : magUnits f (roundMag f num den) = m * 2 ^ k := by rw [e, Nat.add_zero, hlo]
    have hwd : magUnits f (roundMag f num den) * den = m * (den * 2 ^ k) := by rw [hw]; ring
    have hiv := hinj (magUnits f (roundMag f num den))
    rw [hval, hval]
    generalize magUnits f (roundMag f num den) = w at *
    generalize magUnits f z = y at *
    generalize m * (den * 2 ^ k) = M at *
    generalize den * 2 ^ k = D at *
    subst hnum
    rw [hwd]
    simp only [abs_eq_max_neg]
    constructor
    · omega
    · intro h'
      rcases hZ with hz | hz
      · left; exact hiv (by omega)
      · right; omega

/-! ### Patterns with a sign -/

theorem infBits_lt_signWeight {f : Fmt} (hf : f.Ok) : f.infBits + 1 < f.signWeight := by
  have h1 : 2 ^ 1 ≤ 2 ^ f.fracBits := Nat.pow_le_pow_right (by norm_num) hf.frac
  have h2 : 0 < 2 ^ f.expBits := by positivity
  have h3 : (2 ^ f.expBits - 1) * 2 ^ f.fracBits + 2 ^ f.fracBits = 2 ^ f.expBits * 2 ^ f.fracBits := by
    obtain ⟨e, he⟩ : ∃ e, 2 ^ f.expBits = e + 1 := ⟨2 ^ f.expBits - 1, by omega⟩
    rw [he]; simp [Nat.succ_mul]
  rw [Fmt.signWeight, Fmt.infBits, pow_add]
  omega

theorem roundMag_le (f : Fmt) (num den : Nat) : roundMag f num den ≤ f.infBits := min_le_right _ _

/-- Every pattern is a sign and a magnitude. -/
theorem exists_signed {f : Fmt} {x : Nat} (hx : x < 2 * f.signWeight) :
    ∃ neg a, a < f.signWeight ∧ x = signed f neg a := by
  by_cases h : f.signWeight ≤ x
  · exact ⟨true, x - f.signWeight, by omega, by simp [signed]; omega⟩
  · exact ⟨false, x, by omega, by simp [signed]⟩

/-- The sign bit of a pattern. -/
theorem signWeight_le_signed {f : Fmt} (neg : Bool) {a : Nat} (ha : a < f.signWeight) :
    decide (f.signWeight ≤ signed f neg a) = neg := by
  cases neg <;> simp [signed]; omega

/-- Reading back a sign and a magnitude. -/
theorem unpack_signed_eq (f : Fmt) (neg : Bool) {a : Nat} (ha : a < f.signWeight) :
    unpack f (signed f neg a) =
      if f.infBits < a then .nan else if a = f.infBits then .inf neg else .fin neg (magUnits f a) := by
  have h1 : signed f neg a % f.signWeight = a := by
    cases neg <;> simp [signed, Nat.mod_eq_of_lt ha]
  have h2 : (signed f neg a / f.signWeight % 2 == 1) = neg := by
    cases neg
    · simp [signed, Nat.div_eq_of_lt ha]
    · simp [signed, Nat.add_div_left _ (show 0 < f.signWeight by omega), Nat.div_eq_of_lt ha]
  simp only [unpack, h1, h2]

/-- The sign a pattern is read with is its sign bit. -/
theorem sign_of_unpack {f : Fmt} {x : Nat} (hx : x < 2 * f.signWeight) :
    (∀ a, unpack f x = .inf a → decide (f.signWeight ≤ x) = a) ∧
    (∀ a u, unpack f x = .fin a u → decide (f.signWeight ≤ x) = a) := by
  obtain ⟨neg, m, hm, rfl⟩ := exists_signed hx
  rw [signWeight_le_signed neg hm, unpack_signed_eq f neg hm]
  split_ifs <;> simp

/-- What a pattern is read as after its sign bit is flipped (40_numerics.md R117). -/
theorem unpack_fneg {f : Fmt} {x : Nat} (hx : x < 2 * f.signWeight) :
    (unpack f x = .nan → unpack f (fneg f x) = .nan) ∧
    (∀ a, unpack f x = .inf a → unpack f (fneg f x) = .inf (!a)) ∧
    (∀ a u, unpack f x = .fin a u → unpack f (fneg f x) = .fin (!a) u) := by
  obtain ⟨neg, m, hm, rfl⟩ := exists_signed hx
  have hn : fneg f (signed f neg m) = signed f (!neg) m := by
    cases neg
    · simp [fneg, signed, Nat.div_eq_of_lt hm, Nat.add_comm]
    · simp [fneg, signed, Nat.add_div_left _ (show 0 < f.signWeight by omega), Nat.div_eq_of_lt hm]
  rw [hn, unpack_signed_eq f _ hm, unpack_signed_eq f _ hm]
  split_ifs <;> simp

/-- Reading back a sign and a magnitude that is finite. -/
theorem unpack_signed {f : Fmt} (hf : f.Ok) (neg : Bool) {a : Nat} (ha : a < f.infBits) :
    unpack f (signed f neg a) = .fin neg (magUnits f a) := by
  have hs := infBits_lt_signWeight hf
  rw [unpack_signed_eq f neg (by omega), if_neg (by omega), if_neg (by omega)]

/-- Reading back an infinity. -/
theorem unpack_signed_inf {f : Fmt} (hf : f.Ok) (neg : Bool) :
    unpack f (signed f neg f.infBits) = .inf neg := by
  have hs := infBits_lt_signWeight hf
  rw [unpack_signed_eq f neg (by omega), if_neg (by omega), if_pos rfl]

/-- A finite pattern is a sign and a magnitude below the infinity. -/
theorem isFinite_inv {f : Fmt} {w : Nat} (h : f.isFinite w) :
    ∃ neg a, a < f.infBits ∧ unpack f w = .fin neg (magUnits f a) := by
  obtain ⟨neg, u, hu⟩ := h
  simp only [unpack] at hu ⊢
  split_ifs at hu ⊢ with h1 h2
  exact ⟨_, _, by omega, rfl⟩

theorem value_of_unpack {f : Fmt} {w u : Nat} {neg : Bool} (h : unpack f w = .fin neg u) :
    f.value w = (signedUnits neg u : ℚ) / 2 ^ f.scale := by simp [Fmt.value, h]

theorem signed_mod_two {f : Fmt} (hf : f.Ok) (neg : Bool) (a : Nat) : signed f neg a % 2 = a % 2 := by
  have : f.signWeight % 2 = 0 := by
    obtain ⟨b, hb⟩ : ∃ b, f.expBits + f.fracBits = b + 1 :=
      ⟨f.expBits + f.fracBits - 1, by have := hf.frac; omega⟩
    rw [Fmt.signWeight, hb, pow_succ]; omega
  unfold signed
  cases neg
  · simp
  · simp only [if_true]; omega

theorem overflowAt_eq (f : Fmt) : f.overflowAt = (overflowUnits f : ℚ) / 2 ^ f.scale := by
  unfold Fmt.overflowAt overflowUnits
  have h : 1 ≤ 2 ^ (f.fracBits + 2) := Nat.one_le_two_pow
  push_cast [Nat.cast_sub h]
  rfl

/-- The correct rounding of a signed ratio of units: what every operation of Float.lean and every ROM
entry ends with. -/
theorem roundsTo_signed {f : Fmt} (hf : f.Ok) (neg : Bool) (num : Nat) {den : Nat} (hd : 0 < den) :
    RoundsTo f ((signedUnits neg num : ℝ) / (den * 2 ^ f.scale)) (signed f neg (roundMag f num den)) := by
  have hS : (0 : ℝ) < 2 ^ f.scale := by positivity
  have hD : (0 : ℝ) < den := by exact_mod_cast hd
  have habs : |(signedUnits neg num : ℝ) / (den * 2 ^ f.scale)| = num / (den * 2 ^ f.scale) := by
    rw [abs_div, abs_of_pos (mul_pos hD hS)]
    congr 1
    cases neg <;> simp [signedUnits]
  have hcmp : |(signedUnits neg num : ℝ) / (den * 2 ^ f.scale)| < (f.overflowAt : ℝ) ↔
      num < den * overflowUnits f := by
    rw [habs, overflowAt_eq]
    push_cast
    rw [← div_div, div_lt_div_iff_of_pos_right hS, div_lt_iff₀' hD]
    exact_mod_cast Iff.rfl
  unfold RoundsTo
  split_ifs with h
  · obtain ⟨hfin, hnear⟩ := roundMag_nearest hf hd (hcmp.mp h)
    have hw := unpack_signed hf neg hfin
    refine ⟨⟨_, _, hw⟩, fun z hz => ?_⟩
    obtain ⟨neg', a, ha, hz'⟩ := isFinite_inv hz
    rw [value_of_unpack hw, value_of_unpack hz', signed_mod_two hf]
    -- with the same sign the distances are those of the magnitudes; with another sign z is no nearer
    -- than 0, which is a magnitude too
    have hdist : ∀ (x y : ℤ), |((x : ℚ) / 2 ^ f.scale : ℚ) - (y : ℝ) / (den * 2 ^ f.scale)| =
        |((x * den - y : ℤ) : ℝ)| / (den * 2 ^ f.scale) := fun x y => by
      rw [← abs_of_pos (mul_pos hD hS), ← abs_div, abs_of_pos (mul_pos hD hS)]
      congr 1
      push_cast
      field_simp
    rw [hdist, hdist, div_le_div_iff_of_pos_right (mul_pos hD hS),
      div_left_inj' (mul_pos hD hS).ne', div_left_inj' (by positivity)]
    norm_cast
    have hn := hnear a
    have h0 := hnear 0
    rw [magUnits_zero] at h0
    generalize magUnits f (roundMag f num den) = w at *
    generalize magUnits f a = y at *
    have hwd : (0 : ℤ) ≤ (w : ℤ) * den := by positivity
    have hyd : (0 : ℤ) ≤ (y : ℤ) * den := by positivity
    have hy0 : (y : ℤ) * den = 0 → y = 0 := fun h' => by
      rcases mul_eq_zero.mp h' with h' | h'
      · exact_mod_cast h'
      · have : den = 0 := by exact_mod_cast h'
        omega
    cases neg <;> cases neg' <;> simp only [signedUnits, Bool.false_eq_true, if_false, if_true, neg_mul] <;>
      generalize (w : ℤ) * den = W at * <;> generalize hY : (y : ℤ) * den = Y at * <;>
      simp only [abs_eq_max_neg] at * <;> omega
  · have hge : den * overflowUnits f ≤ num := by rw [hcmp] at h; omega
    rw [roundMag_overflow hf hd hge]
    have hov : 0 < overflowUnits f := by
      have : 2 ^ 0 < 2 ^ (f.fracBits + 2) := Nat.pow_lt_pow_right (by norm_num) (by omega)
      exact Nat.mul_pos (by omega) (by positivity)
    have hnum : (0 : ℝ) < num := by
      have : 0 < num := (Nat.mul_pos hd hov).trans_le hge
      exact_mod_cast this
    cases neg
    · left; exact ⟨by simp only [signedUnits, Bool.false_eq_true, if_false]; push_cast; positivity, rfl⟩
    · right
      refine ⟨?_, rfl⟩
      simp only [signedUnits, if_true]
      push_cast
      rw [neg_div]
      exact neg_neg_of_pos (by positivity)

end Sys2Proof.Machine
end

