-- ==== Sys2Proof/Laws/Invariant.lean ====
section
/-! SUPPORT. The parts of a step and the invariant of Safety.lean: which of them keep it. -/

namespace Sys2Proof.Machine

/-- The invariant says nothing of the host's list, the answers, the faults, the draws and the reset
input. -/
theorem State.Inv.records {s : State} (h : s.Inv) (pin : Bool) (ops : List HostOp) (rs : List Response)
    (fs : List Fault) (d : Nat) :
    ({ s with resetPin := pin, host := ops, resp := rs, faults := fs, draws := d } : State).Inv :=
  ⟨h.params, h.win, h.err, h.mem, h.window, h.rev, h.scr, h.config, h.table, h.job⟩

/-- A running EXEC has the configuration as it stands: a power of two, within NMAX. -/
theorem State.Inv.exec {s : State} (h : s.Inv) {r : Representation} {cfg : Latched} {ph : Phase} {hz : Bool}
    (hq : s.seq = some (.exec r cfg ph hz)) :
    s.ctl = .ready ∧ cfg = latch s ∧ cfg.n = 2 ^ cfg.l ∧ cfg.n ≤ s.params.nmax := by
  have hj : s.ctl = .ready ∧ cfg = latch s := by simpa [jobInv, hq] using h.job
  obtain ⟨hc, rfl⟩ := hj
  obtain ⟨-, h2, h3⟩ := h.config hc
  refine ⟨hc, rfl, h3, ?_⟩
  show s.n ≤ _
  rw [h3]
  exact Nat.pow_le_pow_right (by norm_num) h2

/-- While an EXEC runs the table is whole. -/
theorem State.Inv.exec_table {s : State} (h : s.Inv) {r : Representation} {cfg : Latched} {ph : Phase}
    {hz : Bool} (hq : s.seq = some (.exec r cfg ph hz)) :
    ∀ i < s.n, lookup i s.rev.cells = some (bitRev s.l i) :=
  h.table (h.exec hq).1 (by simp [initRunning, hq])

/-- The turns of an EXEC that stay inside its slots. -/
theorem State.Inv.touches {s t : State} (h : s.Inv) {r : Representation} {cfg : Latched} {ph : Phase}
    (ph' : Phase) {hz : Bool} (hq : s.seq = some (.exec r cfg ph hz)) (ht : Touches cfg.n s t) :
    (goto r cfg hz ph' t).Inv := by
  obtain ⟨hc, hl, -, hle⟩ := h.exec hq
  have htab := h.exec_table hq
  have e : ∀ {α} (g : State → α), g { t with mem := s.mem, scr := s.scr, ovf := s.ovf } = g s :=
    fun g => congrArg g ht.frame
  have e1 := e (·.params)
  have e2 := e (·.win)
  have e3 := e (·.err)
  have e4 := e (·.rev)
  have e5 := e (·.ctl)
  have e6 := e (·.n)
  have e7 := e (·.l)
  have e8 := e (·.fwd)
  dsimp only at e1 e2 e3 e4 e5 e6 e7 e8
  exact {
    params := by simp [e1, h.params]
    win := by simp [e2, h.win]
    err := by simp [e3, h.err]
    mem := by simpa [Memory.wf] using ht.rising h.mem
    window := fun c hcm => by
      rcases ht.cells c hcm with hs | hs
      · simp only [inSlots] at hs
        simp only [goto_params, e1]
        omega
      · simpa [e1] using h.window c hs
    rev := by simpa [revInv, e1, e4] using h.rev
    scr := by simpa using ht.scr h.scr
    config := by simpa [configInv, e1, e5, e6, e7] using h.config
    table := by simpa [tableInv, initRunning, e4, e5, e6, e7] using fun _ => htab
    job := by simp [jobInv, latch, e2, e5, e6, e7, e8, hc, hl] }

/-- Freed slots keep the canonical form and the window. -/
theorem State.Inv.freed {s : State} (h : s.Inv) {n : Nat} (hn : n ≤ s.params.nmax) :
    rising (freeSlots n s).mem.cells = true ∧
      ∀ c ∈ (freeSlots n s).mem.cells, sampleBase ≤ c.1 ∧ c.1 < sampleBase + 16 * s.params.nmax := by
  refine ⟨rising_freeSlots n h.mem, fun c hc => ?_⟩
  rcases mem_freeSlots hc with h1 | h1
  · simp only [inSlots] at h1; omega
  · exact h.window c h1

/-- The completion of an EXEC. -/
theorem State.Inv.finishExec {s : State} (h : s.Inv) {r : Representation} {cfg : Latched} {ph : Phase}
    {hz : Bool} (hq : s.seq = some (.exec r cfg ph hz)) : (Machine.finishExec cfg hz s).Inv := by
  have htab := h.exec_table hq
  unfold Machine.finishExec
  split_ifs
  · obtain ⟨h1, h2⟩ := h.freed (h.exec hq).2.2.2
    have e := freeSlots_eq cfg.n s
    generalize (freeSlots cfg.n s).mem = m at *
    rw [e]
    exact ⟨h.params, h.win, h.err, h1, h2, h.rev, h.scr, h.config, fun _ _ => htab, trivial⟩
  · exact ⟨h.params, h.win, h.err, h.mem, h.window, h.rev, h.scr, h.config, fun _ _ => htab, trivial⟩

/-- A turn of the build of INIT. -/
theorem State.Inv.initTurn {s : State} (h : s.Inv) {size : Nat} {fwd : Bool} {loop : BuildLoop}
    (hq : s.seq = some (.init size fwd loop)) : (Machine.initTurn size fwd loop s).Inv := by
  have hj : validSize s.params size = true ∧ buildInv size s.rev loop := by simpa [jobInv, hq] using h.job
  obtain ⟨hv, hb⟩ := hj
  obtain ⟨l, h1, h2, rfl⟩ := (validSize_iff _ _).mp hv
  have hle : 2 ^ l ≤ s.params.nmax := Nat.pow_le_pow_right (by norm_num) h2
  rcases buildInv_turn h1 fwd hle hb with ⟨loop', rev', he, hb', -, -, -, hr⟩ | ⟨he, ht⟩
  · rw [he]
    exact ⟨h.params, h.win, h.err, h.mem, h.window, hr h.rev, h.scr, h.config,
      by simp [tableInv, initRunning], ⟨hv, hb'⟩⟩
  · rw [he]
    refine ⟨h.params, h.win, h.err, h.mem, h.window, h.rev, h.scr, fun _ => ?_, fun _ _ => ?_, trivial⟩
    · simp [finishInit, Nat.log2_two_pow, h1, h2]
    · simpa [Nat.log2_two_pow] using ht

/-- A command. -/
theorem State.Inv.command {i : Instr} {s t : State} (h : s.Inv) (hq : s.seq = none)
    (he : CommandEffect i s t) : t.Inv := by
  rcases he with ⟨e, hw, rfl⟩ | ⟨-, hle, rfl⟩ | ⟨fwd, -, hv, rfl⟩ | ⟨r, -, hr, rfl⟩
  · exact ⟨h.params, h.win, fun hc => h.win (hw hc), h.mem, h.window, h.rev, h.scr, h.config, h.table, h.job⟩
  · refine ⟨h.params, ?_, by simp, h.mem, h.window, h.rev, h.scr, h.config, h.table, by simp [jobInv, hq]⟩
    intro hc
    have := congrArg BitVec.toNat hc
    simp at this
    omega
  · exact ⟨h.params, h.win, by simp, h.mem, h.window, h.rev, h.scr, h.config, by simp [tableInv, initRunning],
      ⟨hv, trivial⟩⟩
  · have htab := h.table hr.1 (by simp [initRunning, hq])
    exact ⟨h.params, h.win, by simp, h.mem, h.window, h.rev, h.scr, h.config, fun _ _ => htab, ⟨hr.1, rfl⟩⟩

/-- A hazard marks the job and records a fault, nothing else. -/
theorem markHazard_inv (s : State) :
    (∃ r cfg ph hz, s.seq = some (.exec r cfg ph hz) ∧
      markHazard s = { s with seq := some (.exec r cfg ph true), faults := .hazard :: s.faults }) ∨
    markHazard s = s := by
  unfold markHazard
  split
  · next r cfg ph hz hq => exact .inl ⟨r, cfg, ph, hz, hq, rfl⟩
  · exact .inr rfl

/-- A write to the sample window changes the sample RAM and, at a hazard, the job and the faults. -/
theorem sampleWrite_frame (addr : Offset) (n : Nat) (v : Word64) (slot : Nat) (s : State) :
    ∃ q f, sampleWrite addr n v slot s =
      { s with mem := writeLE s.mem addr.toNat n v.toNat, seq := q, faults := f } := by
  unfold sampleWrite
  split_ifs
  · rcases markHazard_inv s with ⟨r, cfg, ph, hz, -, e⟩ | e <;> rw [e] <;> exact ⟨_, _, rfl⟩
  · exact ⟨_, _, rfl⟩

theorem State.Inv.markHazard {s : State} (h : s.Inv) : (Machine.markHazard s).Inv := by
  rcases markHazard_inv s with ⟨r, cfg, ph, hz, hq, e⟩ | e
  · obtain ⟨h1, h2, -⟩ := h.exec hq
    have htab := h.exec_table hq
    rw [e]
    exact ⟨h.params, h.win, h.err, h.mem, h.window, h.rev, h.scr, h.config, fun _ _ => htab, ⟨h1, h2⟩⟩
  · rw [e]; exact h

theorem markHazard_params (s : State) : (markHazard s).params = s.params := by
  rcases markHazard_inv s with ⟨_, _, _, _, -, e⟩ | e <;> rw [e]

/-- A host write to the sample window. -/
theorem State.Inv.sampleWrite {s : State} (h : s.Inv) {addr : Offset} {n : Nat} (v : Word64) (slot : Nat)
    (ok : accessOk addr n = true) (lo : sampleBase ≤ addr.toNat)
    (hi : addr.toNat < sampleBase + 16 * s.params.nmax) : (Machine.sampleWrite addr n v slot s).Inv := by
  unfold Machine.sampleWrite
  have ht : (if slotInUse s slot then Machine.markHazard s else s).Inv := by
    split_ifs
    · exact h.markHazard
    · exact h
  have hp : (if slotInUse s slot then Machine.markHazard s else s).params = s.params := by
    split_ifs
    · exact markHazard_params s
    · rfl
  generalize (if slotInUse s slot then Machine.markHazard s else s) = u at *
  refine ⟨ht.params, ht.win, ht.err, ?_, ?_, ht.rev, ht.scr, ht.config, ht.table, ht.job⟩
  · dsimp only; exact rising_writeLE _ _ _ ht.mem
  · dsimp only
    intro c hc
    rcases mem_writeLE hc with h1 | h1
    · have := (accessOk_iff _ _).mp ok
      rw [hp]
      simp only [sampleBase] at *
      omega
    · exact ht.window c h1

end Sys2Proof.Machine
end

