-- ==== Sys2Proof/Laws/PerInstr.lean ====
section
/-! SUPPORT. What holds of every command as syntax, one lemma per constructor (30_encoding.md R81, R87,
R88). -/

namespace Sys2Proof.Laws

/-- A command's fields are legal, put together they are its word, and its word has no reserved bit. -/
def Encoding.Statement (i : Instr) : Prop :=
  i.wf = true ∧ packFields i.fields = encode i ∧ encode i &&& reservedMask = 0#32

theorem Encoding.nop : Encoding.Statement .nop := by unfold Encoding.Statement; decide

theorem Encoding.initI : Encoding.Statement .initI := by unfold Encoding.Statement; decide

theorem Encoding.initF : Encoding.Statement .initF := by unfold Encoding.Statement; decide

theorem Encoding.setwin : Encoding.Statement .setwin := by unfold Encoding.Statement; decide

theorem Encoding.execD : Encoding.Statement .execD := by unfold Encoding.Statement; decide

theorem Encoding.execS : Encoding.Statement .execS := by unfold Encoding.Statement; decide

theorem Encoding.execQ : Encoding.Statement .execQ := by unfold Encoding.Statement; decide

end Sys2Proof.Laws
end

