-- ==== Sys2Proof/Laws/Rom.lean ====
section
/-! SUPPORT. That the ROM entries are the correctly rounded ones, up to a computation (log 11): the
fixed-point cosines and sines of Rom.lean are within 64 units of the exact ones, and an entry is right
when no multiple of a fine grid is near its value. `octantCheck` is that computation for an eighth of
the circle; what follows from its being true is said here. -/

namespace Sys2Proof.Machine

open Real

/-- The fixed-point pair is within `e` and `e'` units of the cosine and the sine of an angle. -/
def Near (u : Int × Int) (θ e e' : ℝ) : Prop :=
  |(u.1 : ℝ) - cos θ * 2 ^ 128| ≤ e ∧ |(u.2 : ℝ) - sin θ * 2 ^ 128| ≤ e'

/-- The cosine of the half angle: `2 c² = 1 + a` in fixed point, up to a residual `r`. -/
theorem half_cos {A C O c κ r e d : ℝ} (hO : 0 < O) (hκ : 0 < κ) (h0 : 0 ≤ c)
    (h : |A - (2 * c ^ 2 - 1) * O| ≤ e) (hA : 2 * κ ^ 2 * O ≤ O + A - e) (hC : κ * O ≤ C)
    (hr : |2 * C ^ 2 - O * O - A * O| ≤ r * O) (hd : r + e ≤ 4 * κ * d) :
    κ ≤ c ∧ |C - c * O| ≤ d := by
  have hcκ : κ ≤ c := by
    have := (abs_le.mp h).2
    have h4 : κ ^ 2 ≤ c ^ 2 := le_of_mul_le_mul_right (a := O) (by linarith) hO
    exact (sq_le_sq₀ hκ.le h0).mp h4
  refine ⟨hcκ, ?_⟩
  have hco : κ * O ≤ c * O := mul_le_mul_of_nonneg_right hcκ hO.le
  have hsum : 0 < C + c * O := by linarith [mul_pos hκ hO]
  have e2 : 2 * |C - c * O| * (C + c * O) ≤ (r + e) * O := by
    have e1 : 2 * |C - c * O| * (C + c * O) = |2 * (C - c * O) * (C + c * O)| := by
      rw [abs_mul, abs_mul, abs_of_pos (zero_lt_two' ℝ), abs_of_pos hsum]
    rw [e1, show 2 * (C - c * O) * (C + c * O) =
      (2 * C ^ 2 - O * O - A * O) + (A - (2 * c ^ 2 - 1) * O) * O by ring]
    refine (abs_add_le _ _).trans ?_
    rw [abs_mul _ O, abs_of_pos hO, add_mul]
    exact add_le_add hr (mul_le_mul_of_nonneg_right h hO.le)
  have e3 : |C - c * O| * (2 * (κ * O)) ≤ |C - c * O| * (C + c * O) :=
    mul_le_mul_of_nonneg_left (by linarith) (abs_nonneg _)
  have e4 : (r + e) * O ≤ 4 * κ * d * O := mul_le_mul_of_nonneg_right hd hO.le
  refine le_of_mul_le_mul_left (a := 4 * κ * O) ?_ (by positivity)
  linarith

/-- The sine of the half angle: `2 c s = b` in fixed point, up to a residual `r`. -/
theorem half_sin {B C S O c s κ σ r e d d' : ℝ} (hO : 0 < O) (hκ : 0 < κ) (h0 : 0 ≤ s)
    (hσ : s ≤ σ) (h : |B - 2 * s * c * O| ≤ e) (hC : κ * O ≤ C) (hc : |C - c * O| ≤ d)
    (hr : |2 * C * S - B * O| ≤ r * O) (hd' : r + e + 2 * σ * d ≤ 2 * κ * d') :
    |S - s * O| ≤ d' := by
  have hC0 : 0 < C := lt_of_lt_of_le (by positivity) hC
  have e2 : 2 * C * |S - s * O| ≤ (r + e + 2 * σ * d) * O := by
    have e1 : 2 * C * |S - s * O| = |2 * C * (S - s * O)| := by
      rw [abs_mul, abs_of_pos (show 0 < 2 * C by positivity)]
    rw [e1, show 2 * C * (S - s * O) =
      (2 * C * S - B * O) + (B - 2 * s * c * O) * O + -(2 * s * O * (C - c * O)) by ring]
    refine (abs_add_le _ _).trans ?_
    rw [abs_neg, abs_mul (2 * s * O), abs_of_nonneg (show 0 ≤ 2 * s * O by positivity)]
    have h1 := abs_add_le (2 * C * S - B * O) ((B - 2 * s * c * O) * O)
    rw [abs_mul _ O, abs_of_pos hO] at h1
    have h2 : |B - 2 * s * c * O| * O ≤ e * O := mul_le_mul_of_nonneg_right h hO.le
    have h3 : s * |C - c * O| * (2 * O) ≤ σ * d * (2 * O) :=
      mul_le_mul_of_nonneg_right (mul_le_mul hσ hc (abs_nonneg _) (h0.trans hσ)) (by positivity)
    linarith
  have e3 : |S - s * O| * (κ * O) ≤ |S - s * O| * C := mul_le_mul_of_nonneg_left hC (abs_nonneg _)
  have e4 : (r + e + 2 * σ * d) * O ≤ 2 * κ * d' * O := mul_le_mul_of_nonneg_right hd' hO.le
  refine le_of_mul_le_mul_left (a := 2 * κ * O) ?_ (by positivity)
  linarith

/-- From an angle to its half. -/
theorem Near.half {u v : Int × Int} {θ e e' κ σ r r' d d' : ℝ} (h : Near u θ e e')
    (h0 : 0 ≤ θ) (hθ : θ ≤ π) (hκ : 0 < κ) (hσ : 0 ≤ σ) (hκσ : 1 - κ ^ 2 ≤ σ ^ 2)
    (hc : 2 * κ ^ 2 * 2 ^ 128 ≤ 2 ^ 128 + (u.1 : ℝ) - e) (hv : κ * 2 ^ 128 ≤ (v.1 : ℝ))
    (hr : |2 * (v.1 : ℝ) ^ 2 - 2 ^ 128 * 2 ^ 128 - u.1 * 2 ^ 128| ≤ r * 2 ^ 128)
    (hr' : |2 * (v.1 : ℝ) * v.2 - u.2 * 2 ^ 128| ≤ r' * 2 ^ 128)
    (hd : r + e ≤ 4 * κ * d) (hd' : r' + e' + 2 * σ * d ≤ 2 * κ * d') :
    Near v (θ / 2) d d' := by
  obtain ⟨h1, h2⟩ := h
  have hcos : cos θ = 2 * cos (θ / 2) ^ 2 - 1 := by rw [← cos_two_mul]; ring_nf
  have hsin : sin θ = 2 * sin (θ / 2) * cos (θ / 2) := by rw [← sin_two_mul]; ring_nf
  have hc0 : 0 ≤ cos (θ / 2) := cos_nonneg_of_mem_Icc ⟨by linarith [pi_pos], by linarith⟩
  have hs0 : 0 ≤ sin (θ / 2) := sin_nonneg_of_nonneg_of_le_pi (by linarith) (by linarith [pi_pos])
  have hsq := sin_sq_add_cos_sq (θ / 2)
  rw [hcos] at h1
  rw [hsin] at h2
  have hO : (0 : ℝ) < 2 ^ 128 := by positivity
  obtain ⟨hcκ, first⟩ := half_cos hO hκ hc0 h1 hc hv hr hd
  refine ⟨first, half_sin hO hκ hs0 ?_ h2 hv first hr' hd'⟩
  have := (sq_le_sq₀ hκ.le hc0).mpr hcκ
  exact (sq_le_sq₀ hs0 hσ).mp (by linarith)

/-- One halving, with its conditions as facts about the integers of the table. -/
theorem Near.next {m : Nat} {e e' : ℝ} (κ σ r r' d d' : ℚ) (h : Near (baseRotation m) (2 * π / 2 ^ m) e e')
    (hm : 1 ≤ m) (hκ : 0 < κ) (hσ : 0 ≤ σ) (hκσ : 1 - κ ^ 2 ≤ σ ^ 2)
    (hc : (2 * κ ^ 2 * 2 ^ 128 : ℝ) ≤ 2 ^ 128 + ((baseRotation m).1 : ℝ) - e)
    (hv : κ * 2 ^ 128 ≤ ((baseRotation (m + 1)).1 : ℚ))
    (hr : |2 * ((baseRotation (m + 1)).1 : ℚ) ^ 2 - 2 ^ 128 * 2 ^ 128 - (baseRotation m).1 * 2 ^ 128| ≤
      r * 2 ^ 128)
    (hr' : |2 * ((baseRotation (m + 1)).1 : ℚ) * (baseRotation (m + 1)).2 - (baseRotation m).2 * 2 ^ 128| ≤
      r' * 2 ^ 128)
    (hd : r + e ≤ 4 * κ * d) (hd' : r' + e' + 2 * σ * d ≤ 2 * κ * d') :
    Near (baseRotation (m + 1)) (2 * π / 2 ^ (m + 1)) d d' := by
  have hθ : 2 * π / 2 ^ (m + 1) = 2 * π / 2 ^ m / 2 := by rw [pow_succ]; field_simp
  rw [hθ]
  refine h.half (κ := κ) (σ := σ) (r := r) (r' := r') (by positivity) ?_ (by exact_mod_cast hκ)
    (by exact_mod_cast hσ) (by exact_mod_cast hκσ) hc (by exact_mod_cast hv) (by exact_mod_cast hr)
    (by exact_mod_cast hr') hd hd'
  have h2 : (2 : ℝ) ^ 1 ≤ 2 ^ m := pow_le_pow_right₀ (by norm_num) hm
  rw [div_le_iff₀ (by positivity)]
  nlinarith [pi_pos]


theorem Near.mono {u : Int × Int} {θ e e' d d' : ℝ} (h : Near u θ e e') (hd : e ≤ d) (hd' : e' ≤ d') :
    Near u θ d d' := ⟨h.1.trans hd, h.2.trans hd'⟩

/-- Every base rotation is within 1 unit of 2^-128. -/
theorem baseRotation_near {m : Nat} (h1 : 1 ≤ m) (h16 : m ≤ 16) :
    Near (baseRotation m) (2 * π / 2 ^ m) 1 1 := by
  have n1 : Near (baseRotation 1) (2 * π / 2 ^ 1) 0 0 := by
    simp [Near, baseRotation, baseRotations]
    norm_num
  have n2 : Near (baseRotation 2) (2 * π / 2 ^ 2) 0 0 := by
    rw [show 2 * π / 2 ^ 2 = π / 2 by ring]
    simp [Near, baseRotation, baseRotations]
    norm_num
  have n3 : Near (baseRotation 3) (2 * π / 2 ^ 3) ((12/100 : ℚ) : ℝ) ((37/100 : ℚ) : ℝ) := by
    apply n2.next (7/10) (3/4) (33/100) (33/100) <;> norm_num [baseRotation, baseRotations, abs_le]
  have n4 : Near (baseRotation 4) (2 * π / 2 ^ 4) ((13/100 : ℚ) : ℝ) ((62/100 : ℚ) : ℝ) := by
    apply n3.next (92/100) (2/5) (34/100) (64/100) <;> norm_num [baseRotation, baseRotations, abs_le]
  have n5 : Near (baseRotation 5) (2 * π / 2 ^ 5) ((1/4 : ℚ) : ℝ) ((42/100 : ℚ) : ℝ) := by
    apply n4.next (98/100) (1/5) (83/100) (8/100) <;> norm_num [baseRotation, baseRotations, abs_le]
  have n6 : Near (baseRotation 6) (2 * π / 2 ^ 6) ((48/100 : ℚ) : ℝ) ((46/100 : ℚ) : ℝ) := by
    apply n5.next (995/1000) (1/10) (163/100) (38/100) <;> norm_num [baseRotation, baseRotations, abs_le]
  have n7 : Near (baseRotation 7) (2 * π / 2 ^ 7) ((41/100 : ℚ) : ℝ) ((27/100 : ℚ) : ℝ) := by
    apply n6.next (998/1000) (64/1000) (112/100) (1/100) <;> norm_num [baseRotation, baseRotations, abs_le]
  have n8 : Near (baseRotation 8) (2 * π / 2 ^ 8) ((4/5 : ℚ) : ℝ) ((1 : ℚ) : ℝ) := by
    apply n7.next (999/1000) (45/1000) (155/100) (72/100) <;> norm_num [baseRotation, baseRotations, abs_le]
  have n9 : Near (baseRotation 9) (2 * π / 2 ^ 9) ((4/5 : ℚ) : ℝ) ((1 : ℚ) : ℝ) := by
    apply n8.next (999/1000) (45/1000) (216/100) (84/100) <;> norm_num [baseRotation, baseRotations, abs_le]
  have n10 : Near (baseRotation 10) (2 * π / 2 ^ 10) ((4/5 : ℚ) : ℝ) ((1 : ℚ) : ℝ) := by
    apply n9.next (999/1000) (45/1000) (216/100) (84/100) <;> norm_num [baseRotation, baseRotations, abs_le]
  have n11 : Near (baseRotation 11) (2 * π / 2 ^ 11) ((4/5 : ℚ) : ℝ) ((1 : ℚ) : ℝ) := by
    apply n10.next (999/1000) (45/1000) (216/100) (84/100) <;> norm_num [baseRotation, baseRotations, abs_le]
  have n12 : Near (baseRotation 12) (2 * π / 2 ^ 12) ((4/5 : ℚ) : ℝ) ((1 : ℚ) : ℝ) := by
    apply n11.next (999/1000) (45/1000) (216/100) (84/100) <;> norm_num [baseRotation, baseRotations, abs_le]
  have n13 : Near (baseRotation 13) (2 * π / 2 ^ 13) ((4/5 : ℚ) : ℝ) ((1 : ℚ) : ℝ) := by
    apply n12.next (999/1000) (45/1000) (216/100) (84/100) <;> norm_num [baseRotation, baseRotations, abs_le]
  have n14 : Near (baseRotation 14) (2 * π / 2 ^ 14) ((4/5 : ℚ) : ℝ) ((1 : ℚ) : ℝ) := by
    apply n13.next (999/1000) (45/1000) (216/100) (84/100) <;> norm_num [baseRotation, baseRotations, abs_le]
  have n15 : Near (baseRotation 15) (2 * π / 2 ^ 15) ((4/5 : ℚ) : ℝ) ((1 : ℚ) : ℝ) := by
    apply n14.next (999/1000) (45/1000) (216/100) (84/100) <;> norm_num [baseRotation, baseRotations, abs_le]
  have n16 : Near (baseRotation 16) (2 * π / 2 ^ 16) ((4/5 : ℚ) : ℝ) ((1 : ℚ) : ℝ) := by
    apply n15.next (999/1000) (45/1000) (216/100) (84/100) <;> norm_num [baseRotation, baseRotations, abs_le]
  have hm : m = 1 ∨ m = 2 ∨ m = 3 ∨ m = 4 ∨ m = 5 ∨ m = 6 ∨ m = 7 ∨ m = 8 ∨ m = 9 ∨ m = 10 ∨ m = 11 ∨
      m = 12 ∨ m = 13 ∨ m = 14 ∨ m = 15 ∨ m = 16 := by omega
  rcases hm with rfl | rfl | rfl | rfl | rfl | rfl | rfl | rfl | rfl | rfl | rfl | rfl | rfl | rfl | rfl | rfl
  exacts [n1.mono (by norm_num) (by norm_num), n2.mono (by norm_num) (by norm_num), n3.mono (by norm_num) (by norm_num), n4.mono (by norm_num) (by norm_num), n5.mono (by norm_num) (by norm_num), n6.mono (by norm_num) (by norm_num), n7.mono (by norm_num) (by norm_num), n8.mono (by norm_num) (by norm_num), n9.mono (by norm_num) (by norm_num), n10.mono (by norm_num) (by norm_num), n11.mono (by norm_num) (by norm_num), n12.mono (by norm_num) (by norm_num), n13.mono (by norm_num) (by norm_num), n14.mono (by norm_num) (by norm_num), n15.mono (by norm_num) (by norm_num), n16.mono (by norm_num) (by norm_num)]

/-! ### Products of base rotations -/

/-- A fixed-point pair as a complex number of units. -/
def toComplex (u : Int × Int) : ℂ := ⟨u.1, u.2⟩

theorem norm_le_of_parts {z : ℂ} {a b c : ℝ} (h1 : |z.re| ≤ a) (h2 : |z.im| ≤ b)
    (hc : 0 ≤ c) (h : a ^ 2 + b ^ 2 ≤ c ^ 2) : ‖z‖ ≤ c := by
  refine (sq_le_sq₀ (norm_nonneg _) hc).mp ?_
  rw [Complex.sq_norm, Complex.normSq_apply]
  nlinarith [sq_abs z.re, sq_abs z.im, abs_nonneg z.re, abs_nonneg z.im]

theorem Near.norm {u : Int × Int} {θ : ℝ} (h : Near u θ 1 1) :
    ‖toComplex u - 2 ^ 128 * Complex.exp (θ * Complex.I)‖ ≤ 3 / 2 := by
  have e : toComplex u - 2 ^ 128 * Complex.exp (θ * Complex.I) =
      ⟨u.1 - cos θ * 2 ^ 128, u.2 - sin θ * 2 ^ 128⟩ := by
    have h128 : (2 ^ 128 : ℂ) = ((2 ^ 128 : ℝ) : ℂ) := by push_cast; rfl
    rw [h128]
    apply Complex.ext <;>
      simp only [toComplex, Complex.sub_re, Complex.sub_im, Complex.re_ofReal_mul, Complex.im_ofReal_mul,
        Complex.exp_ofReal_mul_I_re, Complex.exp_ofReal_mul_I_im] <;> ring
  rw [e]
  exact norm_le_of_parts h.1 h.2 (by norm_num) (by norm_num)

/-- One product: the rounding of each part adds less than 1 unit. -/
theorem turnBy_norm (u v : Int × Int) :
    ‖toComplex (turnBy u v) - toComplex u * toComplex v / 2 ^ 128‖ ≤ 3 / 2 := by
  have part : ∀ x : Int, |(((x / romOne : Int) : ℝ)) - x / 2 ^ 128| ≤ 1 := fun x => by
    have hO : (romOne : ℝ) = 2 ^ 128 := by norm_num [romOne, romBits]
    have h1 := Int.emod_add_mul_ediv x romOne
    have h2 := Int.emod_nonneg x (show romOne ≠ 0 by decide)
    have h3 := Int.emod_lt_of_pos x (show 0 < romOne by decide)
    have e1 : ((x % romOne : Int) : ℝ) + 2 ^ 128 * ((x / romOne : Int) : ℝ) = x := by
      rw [← hO]; exact_mod_cast h1
    have e2 : (0 : ℝ) ≤ ((x % romOne : Int) : ℝ) := by exact_mod_cast h2
    have e3 : ((x % romOne : Int) : ℝ) < 2 ^ 128 := by rw [← hO]; exact_mod_cast h3
    have e4 : ((x / romOne : Int) : ℝ) - x / 2 ^ 128 = -((x % romOne : Int) : ℝ) / 2 ^ 128 := by
      rw [← e1]; field_simp; ring
    rw [e4, abs_div, abs_neg, abs_of_nonneg e2, abs_of_pos (by positivity), div_le_one (by positivity)]
    exact e3.le
  have h128 : (2 ^ 128 : ℂ) = ((2 ^ 128 : ℝ) : ℂ) := by push_cast; rfl
  refine norm_le_of_parts (a := 1) (b := 1) ?_ ?_ (by norm_num) (by norm_num)
  · rw [h128]
    simp only [Complex.sub_re, Complex.div_ofReal_re, Complex.mul_re, toComplex, turnBy]
    exact_mod_cast part (u.1 * v.1 - u.2 * v.2)
  · rw [h128]
    simp only [Complex.sub_im, Complex.div_ofReal_im, Complex.mul_im, toComplex, turnBy]
    exact_mod_cast part (u.1 * v.2 + u.2 * v.1)

/-- The angle of the `m` most significant bits of the index. -/
noncomputable def topAngle (log2 k m : Nat) : ℝ := 2 * π * (k / 2 ^ (log2 - m) : Nat) / 2 ^ m

theorem topAngle_succ {log2 k m : Nat} (hm : m < log2) :
    topAngle log2 k (m + 1) = topAngle log2 k m +
      if k.testBit (log2 - (m + 1)) then 2 * π / 2 ^ (m + 1) else 0 := by
  have e : k / 2 ^ (log2 - (m + 1)) = 2 * (k / 2 ^ (log2 - m)) + (k.testBit (log2 - (m + 1))).toNat := by
    have h1 : log2 - m = log2 - (m + 1) + 1 := by omega
    rw [h1, pow_succ, ← Nat.div_div_eq_div_mul, Nat.toNat_testBit]
    omega
  unfold topAngle
  rw [e, pow_succ]
  push_cast
  cases k.testBit (log2 - (m + 1)) <;> simp <;> field_simp

/-- The rotation by the top `m` bits is within 4 m units of the exact one, as a complex number. -/
theorem rotation_near {log2 k : Nat} (h16 : log2 ≤ 16) (hk : k < 2 ^ log2) :
    ∀ m ≤ log2, ‖toComplex (rotation log2 k m) - 2 ^ 128 * Complex.exp (topAngle log2 k m * Complex.I)‖ ≤
      4 * m := by
  intro m
  induction m with
  | zero =>
    intro _
    have : topAngle log2 k 0 = 0 := by simp [topAngle, Nat.div_eq_of_lt hk]
    have e : toComplex (romOne, 0) = 2 ^ 128 := by
      apply Complex.ext <;> norm_num [toComplex, romOne, romBits]
    simp [rotation, this, e]
  | succ m ih =>
    intro hm
    have ih := ih (by omega)
    rw [topAngle_succ (by omega), rotation]
    split_ifs with hb
    · have hB := (baseRotation_near (m := m + 1) (by omega) (by omega)).norm
      have hT := turnBy_norm (rotation log2 k m) (baseRotation (m + 1))
      generalize baseRotation (m + 1) = v at *
      generalize rotation log2 k m = u at *
      generalize topAngle log2 k m = θ at *
      generalize 2 * π / 2 ^ (m + 1) = φ at *
      have hw : ‖Complex.exp (θ * Complex.I)‖ = 1 := Complex.norm_exp_ofReal_mul_I θ
      have hβ : ‖Complex.exp (φ * Complex.I)‖ = 1 := Complex.norm_exp_ofReal_mul_I φ
      have he : Complex.exp (((θ + φ : ℝ) : ℂ) * Complex.I) =
          Complex.exp (θ * Complex.I) * Complex.exp (φ * Complex.I) := by
        rw [← Complex.exp_add]; congr 1; push_cast; ring
      rw [he]
      generalize Complex.exp (θ * Complex.I) = w at *
      generalize Complex.exp (φ * Complex.I) = β at *
      generalize toComplex (turnBy u v) = t at *
      generalize toComplex u = z at *
      generalize toComplex v = b at *
      have hO : ‖(2 ^ 128 : ℂ)‖ = 2 ^ 128 := by rw [norm_pow]; norm_num
      have hO0 : (2 ^ 128 : ℂ) ≠ 0 := by norm_num
      generalize hOd : (2 ^ 128 : ℂ) = O at *
      have e1 : t - O * (w * β) = (t - z * b / O) + (z - O * w) * β + (z / O) * (b - O * β) := by
        field_simp; ring
      have hz : ‖z / O‖ ≤ 1 + 1 / 4 := by
        have h1 : ‖z‖ ≤ 4 * m + 2 ^ 128 := by
          have := norm_add_le (z - O * w) (O * w)
          rw [sub_add_cancel, norm_mul, hw, hO, mul_one] at this
          linarith
        have hm' : (m : ℝ) ≤ 16 := by exact_mod_cast (show m ≤ 16 by omega)
        rw [norm_div, hO, div_le_iff₀ (by positivity)]
        nlinarith
      rw [e1]
      have h1 := norm_add_le (t - z * b / O + (z - O * w) * β) (z / O * (b - O * β))
      have h2 := norm_add_le (t - z * b / O) ((z - O * w) * β)
      rw [norm_mul, hβ, mul_one] at h2
      rw [norm_mul (z / O)] at h1
      have h3 : ‖z / O‖ * ‖b - O * β‖ ≤ (1 + 1 / 4) * (3 / 2) :=
        mul_le_mul hz hB (norm_nonneg _) (by norm_num)
      push_cast
      linarith
    · rw [add_zero]
      push_cast
      linarith

/-- The fixed-point cosine and sine of an index are within 64 units of 2^-128. -/
theorem fix_near {log2 k : Nat} (h16 : log2 ≤ 16) (hk : k < 2 ^ log2) :
    |(cosFix log2 k : ℝ) - cos (2 * π * k / 2 ^ log2) * 2 ^ 128| ≤ 64 ∧
    |(sinFix log2 k : ℝ) - sin (2 * π * k / 2 ^ log2) * 2 ^ 128| ≤ 64 := by
  have h := rotation_near h16 hk log2 le_rfl
  have hθ : topAngle log2 k log2 = 2 * π * k / 2 ^ log2 := by simp [topAngle]
  have hl : (log2 : ℝ) ≤ 16 := by exact_mod_cast h16
  have h128 : (2 ^ 128 : ℂ) = ((2 ^ 128 : ℝ) : ℂ) := by push_cast; rfl
  rw [hθ, h128] at h
  have hre := (Complex.abs_re_le_norm _).trans h
  have him := (Complex.abs_im_le_norm _).trans h
  rw [Complex.sub_re, Complex.re_ofReal_mul, Complex.exp_ofReal_mul_I_re, mul_comm ((2 : ℝ) ^ 128)] at hre
  rw [Complex.sub_im, Complex.im_ofReal_mul, Complex.exp_ofReal_mul_I_im, mul_comm ((2 : ℝ) ^ 128)] at him
  unfold cosFix sinFix
  exact ⟨hre.trans (by linarith), him.trans (by linarith)⟩

/-! ### Rounding a real that is nearly known -/

/-- A pattern that two reals round to is what every real between them rounds to. -/
theorem RoundsTo.between {f : Fmt} {a b x : ℝ} {w : Nat} (ha : RoundsTo f a w) (hb : RoundsTo f b w)
    (hfa : |a| < (f.overflowAt : ℝ)) (hfb : |b| < (f.overflowAt : ℝ)) (hax : a ≤ x) (hxb : x ≤ b) :
    RoundsTo f x w := by
  unfold RoundsTo at *
  rw [if_pos hfa] at ha
  rw [if_pos hfb] at hb
  have hx : |x| < (f.overflowAt : ℝ) := by rw [abs_lt] at *; constructor <;> linarith
  rw [if_pos hx]
  refine ⟨ha.1, fun z hz => ?_⟩
  obtain ⟨ha1, ha2⟩ := ha.2 z hz
  obtain ⟨hb1, hb2⟩ := hb.2 z hz
  have hwz : (f.value z : ℝ) = f.value w → f.value z = f.value w := fun h => by exact_mod_cast h
  generalize (f.value w : ℝ) = p at *
  generalize (f.value z : ℝ) = q at *
  -- of two points p and q, being no farther from p is being on p's side of their midpoint
  have side : ∀ y : ℝ, |p - y| ≤ |q - y| ↔ (q - p) * (q + p - 2 * y) ≥ 0 := fun y => by
    rw [← sq_le_sq]; constructor <;> intro h <;> nlinarith
  have tie : ∀ y : ℝ, |p - y| = |q - y| ↔ (q - p) * (q + p - 2 * y) = 0 := fun y => by
    rw [← sq_eq_sq_iff_abs_eq_abs]; constructor <;> intro h <;> nlinarith
  rw [side] at ha1 hb1
  rw [tie] at ha2 hb2
  rw [side, tie]
  rcases lt_trichotomy p q with h | h | h
  · have h0 : 0 < q - p := sub_pos.mpr h
    have hb' := nonneg_of_mul_nonneg_right hb1 h0
    refine ⟨mul_nonneg h0.le (by linarith), fun h1 => hb2 ?_⟩
    have h2 : q + p - 2 * x = 0 := (mul_eq_zero.mp h1).resolve_left h0.ne'
    have h3 : q + p - 2 * b = 0 := by linarith
    rw [h3, mul_zero]
  · subst h
    exact ⟨by simp, fun _ => Or.inl (hwz rfl)⟩
  · have h0 : 0 < p - q := sub_pos.mpr h
    have ha' : q + p - 2 * a ≤ 0 := by
      by_contra hc
      push Not at hc
      nlinarith
    refine ⟨by nlinarith, fun h1 => ha2 ?_⟩
    have h2 : q + p - 2 * x = 0 := (mul_eq_zero.mp h1).resolve_left (by linarith)
    have h3 : q + p - 2 * a = 0 := by linarith
    rw [h3, mul_zero]

/-- `RNE_F` of an exact ratio (00_scope.md R13). -/
theorem roundsTo_roundRatio {f : Fmt} (hf : f.Ok) (num : Int) {den : Nat} (hd : 0 < den) :
    RoundsTo f ((num : ℝ) / den) (roundRatio f num den) := by
  have h := roundsTo_signed hf (decide (num < 0)) (num.natAbs * 2 ^ f.scale) hd
  have e : (signedUnits (decide (num < 0)) (num.natAbs * 2 ^ f.scale) : ℝ) / (den * 2 ^ f.scale) =
      (num : ℝ) / den := by
    have hs : (0 : ℝ) < 2 ^ f.scale := by positivity
    have : signedUnits (decide (num < 0)) (num.natAbs * 2 ^ f.scale) = num * 2 ^ f.scale := by
      unfold signedUnits
      split_ifs with h <;> simp only [decide_eq_true_eq] at h <;> push_cast
      · rw [abs_of_neg h]; ring
      · rw [abs_of_nonneg (not_lt.mp h)]
    rw [this]
    push_cast
    rw [mul_div_mul_right _ _ hs.ne']
  rw [← e]
  exact h

theorem two_lt_overflow {f : Fmt} (hf : f = binary64 ∨ f = binary32) : (2 : ℝ) < f.overflowAt := by
  have : (2 : ℚ) < f.overflowAt := by
    rcases hf with rfl | rfl
    · rw [Fmt.overflowAt, lt_div_iff₀ (by positivity)]
      simp only [binary64, Fmt.scale]
      calc (2 : ℚ) * 2 ^ (2 ^ (11 - 1) - 1 + 52 - 1) = 1 * 2 ^ 1075 := by rw [one_mul, ← pow_succ']; congr 1
        _ ≤ 1 * 2 ^ (2 ^ 11 - 4) := by
          rw [one_mul, one_mul]; exact pow_le_pow_right₀ (by norm_num) (by norm_num)
        _ < (2 ^ (52 + 2) - 1) * 2 ^ (2 ^ 11 - 4) :=
          mul_lt_mul_of_pos_right (by norm_num) (pow_pos (by norm_num) _)
    · rw [Fmt.overflowAt, lt_div_iff₀ (by positivity)]
      simp only [binary32, Fmt.scale]
      norm_num
  exact_mod_cast this


/-- Ratios strictly between two neighbours of a grid at least as fine as that of the values and the
midpoints of the format round alike. -/
theorem roundMag_cell {f : Fmt} {a b den j p : Nat} (hd : 0 < den) (hj : 2 ^ (f.fracBits + 1) ≤ j)
    (ha : j * 2 ^ p * den < a) (ha' : a < (j + 1) * 2 ^ p * den)
    (hb : j * 2 ^ p * den < b) (hb' : b < (j + 1) * 2 ^ p * den) :
    roundMag f a den = roundMag f b den := by
  -- the pattern is a function of j and p
  have key : ∀ x, j * 2 ^ p * den < x → x < (j + 1) * 2 ^ p * den →
      Nat.log2 (x / den) = Nat.log2 j + p ∧
      (∀ t, x / (den * (2 ^ p * 2 ^ t)) = j / 2 ^ t) ∧
      ∀ t m, (den * (2 ^ p * 2 ^ (t + 1)) < 2 * (x - m * (den * (2 ^ p * 2 ^ (t + 1)))) ↔
          (2 * m + 1) * 2 ^ t ≤ j) ∧ ¬ 2 * (x - m * (den * (2 ^ p * 2 ^ (t + 1)))) = den * (2 ^ p * 2 ^ (t + 1)) := by
    intro x hx hx'
    have hP : 0 < 2 ^ p := by positivity
    have hdp : 0 < den * 2 ^ p := by positivity
    have hxp : x / (den * 2 ^ p) = j := by
      apply Nat.div_eq_of_lt_le
      · linarith [show j * (den * 2 ^ p) = j * 2 ^ p * den by ring]
      · linarith [show (j + 1) * (den * 2 ^ p) = (j + 1) * 2 ^ p * den by ring]
    refine ⟨?_, fun t => ?_, fun t m => ?_⟩
    · have hj0 : j ≠ 0 := by
        have : 0 < 2 ^ (f.fracBits + 1) := by positivity
        omega
      have h1 : x / den / 2 ^ p = j := by rw [Nat.div_div_eq_div_mul, hxp]
      have hx0 : x / den ≠ 0 := fun h0 => by rw [h0, Nat.zero_div] at h1; omega
      have h2 : j * 2 ^ p ≤ x / den := by rw [← h1]; exact Nat.div_mul_le_self _ _
      have h3 : x / den < (j + 1) * 2 ^ p := by
        rw [← h1, ← Nat.div_lt_iff_lt_mul hP]; omega
      apply (Nat.log2_eq_iff hx0).mpr
      have h4 := Nat.log2_self_le hj0
      have h5 : j + 1 ≤ 2 ^ (Nat.log2 j + 1) := Nat.lt_log2_self
      constructor
      · rw [pow_add]; exact (Nat.mul_le_mul_right _ h4).trans h2
      · rw [show Nat.log2 j + p + 1 = Nat.log2 j + 1 + p by ring, pow_add]
        exact h3.trans_le (Nat.mul_le_mul_right _ h5)
    · rw [← mul_assoc, ← Nat.div_div_eq_div_mul, hxp]
    · -- in grid steps D, x lies strictly between j and j + 1
      obtain ⟨D, hD⟩ : ∃ D, D = den * 2 ^ p := ⟨_, rfl⟩
      have hx1 : j * D < x := by rw [hD]; linarith [show j * (den * 2 ^ p) = j * 2 ^ p * den by ring]
      have hx2 : x < (j + 1) * D := by
        rw [hD]; linarith [show (j + 1) * (den * 2 ^ p) = (j + 1) * 2 ^ p * den by ring]
      have hD0 : 0 < D := hD ▸ hdp
      have e : den * (2 ^ p * 2 ^ (t + 1)) = 2 * 2 ^ t * D := by rw [hD, pow_succ]; ring
      rw [e]
      obtain ⟨T, hT⟩ : ∃ T, T = 2 ^ t := ⟨_, rfl⟩
      rw [← hT]
      have hT0 : 0 < T := by rw [hT]; positivity
      have e1 : (2 * m + 1) * T * D = m * (2 * T * D) + T * D := by ring
      by_cases h : (2 * m + 1) * T ≤ j
      · have h1 : (2 * m + 1) * T * D ≤ j * D := Nat.mul_le_mul_right _ h
        have e2 : 2 * T * D = 2 * (T * D) := by ring
        rw [e1] at h1
        rw [e2] at h1 ⊢
        generalize T * D = U at *
        generalize m * (2 * U) = V at *
        generalize j * D = W at *
        exact ⟨iff_of_true (by omega) h, by omega⟩
      · have h1 : (j + 1) * D ≤ (2 * m + 1) * T * D := Nat.mul_le_mul_right _ (by omega)
        have e2 : 2 * T * D = 2 * (T * D) := by ring
        have hU : 0 < T * D := by positivity
        rw [e1] at h1
        rw [e2] at h1 ⊢
        generalize T * D = U at *
        generalize m * (2 * U) = V at *
        generalize (j + 1) * D = W at *
        exact ⟨iff_of_false (by omega) h, by omega⟩
  have hlog : f.fracBits + 1 ≤ Nat.log2 j :=
    (Nat.le_log2 (fun h0 => by have : 0 < 2 ^ (f.fracBits + 1) := by positivity
                               omega)).mpr hj
  obtain ⟨t, ht⟩ : ∃ t, Nat.log2 j = f.fracBits + (t + 1) := ⟨Nat.log2 j - f.fracBits - 1, by omega⟩
  have val : ∀ x, j * 2 ^ p * den < x → x < (j + 1) * 2 ^ p * den →
      roundMag f x den = min ((p + (t + 1)) * 2 ^ f.fracBits +
        (j / 2 ^ (t + 1) + if (2 * (j / 2 ^ (t + 1)) + 1) * 2 ^ t ≤ j then 1 else 0)) f.infBits := by
    intro x hx hx'
    obtain ⟨k1, k2, k3⟩ := key x hx hx'
    have hsh : Nat.log2 (x / den) - f.fracBits = p + (t + 1) := by omega
    have hm := k2 (t + 1)
    have hr : x % (den * (2 ^ p * 2 ^ (t + 1))) =
        x - j / 2 ^ (t + 1) * (den * (2 ^ p * 2 ^ (t + 1))) := by
      rw [← hm]; exact Nat.eq_sub_of_add_eq (Nat.mod_add_div' _ _)
    obtain ⟨k4, k5⟩ := k3 t (j / 2 ^ (t + 1))
    simp only [roundMag, hsh, pow_add 2 p, hm, hr]
    congr 3
    rw [decide_eq_false k5, Bool.false_and, Bool.or_false]
    split_ifs with h
    · rw [decide_eq_true (k4.mpr h)]; rfl
    · rw [decide_eq_false (fun h' => h (k4.mp h'))]; rfl
  rw [val a ha ha', val b hb hb']

/-- `v` is farther than `e` from every multiple of `g`. -/
def offGrid (e g v : Nat) : Bool := Nat.blt e (v % g) && Nat.blt (v % g + e) g

/-- The rounding of a real x that is within `e` units of 1 / den of a magnitude `N` or its negative:
with N off the grid, every ratio as near to N as x is rounds to what x rounds to. -/
theorem roundsTo_of_offGrid {f : Fmt} (hf : f.Ok) (hov : (2 : ℝ) < f.overflowAt) {x : ℝ} {N g q den e : Nat}
    {num : Int} (neg : Bool) (hg : 0 < g) (hden : den = g * 2 ^ q) (hq : q ≤ f.scale)
    (hN : 2 ^ (f.fracBits + 1) * g ≤ N) (hN2 : N + e ≤ 2 * den) (hoff : offGrid e g N = true)
    (hx : |(signedUnits neg N : ℝ) - x * den| ≤ e) (hnum : (num - signedUnits neg N).natAbs ≤ e) :
    RoundsTo f x (roundRatio f num den) := by
  have hd : 0 < den := by rw [hden]; positivity
  have hD : (0 : ℝ) < den := by exact_mod_cast hd
  simp only [offGrid, Bool.and_eq_true, Nat.blt_eq] at hoff
  obtain ⟨j, hj⟩ : ∃ j, j = N / g := ⟨_, rfl⟩
  have hdiv := Nat.div_add_mod N g
  rw [← hj] at hdiv
  have hcell : ∀ a : Nat, a ≤ N + e → N ≤ a + e → j * g < a ∧ a < (j + 1) * g := fun a h1 h2 => by
    rw [mul_comm] at hdiv
    generalize N % g = r at *
    rw [add_mul, one_mul]
    generalize j * g = J at *
    omega
  have hj2 : 2 ^ (f.fracBits + 1) ≤ j := by rw [hj]; exact (Nat.le_div_iff_mul_le hg).mpr hN
  have mag : ∀ a : Nat, a ≤ N + e → N ≤ a + e →
      roundMag f (a * 2 ^ f.scale) den = roundMag f (N * 2 ^ f.scale) den := fun a h1 h2 => by
    have hs : 2 ^ f.scale = 2 ^ (f.scale - q) * 2 ^ q := by rw [← pow_add]; congr 1; omega
    have lo : ∀ c, j * g < c → j * 2 ^ (f.scale - q) * den < c * 2 ^ f.scale := fun c hc => by
      rw [hden, hs, show j * 2 ^ (f.scale - q) * (g * 2 ^ q) = j * g * (2 ^ (f.scale - q) * 2 ^ q) by ring]
      exact Nat.mul_lt_mul_of_pos_right hc (by positivity)
    have hi : ∀ c, c < (j + 1) * g → c * 2 ^ f.scale < (j + 1) * 2 ^ (f.scale - q) * den := fun c hc => by
      rw [hden, hs,
        show (j + 1) * 2 ^ (f.scale - q) * (g * 2 ^ q) = (j + 1) * g * (2 ^ (f.scale - q) * 2 ^ q) by ring]
      exact Nat.mul_lt_mul_of_pos_right hc (by positivity)
    obtain ⟨c1, c2⟩ := hcell a h1 h2
    obtain ⟨c3, c4⟩ := hcell N (by omega) (by omega)
    exact roundMag_cell hd hj2 (lo _ c1) (hi _ c2) (lo _ c3) (hi _ c4)
  have heN : e < N := by
    have h1 := hcell N (by omega) (by omega)
    have h2 : g ≤ N := le_trans (Nat.le_mul_of_pos_left g (by positivity)) hN
    generalize N % g = r at *
    by_contra hc
    obtain ⟨h3, _⟩ := hcell 0 (by omega) (by omega)
    omega
  have whole : ∀ n : Int, (n - signedUnits neg N).natAbs ≤ e →
      roundRatio f n den = signed f neg (roundMag f (N * 2 ^ f.scale) den) := fun n hn => by
    unfold signedUnits at hn
    have hs : decide (n < 0) = neg := by
      cases neg <;> simp only [Bool.false_eq_true, if_false, if_true] at hn <;>
        simp only [decide_eq_true_eq, decide_eq_false_iff_not] <;> omega
    unfold roundRatio
    rw [hs, mag n.natAbs (by cases neg <;> simp only [Bool.false_eq_true, if_false, if_true] at hn <;> omega)
      (by cases neg <;> simp only [Bool.false_eq_true, if_false, if_true] at hn <;> omega)]
  have small : ∀ n : Int, n.natAbs ≤ 2 * den → |(n : ℝ) / den| < (f.overflowAt : ℝ) := fun n hn => by
    have h2 : |(n : ℝ) / den| ≤ 2 := by
      rw [abs_div, abs_of_pos hD, div_le_iff₀ hD, ← Int.cast_abs, Int.abs_eq_natAbs]
      exact_mod_cast hn
    exact h2.trans_lt hov
  have habs : (signedUnits neg N).natAbs = N := by unfold signedUnits; cases neg <;> simp
  rw [abs_le] at hx
  rw [whole num hnum]
  refine RoundsTo.between (whole (signedUnits neg N - e) (by omega) ▸ roundsTo_roundRatio hf _ hd)
    (whole (signedUnits neg N + e) (by omega) ▸ roundsTo_roundRatio hf _ hd)
    (small _ (by omega)) (small _ (by omega)) ?_ ?_
  · rw [div_le_iff₀ hD]; push_cast; linarith
  · rw [le_div_iff₀ hD]; push_cast; linarith

/-! ### The computation -/

/-- No entry made of the magnitude `v` of a cosine or a sine is near a grid point: neither v itself, nor
the weights made of v and of -v. -/
def valueClear (v : Nat) : Bool :=
  Nat.ble (2 ^ 100) v && Nat.ble (v + 2 ^ 100) (2 ^ 128) && offGrid 128 (2 ^ 47) v &&
    offGrid 2944 (50 * 2 ^ 60) (27 * 2 ^ 128 + 23 * v) && offGrid 2944 (50 * 2 ^ 60) (27 * 2 ^ 128 - 23 * v)

/-- A base rotation below the angle pi / 2 as naturals. -/
def baseNat (m : Nat) : Nat × Nat := ((baseRotation m).1.toNat, (baseRotation m).2.toNat)

/-- `valueClear` of the cosines and sines of the 2^r indices that share their top 16 - r bits, whose
rotation is `(c, s)`. -/
def octantWalk : Nat → Nat → Nat → Bool
  | 0, c, s => valueClear c && valueClear s
  | r + 1, c, s =>
    octantWalk r c s && Nat.ble (s * (baseNat (16 - r)).2) (c * (baseNat (16 - r)).1) &&
    octantWalk r ((c * (baseNat (16 - r)).1 - s * (baseNat (16 - r)).2) / 2 ^ 128)
      ((c * (baseNat (16 - r)).2 + s * (baseNat (16 - r)).1) / 2 ^ 128)

/-- `valueClear` of the cosines and sines of the indices 2^b to 2^(b + 1) - 1 of 2^16. -/
def octantCheck (b : Nat) : Bool := octantWalk b (baseNat (16 - b)).1 (baseNat (16 - b)).2

/-- The computation for the eighth of the circle: the indices 1 to 8192. The kernel evaluates it. -/
def octantsCheck : Prop :=
  (∀ b < 13, octantCheck b = true) ∧ octantWalk 0 (baseNat 3).1 (baseNat 3).2 = true

theorem baseRotation_nonneg {m : Nat} (h2 : 2 ≤ m) (h16 : m ≤ 16) :
    baseRotation m = (((baseNat m).1 : Int), ((baseNat m).2 : Int)) := by
  have : ∀ m : Fin 17, 2 ≤ m.val → baseRotation m = (((baseNat m).1 : Int), ((baseNat m).2 : Int)) := by
    decide +kernel
  exact this ⟨m, by omega⟩ h2

theorem octantWalk_sound (k : Nat) : ∀ r c s, r ≤ 14 → octantWalk r c s = true →
    rotation 16 k (16 - r) = ((c : Int), (s : Int)) →
    ∃ c' s' : Nat, rotation 16 k 16 = ((c' : Int), (s' : Int)) ∧ valueClear c' = true ∧ valueClear s' = true := by
  intro r
  induction r with
  | zero =>
    intro c s _ h hr
    simp only [octantWalk, Bool.and_eq_true] at h
    exact ⟨c, s, hr, h.1, h.2⟩
  | succ r ih =>
    intro c s hr14 h hr
    simp only [octantWalk, Bool.and_eq_true, Nat.ble_eq] at h
    obtain ⟨⟨h1, h2⟩, h3⟩ := h
    have e : rotation 16 k (16 - r) =
        if k.testBit r then turnBy (rotation 16 k (16 - (r + 1))) (baseRotation (16 - r))
        else rotation 16 k (16 - (r + 1)) := by
      rw [show 16 - r = 16 - (r + 1) + 1 by omega, rotation, show 16 - (16 - (r + 1) + 1) = r by omega]
    rw [hr] at e
    split_ifs at e with hb
    · refine ih _ _ (by omega) h3 ?_
      rw [e, baseRotation_nonneg (by omega) (by omega)]
      simp only [turnBy, romOne, romBits]
      congr 1
      push_cast [Nat.cast_sub h2]
      rfl
    · exact ih _ _ (by omega) h1 e

/-- The values of the eighth of the circle are all clear. -/
theorem octant_clear (h : octantsCheck) {k : Nat} (h1 : 1 ≤ k) (hk : k ≤ 8192) :
    ∃ c s : Nat, cosFix 16 k = c ∧ sinFix 16 k = s ∧ valueClear c = true ∧ valueClear s = true := by
  have start : ∀ b ≤ 13, 2 ^ b ≤ k → k < 2 ^ (b + 1) → rotation 16 k (16 - b) = baseRotation (16 - b) := by
    intro b hb hlo hhi
    have zero : ∀ m, m + b + 1 ≤ 16 → rotation 16 k m = (romOne, 0) := by
      intro m
      induction m with
      | zero => intro _; rfl
      | succ m ih =>
        intro hm
        rw [rotation, ih (by omega), if_neg]
        rw [Nat.testBit_lt_two_pow (hhi.trans_le (Nat.pow_le_pow_right (by norm_num) (by omega)))]
        simp
    rw [show 16 - b = 15 - b + 1 by omega, rotation, zero (15 - b) (by omega), if_pos]
    · generalize baseRotation (15 - b + 1) = v
      have ho : romOne ≠ 0 := by decide
      simp [turnBy, Int.mul_ediv_cancel_left _ ho]
    · rw [show 16 - (15 - b + 1) = b by omega, Nat.testBit_eq_decide_div_mod_eq]
      have : k / 2 ^ b = 1 := by
        apply Nat.div_eq_of_lt_le <;> [omega; rw [pow_succ] at hhi] 
        omega
      simp [this]
  obtain ⟨b, hlo, hhi⟩ : ∃ b, 2 ^ b ≤ k ∧ k < 2 ^ (b + 1) :=
    ⟨Nat.log2 k, Nat.log2_self_le (by omega), Nat.lt_log2_self⟩
  have hb : b ≤ 13 := by
    by_contra hc
    have : 2 ^ 14 ≤ 2 ^ b := Nat.pow_le_pow_right (by norm_num) (by omega)
    omega
  have hst := start b hb hlo hhi
  rw [baseRotation_nonneg (by omega) (by omega)] at hst
  have fin : ∀ c' s' : Nat, rotation 16 k 16 = ((c' : Int), (s' : Int)) → cosFix 16 k = c' ∧ sinFix 16 k = s' := by
    intro c' s' e
    simp [cosFix, sinFix, e]
  rcases Nat.lt_or_ge b 13 with hb | hb
  · obtain ⟨c, s, e, h2, h3⟩ := octantWalk_sound k b _ _ (by omega) (h.1 b hb) hst
    exact ⟨c, s, (fin c s e).1, (fin c s e).2, h2, h3⟩
  · -- k = 8192
    have hb13 : b = 13 := by omega
    subst hb13
    have hk' : k = 8192 := by omega
    subst hk'
    have e : rotation 16 8192 16 = baseRotation 3 := by decide +kernel
    rw [baseRotation_nonneg (by omega) (by omega)] at e
    have h2 := h.2
    simp only [octantWalk, Bool.and_eq_true] at h2
    exact ⟨_, _, (fin _ _ e).1, (fin _ _ e).2, h2.1, h2.2⟩

/-! ### The whole circle -/

/-- A real is within 64 units of 2^-128 of a clear magnitude or its negative. -/
def ClearAt (x : ℝ) (neg : Bool) : Prop :=
  ∃ v : Nat, valueClear v = true ∧ |(signedUnits neg v : ℝ) - x * 2 ^ 128| ≤ 64

theorem ClearAt.neg {x : ℝ} (h : ClearAt x false) : ClearAt (-x) true := by
  obtain ⟨v, hv, h⟩ := h
  refine ⟨v, hv, ?_⟩
  simp only [signedUnits, Bool.false_eq_true, if_false, if_true] at *
  rw [← abs_neg]
  push_cast at *
  convert h using 2
  ring

/-- The cosine and the sine of every index of half the circle but the multiples of a quarter. -/
theorem half_circle_clear (h : octantsCheck) {k : Nat} (hk : k < 32768) (h0 : k ≠ 0) (h1 : k ≠ 16384) :
    ClearAt (cos (2 * π * k / 65536)) (decide (16384 < k)) ∧ ClearAt (sin (2 * π * k / 65536)) false := by
  have oct : ∀ k : Nat, 1 ≤ k → k ≤ 8192 →
      ClearAt (cos (2 * π * k / 65536)) false ∧ ClearAt (sin (2 * π * k / 65536)) false := by
    intro k h1 hk
    obtain ⟨c, s, hc, hs, hcc, hcs⟩ := octant_clear h h1 hk
    obtain ⟨n1, n2⟩ := fix_near (log2 := 16) (k := k) le_rfl (by omega)
    rw [hc, show (2 : ℝ) ^ 16 = 65536 by norm_num] at n1
    rw [hs, show (2 : ℝ) ^ 16 = 65536 by norm_num] at n2
    exact ⟨⟨c, hcc, by simpa [signedUnits] using n1⟩, ⟨s, hcs, by simpa [signedUnits] using n2⟩⟩
  rcases Nat.lt_or_ge 16384 k with hg | hg
  · rw [decide_eq_true hg]
    rcases Nat.lt_or_ge 24576 k with hg' | hg'
    · obtain ⟨c1, c2⟩ := oct (32768 - k) (by omega) (by omega)
      have e : 2 * π * ((32768 - k : Nat) : ℝ) / 65536 = π - 2 * π * k / 65536 := by
        rw [Nat.cast_sub hk.le]; push_cast; ring
      rw [e, cos_pi_sub] at c1
      rw [e, sin_pi_sub] at c2
      exact ⟨neg_neg (cos _) ▸ c1.neg, c2⟩
    · obtain ⟨c1, c2⟩ := oct (k - 16384) (by omega) (by omega)
      have e : 2 * π * ((k - 16384 : Nat) : ℝ) / 65536 = 2 * π * k / 65536 - π / 2 := by
        rw [Nat.cast_sub hg.le]; push_cast; ring
      rw [e, cos_sub_pi_div_two] at c1
      rw [e, sin_sub_pi_div_two] at c2
      exact ⟨neg_neg (cos _) ▸ c2.neg, c1⟩
  · rw [decide_eq_false (by omega)]
    rcases Nat.lt_or_ge 8192 k with hg' | hg'
    · obtain ⟨c1, c2⟩ := oct (16384 - k) (by omega) (by omega)
      have e : 2 * π * ((16384 - k : Nat) : ℝ) / 65536 = π / 2 - 2 * π * k / 65536 := by
        rw [Nat.cast_sub hg]; push_cast; ring
      rw [e, cos_pi_div_two_sub] at c1
      rw [e, sin_pi_div_two_sub] at c2
      exact ⟨c2, c1⟩
    · exact oct k (by omega) hg'

/-- An index of a smaller transform is an index of 2^16. -/
theorem angle_scale {log2 k : Nat} (h16 : log2 ≤ 16) :
    2 * π * k / 2 ^ log2 = 2 * π * ((k * 2 ^ (16 - log2) : Nat) : ℝ) / 65536 := by
  have e : (65536 : ℝ) = 2 ^ log2 * 2 ^ (16 - log2) := by
    rw [← pow_add, show log2 + (16 - log2) = 16 by omega]; norm_num
  rw [e]
  push_cast
  rw [← mul_assoc, mul_div_mul_right _ _ (by positivity)]

/-! ### The entries -/

theorem romOne_cast : (romOne : ℝ) = 2 ^ 128 := by norm_num [romOne, romBits]

/-- A clear value's entry: what is within 64 units of the exact real rounds as it does. -/
theorem ClearAt.entry {f : Fmt} (hf : f = binary64 ∨ f = binary32) {x : ℝ} {neg : Bool} {num : Int}
    (h : ClearAt x neg) (hn : |(num : ℝ) - x * 2 ^ 128| ≤ 64) :
    RoundsTo f x (roundRatio f num (2 ^ 128)) := by
  obtain ⟨v, hv, hx⟩ := h
  simp only [valueClear, Bool.and_eq_true, Nat.ble_eq] at hv
  obtain ⟨⟨⟨⟨h1, h2⟩, h3⟩, _⟩, _⟩ := hv
  refine roundsTo_of_offGrid (g := 2 ^ 47) (q := 81) (e := 128) ?_ (two_lt_overflow hf) neg (by norm_num)
    (by norm_num) ?_ ?_ ?_ h3 ?_ ?_
  · rcases hf with rfl | rfl <;> [exact binary64_ok; exact binary32_ok]
  · rcases hf with rfl | rfl <;> norm_num [binary64, binary32, Fmt.scale]
  · exact le_trans (by rcases hf with rfl | rfl <;> norm_num [binary64, binary32]) h1
  · omega
  · refine le_trans ?_ (show (64 : ℝ) ≤ 128 by norm_num)
    exact_mod_cast hx
  · have : |((num - signedUnits neg v : Int) : ℝ)| ≤ 128 := by
      push_cast
      rw [abs_le] at *
      constructor <;> linarith [hx.1, hx.2, hn.1, hn.2]
    rw [← Int.cast_abs, Int.abs_eq_natAbs] at this
    exact_mod_cast this

/-- The same for the Hamming weight of a cosine (42_window.md R161). -/
theorem ClearAt.hamming {f : Fmt} (hf : f = binary64 ∨ f = binary32) {x : ℝ} {neg : Bool} {c : Int}
    (h : ClearAt x neg) (hn : |(c : ℝ) - x * 2 ^ 128| ≤ 64) :
    RoundsTo f (27 / 50 - 23 / 50 * x) (roundRatio f (27 * romOne - 23 * c) (50 * 2 ^ 128)) := by
  obtain ⟨v, hv, hx⟩ := h
  simp only [valueClear, Bool.and_eq_true, Nat.ble_eq] at hv
  obtain ⟨⟨⟨⟨h1, h2⟩, _⟩, h4⟩, h5⟩ := hv
  have hv' : v ≤ 2 ^ 128 := by omega
  obtain ⟨N, hN⟩ : ∃ N : Nat, N = if neg then 27 * 2 ^ 128 + 23 * v else 27 * 2 ^ 128 - 23 * v := ⟨_, rfl⟩
  have hNr : (N : Int) = 27 * romOne - 23 * signedUnits neg v := by
    rw [hN]
    unfold signedUnits
    cases neg
    · simp only [Bool.false_eq_true, if_false, romOne, romBits]; omega
    · simp only [if_true, romOne, romBits]; omega
  have hNR : (N : ℝ) = 27 * 2 ^ 128 - 23 * (signedUnits neg v : ℝ) := by
    rw [← romOne_cast, ← Int.cast_natCast, hNr]
    push_cast
    rfl
  have hoff : offGrid 2944 (50 * 2 ^ 60) N = true := by
    rw [hN]; cases neg <;> simp only [Bool.false_eq_true, if_false, if_true] <;> assumption
  have hNlo : 4 * 2 ^ 128 ≤ N := by rw [hN]; split <;> omega
  have hNhi : N ≤ 50 * 2 ^ 128 := by rw [hN]; split <;> omega
  refine roundsTo_of_offGrid (N := N) (g := 50 * 2 ^ 60) (q := 68) (e := 2944) ?_ (two_lt_overflow hf) false
    (by norm_num) (by norm_num) ?_ ?_ ?_ hoff ?_ ?_
  · rcases hf with rfl | rfl <;> [exact binary64_ok; exact binary32_ok]
  · rcases hf with rfl | rfl <;> norm_num [binary64, binary32, Fmt.scale]
  · exact le_trans (by rcases hf with rfl | rfl <;> norm_num [binary64, binary32]) hNlo
  · omega
  · have e : ((signedUnits false N : Int) : ℝ) = N := by simp [signedUnits]
    rw [abs_le] at hx
    rw [e, hNR, abs_le]
    push_cast
    constructor <;> linarith [hx.1, hx.2]
  · have : |((27 * romOne - 23 * c - N : Int) : ℝ)| ≤ 2944 := by
      rw [hNr]
      push_cast
      rw [romOne_cast]
      rw [abs_le] at *
      constructor <;> linarith [hx.1, hx.2, hn.1, hn.2]
    rw [← Int.cast_abs, Int.abs_eq_natAbs] at this
    simp only [signedUnits, Bool.false_eq_true, if_false]
    exact_mod_cast this

/-- The same for the Hanning weight of a cosine (42_window.md R161). -/
theorem ClearAt.hanning {f : Fmt} (hf : f = binary64 ∨ f = binary32) {x : ℝ} {neg : Bool} {c : Int}
    (h : ClearAt x neg) (hn : |(c : ℝ) - x * 2 ^ 128| ≤ 64) :
    RoundsTo f (1 / 2 - 1 / 2 * x) (roundRatio f (romOne - c) (2 * 2 ^ 128)) := by
  obtain ⟨v, hv, hx⟩ := h
  simp only [valueClear, Bool.and_eq_true, Nat.ble_eq] at hv
  obtain ⟨⟨⟨⟨h1, h2⟩, h3⟩, _⟩, _⟩ := hv
  obtain ⟨N, hN⟩ : ∃ N : Nat, N = if neg then 2 ^ 128 + v else 2 ^ 128 - v := ⟨_, rfl⟩
  have hNr : (N : Int) = romOne - signedUnits neg v := by
    rw [hN]
    unfold signedUnits
    cases neg
    · simp only [Bool.false_eq_true, if_false, romOne, romBits]; omega
    · simp only [if_true, romOne, romBits]; omega
  have hNR : (N : ℝ) = 2 ^ 128 - (signedUnits neg v : ℝ) := by
    rw [← romOne_cast, ← Int.cast_natCast, hNr]
    push_cast
    rfl
  have hoff : offGrid 128 (2 ^ 47) N = true := by
    rw [hN]
    simp only [offGrid, Bool.and_eq_true, Nat.blt_eq] at h3 ⊢
    split <;> omega
  have hNlo : 2 ^ 100 ≤ N := by rw [hN]; split <;> omega
  have hNhi : N ≤ 2 * 2 ^ 128 := by rw [hN]; split <;> omega
  refine roundsTo_of_offGrid (N := N) (g := 2 ^ 47) (q := 82) (e := 128) ?_ (two_lt_overflow hf) false
    (by norm_num) (by norm_num) ?_ ?_ ?_ hoff ?_ ?_
  · rcases hf with rfl | rfl <;> [exact binary64_ok; exact binary32_ok]
  · rcases hf with rfl | rfl <;> norm_num [binary64, binary32, Fmt.scale]
  · exact le_trans (by rcases hf with rfl | rfl <;> norm_num [binary64, binary32]) hNlo
  · omega
  · have e : ((signedUnits false N : Int) : ℝ) = N := by simp [signedUnits]
    rw [abs_le] at hx
    rw [e, hNR, abs_le]
    push_cast
    constructor <;> linarith [hx.1, hx.2]
  · have : |((romOne - c - N : Int) : ℝ)| ≤ 128 := by
      rw [hNr]
      push_cast
      rw [romOne_cast]
      rw [abs_le] at *
      constructor <;> linarith [hx.1, hx.2, hn.1, hn.2]
    rw [← Int.cast_abs, Int.abs_eq_natAbs] at this
    simp only [signedUnits, Bool.false_eq_true, if_false]
    exact_mod_cast this

/-- Correct rounding does not cross a value of the format. -/
theorem RoundsTo.le_value {f : Fmt} {x : ℝ} {w z : Nat} (h : RoundsTo f x w)
    (hx : |x| < (f.overflowAt : ℝ)) (hz : f.isFinite z) :
    (x ≤ f.value z → f.value w ≤ f.value z) ∧ ((f.value z : ℝ) ≤ x → f.value z ≤ f.value w) := by
  unfold RoundsTo at h
  rw [if_pos hx] at h
  have h1 := (h.2 z hz).1
  rw [← sq_le_sq] at h1
  constructor <;> intro h2 <;> by_contra hc <;> push Not at hc
  · have hc' : (f.value z : ℝ) < f.value w := by exact_mod_cast hc
    nlinarith
  · have hc' : (f.value w : ℝ) < f.value z := by exact_mod_cast hc
    nlinarith

/-! ### The exact entries -/

/-- The rotations of the quarters of the circle are exact. -/
theorem rotation_quarters {log2 : Nat} (h1 : 1 ≤ log2) (h16 : log2 ≤ 16) :
    rotation log2 0 log2 = (romOne, 0) ∧
    (2 ≤ log2 → rotation log2 (2 ^ log2 / 4) log2 = (0, romOne)) ∧
    rotation log2 (2 ^ log2 / 2) log2 = (-romOne, 0) := by
  have : ∀ l : Fin 17, 1 ≤ l.val → rotation l 0 l = (romOne, 0) ∧
      (2 ≤ l.val → rotation l (2 ^ l.val / 4) l = (0, romOne)) ∧ rotation l (2 ^ l.val / 2) l = (-romOne, 0) := by
    decide +kernel
  exact this ⟨log2, by omega⟩ h1

/-- `toQ` of a finite pattern whose value is at most 1 in magnitude: the value times 2^32 truncated
(40_numerics.md R127). -/
theorem toQ_value {w : Word64} (hf : binary64.isFinite w.toNat) (h1 : |binary64.value w.toNat| ≤ 1) :
    (s64 (toQ w) : ℚ) = (SignType.sign (binary64.value w.toNat) : ℚ) * ⌊|binary64.value w.toNat| * 2 ^ 32⌋ ∧
      (s64 (toQ w)).natAbs ≤ 2 ^ 32 := by
  obtain ⟨neg, u, hu⟩ := hf
  have hS : (0 : ℚ) < 2 ^ binary64.scale := by positivity
  have hval : binary64.value w.toNat = (signedUnits neg u : ℚ) / 2 ^ binary64.scale := by
    simp only [Fmt.value, hu]
  have habs : |binary64.value w.toNat| = u / 2 ^ binary64.scale := by
    have : |(signedUnits neg u : ℚ)| = u := by cases neg <;> simp [signedUnits]
    rw [hval, abs_div, abs_of_pos hS, this]
  obtain ⟨q, hq⟩ : ∃ q, q = u * 2 ^ 32 / 2 ^ binary64.scale := ⟨_, rfl⟩
  have hfl : ⌊|binary64.value w.toNat| * 2 ^ 32⌋ = (q : Int) := by
    have fl : ∀ k : Nat, ⌊(u : ℚ) / 2 ^ k * 2 ^ 32⌋ = ((u * 2 ^ 32 / 2 ^ k : Nat) : Int) := fun k => by
      rw [div_mul_eq_mul_div]
      exact_mod_cast Rat.floor_natCast_div_natCast (u * 2 ^ 32) (2 ^ k)
    rw [habs, hq]
    exact fl _
  have hq1 : q ≤ 2 ^ 32 := by
    have : (q : Int) ≤ 2 ^ 32 := by
      rw [← hfl]
      refine Int.cast_le.mp ((Int.floor_le _).trans (b := |binary64.value w.toNat| * 2 ^ 32) ?_)
      push_cast
      nlinarith
    exact_mod_cast this
  have htq : s64 (toQ w) = signedUnits neg q := by
    simp only [toQ, hu, ← hq, wrap64, s64]
    rw [BitVec.toInt_ofInt]
    apply Int.bmod_eq_of_le <;> unfold signedUnits <;> cases neg <;>
      simp only [Bool.false_eq_true, if_false, if_true] <;> omega
  refine ⟨?_, by rw [htq]; unfold signedUnits; cases neg <;> simp <;> exact hq1⟩
  rw [htq, hfl, hval]
  rcases Nat.eq_zero_or_pos u with h0 | h0
  · have : q = 0 := by rw [hq, h0]; simp
    cases neg <;> simp [signedUnits, this]
  · have hu0 : (0 : ℚ) < u := by exact_mod_cast h0
    cases neg
    · rw [show ((signedUnits false u : Int) : ℚ) / 2 ^ binary64.scale = u / 2 ^ binary64.scale by simp [signedUnits],
        sign_pos (by positivity)]
      simp [signedUnits]
    · rw [show ((signedUnits true u : Int) : ℚ) / 2 ^ binary64.scale = -(u / 2 ^ binary64.scale) by
          simp [signedUnits, neg_div],
        sign_neg (by rw [neg_lt_zero]; positivity)]
      simp [signedUnits]

end Sys2Proof.Machine
end

