-- ==== Sys2Proof/Tests/Slice0.lean ====
section
/-! SUPPORT. Tests of the model, each on fixed values that spec/ gives (the vector or rule is named), and
for every obligation with hypotheses a witness that meets them. -/

namespace Sys2Proof.Tests

open Sys2Proof Sys2Proof.Machine

/-! ### States to test on -/

/-- READY with N = 2, forward, no window, ARG = 2, and the two samples given. -/
def ready2 (p q : Sample) : State :=
  { State.reset with
    arg := 2#32, ctl := .ready, n := 2, l := 1, fwd := true
    rev := { cells := [(0, 0), (1, 1)], draw := 0 }
    mem := writeSlot (writeSlot { cells := [], draw := 0 } 0 p) 1 q }

/-- The samples (1, 0) and (2, 0) in binary64. -/
def pair12 : State := ready2 ⟨0x3FF0000000000000#64, 0#64⟩ ⟨0x4000000000000000#64, 0#64⟩

/-- An EXEC of length 2 in flight at a phase. -/
def running (r : Representation) (ph : Phase) : State :=
  { pair12 with seq := some (.exec r (latch pair12) ph false) }

/-- An INIT of size 2 in flight at its start. -/
def building : State := { State.reset with arg := 2#32, seq := some (.init 2 true .start) }

/-- An INIT of size 2 about to complete. -/
def built : State :=
  { State.reset with
    arg := 2#32, rev := { cells := [(0, 0), (1, 1)], draw := 0 }
    seq := some (.init 2 true (.fill 0 2 0)) }

/-- A host that writes a word to CMD next. -/
def withCommand (w : Word32) (s : State) : State :=
  { s with host := [.write (s.params.address offCmd) 4 (w.setWidth 64)] }

/-- The smallest block, mapped at the second multiple of the window's size. -/
def small : Params := { log2Nmax := 1, renormShift := 0, blockBase := 0x400000 }

/-- The default block with a BLOCK_BASE that is not 0. -/
def mapped : State := State.resetWith { Config.params with blockBase := 0x600000 }

theorem inv_ready2 (p q : Sample) : (ready2 p q).Inv where
  params := by show Params.wf Config.params = true; decide
  win := by show (0#2 : BitVec 2) ≠ 3#2; decide
  err := by show ErrCode.ok ≠ .windowAtApply; decide
  mem := by
    simp only [ready2, Memory.wf]
    exact rising_writeSlot _ _ (rising_writeSlot _ _ rfl)
  window := by
    intro c hc
    rw [show (ready2 p q).params.nmax = 65536 from rfl]
    unfold ready2 at hc
    dsimp only at hc
    rcases mem_writeSlot hc with h | h
    · simp only [slotAddr, sampleBase] at *; omega
    · rcases mem_writeSlot h with h | h
      · simp only [slotAddr, sampleBase] at *; omega
      · simp at h
  rev := ⟨rfl, by show ∀ c ∈ [(0, 0), (1, 1)], c.1 < 65536 ∧ c.2 < 65536; decide⟩
  scr := rfl
  config := fun _ => by show 1 ≤ 1 ∧ 1 ≤ 16 ∧ 2 = 2 ^ 1; decide
  table := fun _ _ => by
    show ∀ i < 2, lookup i [(0, 0), (1, 1)] = some (bitRev 1 i)
    decide
  job := trivial

theorem inv_pair12 : pair12.Inv := inv_ready2 _ _

theorem inv_running (r : Representation) (ph : Phase) : (running r ph).Inv where
  params := inv_pair12.params
  win := inv_pair12.win
  err := inv_pair12.err
  mem := inv_pair12.mem
  window := inv_pair12.window
  rev := inv_pair12.rev
  scr := inv_pair12.scr
  config := inv_pair12.config
  table := fun _ _ => inv_pair12.table rfl rfl
  job := ⟨rfl, rfl⟩

/-! ### Well-formedness: an ill-formed term for each check, which the check refuses -/

theorem test_wf_accepts_exec_q :
    CommandFields.wf { op := 3, fwd := false, repr := 2, reserved := 0 } = true := by decide

theorem test_wf_refuses_reserved_bit :
    CommandFields.wf { op := 0, fwd := false, repr := 0, reserved := 0x10 } = false := by decide

theorem test_wf_refuses_op_4 :
    CommandFields.wf { op := 4, fwd := false, repr := 0, reserved := 0 } = false := by decide

theorem test_wf_refuses_fwd_outside_init :
    CommandFields.wf { op := 3, fwd := true, repr := 0, reserved := 0 } = false := by decide

theorem test_wf_refuses_repr_outside_exec :
    CommandFields.wf { op := 2, fwd := false, repr := 2, reserved := 0 } = false := by decide

theorem test_wf_refuses_repr_3 :
    CommandFields.wf { op := 3, fwd := false, repr := 3, reserved := 0 } = false := by decide

theorem test_wf_refuses_nmax_1 :
    Params.wf { log2Nmax := 0, renormShift := 32, blockBase := 0 } = false := by decide

theorem test_wf_refuses_nmax_above :
    Params.wf { log2Nmax := 17, renormShift := 32, blockBase := 0 } = false := by decide

theorem test_wf_refuses_wide_shift :
    Params.wf { log2Nmax := 16, renormShift := 256, blockBase := 0 } = false := by decide

theorem test_wf_refuses_misaligned_base :
    Params.wf { log2Nmax := 16, renormShift := 32, blockBase := 0x300000 } = false := by decide

/-! ### Decoding: words written out from 30_encoding.md R81, and the illegal words of V-DEC-1 -/

theorem test_decode_nop : decodeWord 0b00000000000000000000000000000000#32 = .ok .nop := by decide

theorem test_decode_init_i : decodeWord 0b00000000000000000000000000000001#32 = .ok .initI := by decide

theorem test_decode_init_f : decodeWord 0b00000000000000000000000100000001#32 = .ok .initF := by decide

theorem test_decode_setwin : decodeWord 0b00000000000000000000000000000010#32 = .ok .setwin := by decide

theorem test_decode_exec_d : decodeWord 0b00000000000000000000000000000011#32 = .ok .execD := by decide

theorem test_decode_exec_s : decodeWord 0b00000000000000000001000000000011#32 = .ok .execS := by decide

theorem test_decode_exec_q : decodeWord 0b00000000000000000010000000000011#32 = .ok .execQ := by decide

theorem test_decode_little_endian : decode [0x01, 0x01, 0x00, 0x00] = .ok .initF := by decide

theorem test_decode_refuses_three_bytes : decode [0x01, 0x01, 0x00] = .error .notFourBytes := by decide

theorem test_decode_illegal :
    decodeWord 0x00000100#32 = .error .fwdOutsideInit ∧
    decodeWord 0x00001001#32 = .error .reprOutsideExec ∧
    decodeWord 0x00003003#32 = .error .reprIllegal ∧
    decodeWord 0x00000103#32 = .error .fwdOutsideInit ∧
    decodeWord 0x0000000F#32 = .error .opIllegal ∧
    decodeWord 0x00004003#32 = .error .reservedBit ∧
    decodeWord 0xFFFFFFFF#32 = .error .reservedBit := by decide

/-! ### Registers and accesses -/

/-- V-RST-1, V-RST-2. -/
theorem test_reset_registers :
    answer offId 4 State.reset = value 0x46465432 ∧ answer offParam 4 State.reset = value 0x00012010 ∧
    answer offStatus 4 State.reset = value 0 ∧
    paramWord { log2Nmax := 10, renormShift := 32, blockBase := 0 } = 0x0001200A := by decide +kernel

/-- V-MEM-1. -/
theorem test_sample_halves :
    ∃ t, memWrite (SLOT 3) 8 0x0123456789ABCDEF#64 State.reset = .next t ∧
      answer (SLOT 3) 4 t = value 0x89ABCDEF ∧ answer (SLOT 3 + 4#21) 4 t = value 0x01234567 :=
  ⟨_, rfl, by decide +kernel, by decide +kernel⟩

/-- V-MEM-8, V-MEM-10, V-MEM-11. -/
theorem test_bus_errors :
    accessOk 0x002#21 4 = false ∧ accessOk 0x000#21 2 = false ∧ accessOk 0x008#21 8 = false ∧
    accessOk (SLOT 0 + 4#21) 8 = false ∧ accessOk (SLOT 0 + 8#21) 8 = true := by decide

/-! ### Commands -/

/-- V-DEC-1: NOP clears an error code. -/
theorem test_nop :
    exec .nop { pair12 with err := .config, drop := true } = .next { pair12 with err := .ok } := rfl

/-- V-INIT-1: size 2. -/
theorem test_init_f :
    exec .initF { State.reset with arg := 2#32 } =
      .next { State.reset with arg := 2#32, seq := some (.init 2 true .start) } := rfl

/-- V-INIT-1: size 6. -/
theorem test_init_f_config :
    exec .initF { State.reset with arg := 6#32 } =
      .next { State.reset with arg := 6#32, err := .config } := rfl

/-- V-INIT-1: the largest size, and one beyond it. -/
theorem test_init_i :
    exec .initI { State.reset with arg := 65536#32 } =
      .next { State.reset with arg := 65536#32, seq := some (.init 65536 false .start) } := rfl

theorem test_init_i_config :
    exec .initI { State.reset with arg := 131072#32 } =
      .next { State.reset with arg := 131072#32, err := .config } := rfl

/-- V-WIN-2. -/
theorem test_setwin :
    exec .setwin { State.reset with arg := 2#32 } =
      .next { State.reset with arg := 2#32, win := 2#2 } := rfl

/-- V-WIN-3: 4 is not taken modulo 4. -/
theorem test_setwin_window_id :
    exec .setwin { State.reset with arg := 4#32, win := 1#2 } =
      .next { State.reset with arg := 4#32, win := 1#2, err := .windowId } := rfl

/-- 44_execute.md R222: acceptance clears OVF. -/
theorem test_exec_d :
    exec .execD { pair12 with ovf := true } =
      .next { pair12 with seq := some (.exec .D ⟨2, 1, true, 0⟩ (.window 0) false) } := rfl

/-- V-DEC-3: NOT_READY, not SIZE_MISMATCH. -/
theorem test_exec_d_not_ready :
    exec .execD { State.reset with arg := 5#32 } =
      .next { State.reset with arg := 5#32, err := .notReady } := rfl

theorem test_exec_s :
    exec .execS pair12 = .next { pair12 with seq := some (.exec .S ⟨2, 1, true, 0⟩ (.window 0) false) } :=
  rfl

/-- 44_execute.md R221: SIZE_MISMATCH. -/
theorem test_exec_s_size :
    exec .execS { pair12 with arg := 4#32 } = .next { pair12 with arg := 4#32, err := .sizeMismatch } := rfl

theorem test_exec_q :
    exec .execQ pair12 = .next { pair12 with seq := some (.exec .Q ⟨2, 1, true, 0⟩ (.window 0) false) } :=
  rfl

/-- 70_reset_and_hazards.md R291. -/
theorem test_exec_q_dropped :
    exec .execQ (running .D (.window 0)) = .next { running .D (.window 0) with drop := true } := rfl

/-! ### Butterflies, tables and numbers -/

/-- V-BF in D: (1, 0) and (2, 0) forward, at the twiddle (1, -0). -/
theorem test_butterfly_d :
    readSlot (stageButterfly .D (latch pair12) 0 0 0 pair12).mem 0 = ⟨0x4008000000000000#64, 0#64⟩ ∧
    (readSlot (stageButterfly .D (latch pair12) 0 0 0 pair12).mem 1).re = 0xBFF0000000000000#64 := by
  decide +kernel

/-- V-BF in Q: 2^62 and -2^62 forward; the difference wraps. -/
theorem test_butterfly_q_wraps :
    (qsub 0x4000000000000000#64 0xC000000000000000#64) = (0x8000000000000000#64, true) := by decide +kernel

/-- V-BR-1: REV for N = 16. -/
theorem test_bit_reversal :
    (List.range 16).map (bitRev 4) = [0, 8, 4, 12, 2, 10, 6, 14, 1, 9, 5, 13, 3, 11, 7, 15] := by decide

/-- V-NUM-1, V-NUM-5, V-NUM-7, V-NUM-16, V-NUM-20. -/
theorem test_fixed_point :
    qadd 0x7FFFFFFFFFFFFFFF#64 1#64 = (0x8000000000000000#64, true) ∧
    renorm 32 (-1) = (0xFFFFFFFFFFFFFFFF#64, false) ∧
    renorm 32 (-4294967297) = (0xFFFFFFFFFFFFFFFE#64, false) ∧
    qdiv 0xFFFFFFFFFFFFFFFD#64 2 = 0xFFFFFFFFFFFFFFFF#64 ∧
    toQ 0xBFE0000000000000#64 = 0xFFFFFFFF80000000#64 := by decide +kernel

/-- V-NUM-31, V-NUM-34, V-NUM-38, V-NUM-39, V-NUM-40, V-NUM-36. -/
theorem test_floating_point :
    fadd binary64 0x8000000000000000 0x8000000000000000 = 0x8000000000000000 ∧
    fadd binary64 0x7FF0000000000001 0x3FF0000000000000 = 0x7FF8000000000000 ∧
    fdiv binary64 1 0x4000000000000000 = 0 ∧ fdiv binary64 3 0x4000000000000000 = 2 ∧
    fadd binary32 0x7F7FC99E 0x7F7FC99E = 0x7F800000 ∧
    fmul binary64 0x7FF0000000000000 0x8000000000000000 = 0x7FF8000000000000 := by decide +kernel

/-- V-TW-3: the twiddle factor at an eighth of a turn, here butterfly 1 of stage 0 of size 8. -/
theorem test_twiddle_eighth :
    twiddle .D 16 ⟨8, 3, true, 0⟩ 0 1 = ⟨0x3FE6A09E667F3BCD#64, 0xBFE6A09E667F3BCD#64⟩ ∧
    twiddle .S 16 ⟨8, 3, true, 0⟩ 0 1 = ⟨0x3F3504F3#64, 0xBF3504F3#64⟩ ∧
    twiddle .Q 16 ⟨8, 3, true, 0⟩ 0 1 = ⟨3037000499#64, -3037000499#64⟩ ∧
    twiddle .D 16 ⟨8, 3, false, 0⟩ 0 1 = ⟨0x3FE6A09E667F3BCD#64, 0x3FE6A09E667F3BCD#64⟩ ∧
    twiddle .Q 16 ⟨8, 3, false, 0⟩ 0 1 = ⟨3037000499#64, 3037000499#64⟩ := by decide +kernel

/-- V-NUM-8 and V-NUM-9; V-NUM-43. -/
theorem test_complex_product :
    cmulR 32 .Q ⟨0x100000000#64, 0#64⟩ ⟨3037000499#64, -3037000499#64⟩ =
      (⟨3037000499#64, -3037000499#64⟩, false) ∧
    cmulR 32 .Q ⟨0x8000000000000000#64, 0x8000000000000000#64⟩ ⟨3037000499#64, -3037000499#64⟩ =
      (⟨0x4AFB0CCD00000000#64, 0#64⟩, true) ∧
    cmulR 32 .D ⟨0xBFF0000000000000#64, 0#64⟩ ⟨0x3FF0000000000000#64, 0x8000000000000000#64⟩ =
      (⟨0xBFF0000000000000#64, 0#64⟩, false) := by decide +kernel

/-- 00_scope.md R8: the same register of a block mapped elsewhere, and an access that misses it. -/
theorem test_block_base :
    (∃ t, step { mapped with host := [.write 0x60000C 4 7#64] } = .next t ∧ t.arg = 7#32) ∧
    ∃ t, step { mapped with host := [.write 0x00000C 4 7#64] } = .next t ∧ t.arg = 0#32 :=
  ⟨⟨_, rfl, by decide⟩, _, rfl, by decide⟩

/-- 20_memory.md R57 with 10_state.md R31: what the host writes at SLOT 3 and SLOT 3 + 8 is what the engine
reads as re and im, in S the low halves. -/
theorem test_window_to_engine :
    ∃ t u, memWrite (SLOT 3) 8 0x0123456789ABCDEF#64 State.reset = .next t ∧
      memWrite (SLOT 3 + 8#21) 8 0xFEDCBA9876543210#64 t = .next u ∧
      sread .Q u 3 = ⟨0x0123456789ABCDEF#64, 0xFEDCBA9876543210#64⟩ ∧
      sread .S u 3 = ⟨0x89ABCDEF#64, 0x76543210#64⟩ :=
  ⟨_, _, rfl, rfl, by decide +kernel, by decide +kernel⟩

/-- 10_state.md R32: an entry of the table of the smallest block has one bit. -/
theorem test_rev_width : readRev (writeRev 0 3 (State.resetWith small)) 0 = 1 := by decide

/-- V-WROM-1, V-WROM-2, and V-NUM-19 with 43_butterfly.md R181. -/
theorem test_roms :
    hamming .D 16 8192 = 0x3FCB7C4D2EECEE21#64 ∧ hamming .S 16 8192 = 0x3E5BE269#64 ∧
    hamming .Q 16 57344 = 922262109#64 ∧ hanning .D 16 24576 = 0x3FEB504F333F9DE6#64 ∧
    twiddleCos .Q 16 4096 = 3968032377#64 := by decide +kernel

/-! ### Witnesses: a state and operands that meet the hypotheses of each obligation -/

/-- An illegal word, also as a bus value with high bits, and a legal one. -/
theorem witness_IllegalWordReportsAndChangesNothingElse :
    State.reset.seq = none ∧ (∃ e, decodeWord 0x00003003#32 = .error e) ∧
    (0xFFFFFFFF00003003#64).setWidth 32 = 0x00003003#32 ∧ decodeWord 0x00000003#32 = .ok .execD :=
  ⟨rfl, ⟨_, rfl⟩, by decide, rfl⟩

/-- Idle, and with an EXEC in flight. -/
theorem witness_StepRunsTheDecodedCommand :
    ((withCommand 0#32 State.reset).resetPin = false ∧
      (withCommand 0#32 State.reset).host = [.write (State.reset.params.address offCmd) 4 0#64] ∧
      decodeWord ((0#64).setWidth 32) = .ok .nop ∧ (withCommand 0#32 State.reset).seq = none) ∧
    (withCommand 0#32 (running .D (.window 0))).resetPin = false ∧
      (withCommand 0#32 (running .D (.window 0))).host = [.write (State.reset.params.address offCmd) 4 0#64] ∧
      ∃ job, (withCommand 0#32 (running .D (.window 0))).seq = some job :=
  ⟨⟨rfl, rfl, rfl, rfl⟩, rfl, rfl, _, rfl⟩

/-- The smallest and the largest parameters, and an entry of the smallest table. -/
theorem witness_ResetRegistersReadAsStated :
    Params.wf small = true ∧
    Params.wf { log2Nmax := 16, renormShift := 255, blockBase := 0 } = true ∧
    1 < Params.nmax small := by decide

/-- With an EXEC to abandon, and without. -/
theorem witness_ReleaseOfResetGivesTheResetState :
    ∀ s ∈ [{ running .D (.gather 1) with resetPin := true, host := [.releaseReset] },
        { pair12 with resetPin := true, host := [.releaseReset] }],
      s.resetPin = true ∧ s.host = [.releaseReset] := by simp

/-- Asserted with nothing to do, an access to the block, the addresses just below and above its window; both
edges while released, idle and with an EXEC in flight. -/
theorem witness_AssertedResetStopsHostAndEngine :
    ({ mapped with resetPin := true } : State).host = [] ∧
    ({ mapped with resetPin := true, host := [.poll] } : State).host = .poll :: [] ∧
    (0x5FFFFF < mapped.params.blockBase ∧ mapped.params.blockBase + 0x200000 ≤ 0x800000) ∧
    ({ mapped with resetPin := true, host := [.read 0x5FFFFF 4] } : State).host = .read 0x5FFFFF 4 :: [] ∧
    (State.reset.resetPin = false ∧ State.reset.seq = none ∧
      ({ State.reset with host := [.assertReset] } : State).host = .assertReset :: [] ∧
      ({ State.reset with host := [.releaseReset] } : State).host = .releaseReset :: []) ∧
    (running .D (.gather 1)).resetPin = false ∧
    (running .D (.gather 1)).seq = some (.exec .D (latch pair12) (.gather 1) false) :=
  ⟨rfl, rfl, by decide, rfl, ⟨rfl, rfl, rfl, rfl⟩, rfl, rfl⟩

theorem witness_IdleStepChangesNothing : State.reset.seq = none ∧ State.reset.host = [] := ⟨rfl, rfl⟩

/-- An 8-byte access just below the sample window, a misaligned one in it, a 2-byte one. -/
theorem witness_BadAccessGetsABusErrorAndNoEffect :
    accessOk 0x0FFFF8#21 8 = false ∧ accessOk 0x100004#21 8 = false ∧ accessOk 0x100000#21 2 = false ∧
    accessOk 0x100000#21 8 = true := by decide

/-- Both ends of the REV window and of each hole. -/
theorem witness_ReadOnlyAndUnmappedOffsetsIgnoreWrites :
    State.reset.params.wf = true ∧
    ([offId, offCfg, 0x40000#21, 0x7FFFC#21, 0x1C#21, 0x3FFFC#21, 0x80000#21, 0xFFFFC#21, offCmd].all
      fun a => accessOk a 4) = true ∧
    (0x40000 ≤ (0x7FFFC#21).toNat ∧ (0x7FFFC#21).toNat < 0x40000 + 4 * State.reset.params.nmax) ∧
    isHole State.reset.params 0x1C ∧ isHole State.reset.params 0x3FFFC ∧
    isHole State.reset.params 0x80000 ∧ isHole State.reset.params 0xFFFFC ∧
    isHole { log2Nmax := 4, renormShift := 32, blockBase := 0 } 0x100100 := by
  simp only [isHole]; decide +kernel

theorem witness_ReadsHaveNoSideEffect : State.reset.seq = none := rfl

/-- The first word and the last word of the sample window. -/
theorem witness_SampleWindowIsLittleEndian :
    State.reset.params.wf = true ∧ State.reset.seq = none ∧ 65535 < State.reset.params.nmax ∧
    SLOT 0 = 0x100000#21 ∧ SLOT 65535 + 8#21 = 0x1FFFF8#21 := by decide

/-- READY below N and from N on, an INIT running, and UNINIT; the first and the last entry. -/
theorem witness_RevWindowReadsTheTable :
    State.reset.params.wf = true ∧ 0 < State.reset.params.nmax ∧ 65535 < State.reset.params.nmax ∧
    (pair12.ready = true ∧ 1 < pair12.n ∧ initRunning pair12 = false ∧ pair12.n ≤ 2) ∧
    initRunning building = true ∧ State.reset.ready = false := by decide

/-- The first and the last word of the slots an EXEC has borrowed, and the word after them. -/
theorem witness_ReadsOfBorrowedSlotsAreFree :
    pair12.params.wf = true ∧ (running .D (.window 0)).seq = some (.exec .D (latch pair12) (.window 0) false) ∧
    accessOk 0x100000#21 8 = true ∧ accessOk 0x10001C#21 4 = true ∧ accessOk 0x100020#21 8 = true ∧
    inSlots (latch pair12).n 0x100000 ∧ inSlots (latch pair12).n 0x10001C ∧
    ¬inSlots (latch pair12).n 0x100020 := by
  refine ⟨by decide, rfl, by decide, by decide, by decide, ?_⟩
  simp [inSlots, sampleBase, latch, pair12, ready2]

/-- The last byte a run has borrowed and the first it has not; a marked run about to complete, forward and
inverse. -/
theorem witness_WriteToABorrowedSlotIsAHazard :
    (∃ t, step { running .D (.scale 2) with seq := some (.exec .D (latch pair12) (.scale 2) true) } = .next t ∧
      t.busy = false) ∧
    ((latch pair12).fwd = true ∧ (latch pair12).n ≤ 2) ∧
    pair12.params.wf = true ∧ (running .Q (.scale 1)).seq = some (.exec .Q (latch pair12) (.scale 1) false) ∧
    accessOk 0x10001C#21 4 = true ∧ inSlots (latch pair12).n 0x10001C ∧
    accessOk 0x100020#21 8 = true ∧ ¬inSlots (latch pair12).n 0x100020 ∧ 1 < (latch pair12).n := by
  refine ⟨⟨_, rfl, rfl⟩, by decide, by decide, rfl, by decide, ?_, by decide, ?_, by decide⟩ <;>
    simp [inSlots, sampleBase, latch, pair12, ready2]

/-- Idle and busy; the word 0 and another word with OP = 0. -/
theorem witness_NopClearsErrAndDropOnly :
    State.reset.seq = none ∧ (running .D (.window 0)).busy = true ∧ (0#32).toNat % 16 = 0 ∧
    (0x100#32).toNat % 16 = 0 ∧ (0x100#32 : Word32) ≠ 0#32 := by decide

/-- The smallest and the largest valid size, and the sizes beside them. -/
theorem witness_InitIsAcceptedExactlyForValidSizes :
    State.reset.seq = none ∧
    (∃ l, 1 ≤ l ∧ l ≤ State.reset.params.log2Nmax ∧ (2#32).toNat = 2 ^ l) ∧
    (∃ l, 1 ≤ l ∧ l ≤ State.reset.params.log2Nmax ∧ (65536#32).toNat = 2 ^ l) ∧
    (¬∃ l, 1 ≤ l ∧ l ≤ State.reset.params.log2Nmax ∧ (1#32).toNat = 2 ^ l) ∧
    (¬∃ l, 1 ≤ l ∧ l ≤ State.reset.params.log2Nmax ∧ (131072#32).toNat = 2 ^ l) := by
  refine ⟨rfl, ⟨1, by decide⟩, ⟨16, by decide⟩, ?_, ?_⟩
  all_goals
    rintro ⟨l, h1, h2, h3⟩
    have h2 : l ≤ 16 := h2
    interval_cases l <;> simp at h3

theorem witness_InitCompletesWithTheBitReversedTable :
    ({ State.reset with arg := 2#32 } : State).seq = none ∧
    ({ State.reset with arg := 2#32 } : State).resetPin = false ∧
    ({ State.reset with arg := 2#32 } : State).host = [] ∧
    1 ≤ State.reset.params.log2Nmax ∧ (2#32).toNat = 2 ^ 1 := by decide

theorem witness_SetwinTakesIdsUpToTwo :
    State.reset.seq = none ∧ (2#32).toNat ≤ 2 ∧ 2 < (3#32).toNat := by decide

theorem witness_ExecIsAccepted : pair12.seq = none ∧ execReady pair12 := by
  refine ⟨rfl, rfl, rfl, ?_⟩
  show (0#2 : BitVec 2) ≠ 3#2
  decide

theorem witness_ExecIsRefusedByItsFirstFailedCheck :
    (State.reset.seq = none ∧ State.reset.ctl = .uninit) ∧
    (pair12.ctl = .ready ∧ ({ pair12 with arg := 4#32 } : State).arg.toNat ≠ pair12.n) ∧
    (pair12.arg.toNat = pair12.n ∧ ({ pair12 with win := 3#2 } : State).win = 3#2) := by
  refine ⟨⟨rfl, rfl⟩, ⟨rfl, ?_⟩, rfl, rfl⟩
  show (4#32).toNat ≠ 2
  decide

theorem witness_CommandsAreDroppedWhileBusy :
    (running .S (.gather 0)).seq = some (.exec .S (latch pair12) (.gather 0) false) ∧
    building.seq = some (.init 2 true .start) := ⟨rfl, rfl⟩

theorem witness_ExecRunsItsFourSteps :
    pair12.seq = none ∧ pair12.resetPin = false ∧ pair12.host = [] ∧ execReady pair12 :=
  ⟨rfl, rfl, rfl, witness_ExecIsAccepted.2⟩

theorem witness_ExecStaysInsideItsSlots :
    pair12.Inv ∧ pair12.ctl = .ready ∧ initRunning pair12 = false ∧ ¬inSlots pair12.n 0x100020 ∧
    Representation.S ≠ .Q := by
  refine ⟨inv_pair12, rfl, rfl, ?_, by decide⟩
  simp [inSlots, sampleBase, pair12, ready2]

/-- Two buffers that differ in the upper halves alone (V-BF in S, U23). -/
theorem witness_UpperHalvesDoNotMatterInS :
    let s := ready2 ⟨0x3F800000#64, 0#64⟩ ⟨0x40000000#64, 0#64⟩
    let t := ready2 ⟨0xDEADBEEF3F800000#64, 0xFFFFFFFF00000000#64⟩ ⟨0x0123456740000000#64, 0#64⟩
    s.Inv ∧ t.Inv ∧ s.ctl = .ready ∧ initRunning s = false ∧ initRunning t = false ∧ t.ctl = s.ctl ∧
    t.params = s.params ∧ latch t = latch s ∧
    ∀ j < s.n,
      (readSlot s.mem j).re.toNat % 2 ^ 32 = (readSlot t.mem j).re.toNat % 2 ^ 32 ∧
      (readSlot s.mem j).im.toNat % 2 ^ 32 = (readSlot t.mem j).im.toNat % 2 ^ 32 := by
  refine ⟨inv_ready2 _ _, inv_ready2 _ _, rfl, rfl, rfl, rfl, rfl, rfl, ?_⟩
  show ∀ j < 2, _
  decide +kernel

/-- The first and the last stage of a transform of size 4, and a pair. -/
theorem witness_ButterflyReplacesItsPair :
    (⟨4, 2, true, 0⟩ : Latched).n = 2 ^ (⟨4, 2, true, 0⟩ : Latched).l ∧
    0 < (⟨4, 2, true, 0⟩ : Latched).l ∧ 1 < (⟨4, 2, true, 0⟩ : Latched).l ∧ (0 : Nat) ≠ 1 := by decide

theorem witness_DisjointButterfliesCommute :
    (0 : Nat) ≠ 1 ∧ (2 : Nat) ≠ 3 ∧ (0 : Nat) ≠ 2 ∧ (0 : Nat) ≠ 3 ∧ (1 : Nat) ≠ 2 ∧ (1 : Nat) ≠ 3 := by decide

/-- No window, Hamming, Hanning; the last sample of the run and the first slot after it. -/
theorem witness_WindowPassWeighsEverySample :
    (latch pair12).win = 0#2 ∧
    (latch { pair12 with win := 1#2 }).win = 1#2 ∧ (1#2 : BitVec 2) ≠ 0#2 ∧
    (latch { pair12 with win := 2#2 }).win = 2#2 ∧ (2#2 : BitVec 2) ≠ 0#2 ∧
    1 < (latch pair12).n ∧ (latch pair12).n ≤ 2 := by decide

theorem witness_PermutationMovesPatterns : 1 < (latch pair12).n ∧ (latch pair12).n ≤ 2 := by decide

theorem witness_OnlyTheInverseIsScaled :
    (latch pair12).fwd = true ∧ (latch { pair12 with fwd := false }).fwd = false ∧
    1 < (latch pair12).n ∧ (latch pair12).n ≤ 2 := by decide

/-- The smallest and the largest transform; the last address of a stage and of a window. -/
theorem witness_RomAddressesAreInRange :
    (1 ≤ 16 ∧ 0 < 1 ∧ 0 < 2 ^ (1 - 1 - 0)) ∧ (16 ≤ 16 ∧ 15 < 16 ∧ 0 < 2 ^ (16 - 1 - 15)) ∧
    (0 < 16 ∧ 32767 < 2 ^ (16 - 1 - 0)) ∧ 65535 < 2 ^ 16 := by decide

theorem finite_one64 : binary64.isFinite 0x3FF0000000000000 := ⟨false, 2 ^ 1074, by decide +kernel⟩

/-- Both infinities of binary64 are in range. -/
abbrev infinities64 : Prop :=
  0x7FF0000000000000 < 2 * binary64.signWeight ∧ 0xFFF0000000000000 < 2 * binary64.signWeight ∧
  unpack binary64 0x7FF0000000000000 = .inf false ∧ unpack binary64 0xFFF0000000000000 = .inf true

theorem infinities64_in_range : infinities64 := by decide +kernel

/-- The largest finite value of binary64 with a minus sign, the smallest subnormal of binary32, and
infinities. -/
theorem witness_SumsAndDifferencesRoundOnce :
    (0x3FF0000000000000 < 2 * binary64.signWeight ∧ 0xFFEFFFFFFFFFFFFF < 2 * binary64.signWeight ∧
      binary64.isFinite 0x3FF0000000000000 ∧ binary64.isFinite 0xFFEFFFFFFFFFFFFF) ∧
    (1 < 2 * binary32.signWeight ∧ binary32.isFinite 1) ∧ infinities64 :=
  ⟨⟨by decide, by decide, finite_one64, _, _, rfl⟩, ⟨by decide, _, _, rfl⟩, infinities64_in_range⟩

/-- Finite, infinite and zero operands. -/
theorem witness_ProductsAndQuotientsRoundOnce :
    0x3FF0000000000000 < 2 * binary64.signWeight ∧ binary64.isFinite 0x3FF0000000000000 ∧
    1 < 2 * binary64.signWeight ∧ binary64.isFinite 1 ∧ binary64.value 1 ≠ 0 ∧
    unpack binary64 1 = .fin false 1 ∧ unpack binary64 0x8000000000000000 = .fin true 0 ∧ infinities64 := by
  have h : unpack binary64 1 = .fin false 1 := by decide +kernel
  exact ⟨by decide, finite_one64, by decide, ⟨_, _, h⟩, by simp [Fmt.value, h, signedUnits], h,
    by decide +kernel, infinities64_in_range⟩

/-- A NaN, two infinities of opposite signs and zeros are in range. -/
theorem witness_NanResultsAreCanonical :
    0xFFF8000000000123 < 2 * binary64.signWeight ∧ 0xFFF0000000000000 < 2 * binary64.signWeight ∧
    unpack binary64 0xFFF8000000000123 = .nan ∧ unpack binary64 0x7FF0000000000000 = .inf false ∧
    unpack binary64 0xFFF0000000000000 = .inf true ∧ unpack binary64 0x8000000000000000 = .fin true 0 := by
  decide +kernel

/-- -0 and +0 sum and subtract to zero; a product and a quotient with -0 that are not NaN. -/
theorem witness_ZeroSignsFollowTheStandard :
    0x8000000000000000 < 2 * binary64.signWeight ∧ unpack binary64 0x8000000000000000 = .fin true 0 ∧
    unpack binary64 0 = .fin false 0 ∧
    binary64.value 0x8000000000000000 + binary64.value 0 = 0 ∧
    binary64.value 0x8000000000000000 - binary64.value 0 = 0 ∧
    unpack binary64 (fmul binary64 0x8000000000000000 1) ≠ .nan ∧
    unpack binary64 (fdiv binary64 0x8000000000000000 1) ≠ .nan := by
  have h1 : unpack binary64 0x8000000000000000 = .fin true 0 := by decide +kernel
  have h2 : unpack binary64 0 = .fin false 0 := by decide +kernel
  refine ⟨by decide, h1, h2, ?_, ?_, by decide +kernel, by decide +kernel⟩ <;>
    simp [Fmt.value, h1, h2, signedUnits]

theorem witness_FixedDivisionRoundsTowardZero : (2 : Nat) ≤ 2 := by decide

theorem witness_IntermediateFitsIn128Bits :
    (s64 0x100000000#64).natAbs ≤ 2 ^ 32 ∧ (s64 0xFFFFFFFF00000000#64).natAbs ≤ 2 ^ 32 := by decide

/-- The first and the last window entry, the least and the greatest weight, and a state to run on. -/
theorem witness_WindowPassNeverSetsOvf :
    (1 ≤ 1 ∧ 0 < 2 ^ 1) ∧ (16 ≤ 16 ∧ 65535 < 2 ^ 16) ∧
    (0 ≤ s64 0#64 ∧ s64 0#64 ≤ 2 ^ 32) ∧ (0 ≤ s64 0x100000000#64 ∧ s64 0x100000000#64 ≤ 2 ^ 32) ∧
    (pair12.Inv ∧ pair12.params.renormShift = 32 ∧ pair12.ctl = .ready) :=
  ⟨by decide, by decide, by decide, by decide, inv_pair12, rfl, rfl⟩

theorem witness_TwiddleRomIsCorrectlyRounded :
    (1 ≤ 1 ∧ 0 < 2 ^ 1 / 2) ∧ (1 ≤ 16 ∧ 16 ≤ 16 ∧ 32767 < 2 ^ 16 / 2) := by decide

theorem witness_WindowRomIsCorrectlyRounded :
    (1 ≤ 1 ∧ 1 < 2 ^ 1) ∧ (1 ≤ 16 ∧ 16 ≤ 16 ∧ 65535 < 2 ^ 16) := by decide

theorem witness_RomsHoldTheirExactValues :
    (1 ≤ 1 ∧ 1 ≤ 16) ∧ (2 ≤ 2 ∧ 2 ≤ 16) ∧ (1 ≤ 65535 ∧ 65535 < 2 ^ 16) := by decide

theorem witness_ResetMeetsTheInvariant :
    Params.wf small = true ∧ Params.wf Config.params = true := by decide

theorem witness_StepKeepsTheInvariant :
    pair12.Inv ∧ (running .D (.window 0)).Inv ∧ (∃ t, step pair12 = .next t) ∧
    ∃ t, step (running .D (.window 0)) = .next t :=
  ⟨inv_pair12, inv_running _ _, ⟨_, rfl⟩, _, rfl⟩

/-- With the host reading and polling meanwhile. -/
theorem witness_EveryLongCommandCompletes :
    (running .Q (.stages 0 0 0)).Inv ∧ (running .Q (.stages 0 0 0)).busy = true ∧
    (running .Q (.stages 0 0 0)).resetPin = false ∧ noReset (running .Q (.stages 0 0 0)).host = true ∧
    noReset [rd Config.params offStatus, .poll] = true := ⟨inv_running _ _, rfl, rfl, rfl, rfl⟩

/-- The step that completes an INIT. -/
theorem witness_ConfigurationChangesOnlyWhenAnInitCompletes :
    ∃ t, step built = .next t ∧ t.n = 2 ∧ t.ctl = .ready ∧ t.seq = none := ⟨_, rfl, rfl, rfl, rfl⟩

/-- A step that is a SETWIN. -/
theorem witness_WindowChangesOnlyBySetwin :
    ∃ t, step (withCommand 2#32 pair12) = .next t ∧ t.win = 2#2 := ⟨_, rfl, by decide⟩

/-- A step that writes ARG. -/
theorem witness_CommandsNeverWriteArgOrParam :
    ∃ t, step { mapped with host := [wr mapped.params offArg 5] } = .next t ∧ t.arg = 5#32 :=
  ⟨_, rfl, by decide⟩

/-- A step that clears DROP and writes ERR, and one that is a release of reset. -/
theorem witness_ErrAndDropAreWrittenByCommandWrites :
    (∃ t, step (withCommand 0x3003#32 { pair12 with drop := true }) = .next t ∧ t.drop = false ∧
      t.err = .illegalCmd) ∧
    ∃ t, step { pair12 with resetPin := true, drop := true, host := [.releaseReset] } = .next t ∧
      t.drop = false := ⟨⟨_, rfl, by decide, by decide⟩, _, rfl, rfl⟩

/-- A step that clears OVF. -/
theorem witness_OvfIsSetByExecQAndClearedByExec :
    ∃ t, step (withCommand 3#32 { pair12 with ovf := true }) = .next t ∧ t.ovf = false :=
  ⟨_, rfl, by decide⟩

/-- A step that writes REV, and one that writes SCR. -/
theorem witness_TablesChangeOnlyByTheirUnit :
    (∃ t, step building = .next t ∧ t.rev.cells = [(0, 0)]) ∧
    ∃ t, step (running .D (.gather 0)) = .next t ∧ t.scr.cells ≠ [] :=
  ⟨⟨_, rfl, rfl⟩, _, rfl, by decide +kernel⟩

/-- A host write that changes a byte. -/
theorem witness_SampleBytesChangeOnlyByTheirOwner :
    ({ pair12 with host := [.write 0x100000 4 1#64] } : State).Inv ∧
    ∃ t, step { pair12 with host := [.write 0x100000 4 1#64] } = .next t ∧
      readByte t.mem 0x100000 = 1#8 ∧ readByte pair12.mem 0x100000 = 0#8 := by
  have h := inv_pair12
  refine ⟨⟨h.params, h.win, h.err, h.mem, h.window, h.rev, h.scr, h.config, h.table, h.job⟩, _, rfl, ?_, ?_⟩
  · decide +kernel
  · decide +kernel

/-- Idle and busy; the addresses just below and above the window. -/
theorem witness_HostAccessesAreTheBusFunctions :
    mapped.resetPin = false ∧ mapped.seq = none ∧ mapped.params.wf = true ∧
    (0x5FFFFF < mapped.params.blockBase ∧ mapped.params.blockBase + 0x200000 ≤ 0x800000) ∧
    (running .D (.window 0)).resetPin = false ∧
    (running .D (.window 0)).seq = some (.exec .D (latch pair12) (.window 0) false) :=
  ⟨rfl, rfl, by decide, by decide, rfl, rfl⟩

/-- The least and the greatest ROM magnitude; both directions; the smallest and the largest ROM. -/
theorem witness_TwiddleFactorFollowsTheDirection :
    ((s64 0#64).natAbs ≤ 2 ^ 32 ∧ (s64 0xFFFFFFFF00000000#64).natAbs ≤ 2 ^ 32) ∧ (1 ≤ 1 ∧ 16 ≤ 16) ∧
    (latch pair12).fwd = true ∧ (latch { pair12 with fwd := false }).fwd = false := by decide

/-- Two slots; both formats; the least and the greatest N in them. -/
theorem witness_SampleOperationsActOnComponents :
    (1 : Nat) ≠ 0 ∧ (binary64 = binary64 ∨ binary64 = binary32) ∧ (binary32 = binary64 ∨ binary32 = binary32) ∧
    0 ≤ 16 ∧ 16 ≤ 16 := by decide

/-- The first and the last stage of the largest transform, its last part and its last offset, and two
butterflies of one stage. -/
theorem witness_StagesFollowTheSchedule :
    (⟨65536, 16, true, 0⟩ : Latched).n = 2 ^ (⟨65536, 16, true, 0⟩ : Latched).l ∧ 0 < 16 ∧ 15 < 16 ∧
    32767 < 2 ^ 15 ∧ 32767 < 2 ^ (16 - 1 - 0) ∧ 0 < 2 ^ (16 - 1 - 15) ∧ ((1, 0) : Nat × Nat) ≠ (0, 0) := by
  decide

end Sys2Proof.Tests
end

section
/-! PROOFS. Scope (spec/00_scope.md): one step written through the host's turn and the engine's turn, and
that the host's accesses are the bus functions at their offsets. -/

namespace Sys2Proof.Machine

/-! ### Who moves in a step -/

/-- With the engine idle the host's next entry moves (60_exceptions.md R270). -/
theorem step_idle_host {s : State} {op : HostOp} {ops : List HostOp} (hp : s.resetPin = false)
    (hq : s.seq = none) (hh : s.host = op :: ops) : step s = hostOp op { s with host := ops } := by
  simp [step, turn, hp, hq, hh]

/-- With a long command in flight it is open whether an entry other than a poll or the engine moves
(70_reset_and_hazards.md R290). Log 2. -/
theorem step_busy_host {s : State} {job : Job} {op : HostOp} {ops : List HostOp} (hp : s.resetPin = false)
    (hq : s.seq = some job) (hh : s.host = op :: ops) (hop : op ≠ .poll) :
    step s = if Config.hostFirst s.draws then hostOp op { s with host := ops, draws := s.draws + 1 }
      else .next (engineTurn job { s with draws := s.draws + 1 }) := by
  cases op with
  | poll => exact absurd rfl hop
  | _ => simp [step, turn, hp, hq, hh, State.drawn]

/-- While the host polls the engine moves (30_encoding.md R90). Log 3. -/
theorem step_busy_poll {s : State} {job : Job} {ops : List HostOp} (hp : s.resetPin = false)
    (hq : s.seq = some job) (hh : s.host = .poll :: ops) : step s = .next (engineTurn job s) := by
  simp [step, turn, hp, hq, hh]

/-! ### The host's list and the window -/

theorem engineTurn_host (job : Job) (s : State) : (engineTurn job s).host = s.host :=
  (congrArg State.host (engineTurn_frame job s) :)

/-- The window is aligned to its size (R8). -/
theorem blockBase_aligned {p : Params} (h : p.wf = true) : 0x200000 ∣ p.blockBase := by
  simp only [Params.wf, Bool.and_eq_true, beq_iff_eq] at h
  exact Nat.dvd_of_mod_eq_zero h.2

/-- An access whose address names no offset leaves the block as it is (20_memory.md R52). Log 10. -/
theorem hostOp_outside {op : HostOp} {a n : Nat} {v : Word64} {s : State} (ha : s.params.offsetOf a = none)
    (hop : op = .read a n ∨ op = .write a n v) : hostOp op s = .next s := by
  rcases hop with rfl | rfl <;> simp only [hostOp, ha]

/-! ### The host accesses are the bus functions -/

/-- A read and a write have in common that they are no poll. -/
theorem exists_access_of_host {s : State} {a n : Nat} {v : Word64} {ops : List HostOp}
    (h : s.host = .read a n :: ops ∨ s.host = .write a n v :: ops) :
    ∃ op, s.host = op :: ops ∧ op ≠ .poll ∧ (op = .read a n ∨ op = .write a n v) := by
  rcases h with h | h
  · exact ⟨_, h, by simp, .inl rfl⟩
  · exact ⟨_, h, by simp, .inr rfl⟩

/-- Settles O57: the step is the host's turn or the engine's (`step_idle_host`, `step_busy_host`), and the
host's turn at an address is the bus function at the offset it names, or nothing. -/
theorem hostAccessesAreTheBusFunctions : Obligations.HostAccessesAreTheBusFunctions := by
  intro s off a n v ops hp
  refine ⟨blockBase_aligned, rfl, fun hq => ⟨fun hh => ?_, fun hh => ?_, fun ha hh => ?_, fun hh => ?_⟩,
    fun job hq => ⟨fun hh => ?_, fun hh => ?_, fun ha hh => ?_, fun hh => ?_⟩⟩
  -- the engine is idle
  · exact (step_idle_host hp hq hh).trans (hostOp_read off n { s with host := ops })
  · exact (step_idle_host hp hq hh).trans (hostOp_write off n v { s with host := ops })
  · obtain ⟨op, hh, -, hop⟩ := exists_access_of_host hh
    exact (step_idle_host hp hq hh).trans (hostOp_outside (offsetOf_outside ha) hop)
  · exact step_idle_host hp hq hh
  -- a long command is in flight
  · rw [step_busy_host hp hq hh (by simp), hostOp_read off n { s with host := ops, draws := s.draws + 1 },
      apply_ite Host.Outcome.next]
  · rw [step_busy_host hp hq hh (by simp), hostOp_write off n v { s with host := ops, draws := s.draws + 1 }]
  · obtain ⟨op, hh, hpoll, hop⟩ := exists_access_of_host hh
    rw [step_busy_host hp hq hh hpoll, apply_ite Host.Outcome.next,
      hostOp_outside (s := { s with host := ops, draws := s.draws + 1 }) (offsetOf_outside ha) hop]
  · refine ⟨?_, engineTurn_host job s⟩
    rcases hh with hh | hh
    · exact step_busy_poll hp hq hh
    · exact step_alone ⟨hh, hp⟩ hq

end Sys2Proof.Machine
end

section
/-! PROOFS. State (spec/10_state.md): the reset state meets the invariant and every step keeps it. -/

namespace Sys2Proof.Machine

/-! ### Reset -/

/-- Empty RAMs, WIN = 0, ERR = OK, UNINIT and an idle sequencer, as the reset table gives them (10_state.md
R39), meet the invariant. -/
theorem State.Inv.of_reset_values {s : State} (hp : s.params.wf = true) (hw : s.win = 0#2) (he : s.err = .ok)
    (hm : s.mem.cells = []) (hr : s.rev.cells = []) (hs : s.scr.cells = []) (hc : s.ctl = .uninit)
    (hq : s.seq = none) : s.Inv where
  params := hp
  win := by simp [hw]
  err := by simp [he]
  mem := by simp [Memory.wf, rising, hm]
  window := by simp [hm]
  rev := by simp [revInv, rising, hr]
  scr := by simp [rising, hs]
  config := by simp [configInv, hc]
  table := by simp [tableInv, hc]
  job := by simp [jobInv, hq]

/-- Settles O47: the reset table's values meet the invariant. -/
theorem resetMeetsTheInvariant : Obligations.ResetMeetsTheInvariant := fun _ hp =>
  .of_reset_values hp rfl rfl rfl rfl rfl rfl rfl

theorem State.Inv.releaseReset {s : State} (h : s.Inv) : (Machine.releaseReset s).Inv :=
  .of_reset_values h.params rfl rfl rfl rfl rfl rfl rfl

/-! ### The two sides of a step -/

/-- The invariant says nothing of ARG, OVF, DROP and the draws. -/
theorem State.Inv.flags {s : State} (h : s.Inv) (a : Word32) (o d : Bool) (k : Nat) :
    ({ s with arg := a, ovf := o, drop := d, draws := k } : State).Inv :=
  ⟨h.params, h.win, h.err, h.mem, h.window, h.rev, h.scr, h.config, h.table, h.job⟩

/-- A turn of an EXEC stays inside its slots or completes it. -/
theorem State.Inv.execTurn {s : State} (h : s.Inv) {r : Representation} {cfg : Latched} {ph : Phase} {hz : Bool}
    (hq : s.seq = some (.exec r cfg ph hz)) : (Machine.execTurn r cfg hz ph s).Inv := by
  obtain ⟨-, -, hn, -⟩ := h.exec hq
  rcases execTurn_inv r hz ph s hn with ⟨ph', t, ht, he, -⟩ | he <;> rw [he]
  · exact h.touches ph' hq ht
  · exact h.finishExec hq

theorem State.Inv.engineTurn {s : State} (h : s.Inv) {job : Job} (hq : s.seq = some job) :
    (Machine.engineTurn job s).Inv := by
  cases job with
  | init size fwd loop => exact h.initTurn hq
  | exec r cfg ph hz =>
    obtain ⟨o, d, e⟩ := engineTurn_exec r cfg ph hz s
    rw [e]
    exact (h.execTurn hq).flags _ o _ d

theorem State.Inv.issueCommand {w : Word32} {s t : State} (h : s.Inv) (hi : issueCommand w s = .next t) :
    t.Inv := by
  rcases issueCommand_effect hi with ⟨-, rfl⟩ | ⟨-, rfl⟩ | ⟨hq, i, -, hc⟩
  · exact h.flags s.arg s.ovf true s.draws
  · exact ⟨h.params, h.win, by simp, h.mem, h.window, h.rev, h.scr, h.config, h.table, h.job⟩
  · exact h.command hq hc

/-- The answer to an access is a record. -/
theorem State.Inv.respond {s : State} (h : s.Inv) (v : Word64) : (Machine.respond v s).Inv :=
  h.records s.resetPin s.host _ s.faults s.draws

/-- Every host access keeps the invariant. -/
theorem State.Inv.hostEffect {op : HostOp} {s t : State} (h : s.Inv) (he : HostEffect op s t) : t.Inv := by
  cases he with
  | outside eq => exact eq ▸ h
  | observe r fs d eq => exact eq ▸ h.records s.resetPin s.host _ fs d
  | pin b eq _ => exact eq ▸ h.records b s.host s.resp s.faults s.draws
  | command v _ eq => exact (h.respond 0#64).issueCommand eq
  | arg v _ eq => exact eq ▸ (h.flags _ s.ovf s.drop s.draws).respond 0#64
  | sample addr n v _ ok low high eq => exact eq ▸ (h.sampleWrite v _ ok low high).respond 0#64

/-- Settles O48: each of the things a step can do (`step_inv`) keeps the invariant. -/
theorem stepKeepsTheInvariant : Obligations.StepKeepsTheInvariant := by
  intro s t h hs
  cases step_inv hs with
  | idle eq _ => exact eq ▸ h
  | held op ops _ _ eq => exact eq ▸ h.records s.resetPin ops s.resp s.faults s.draws
  | release ops _ _ eq => exact eq ▸ (h.records s.resetPin ops s.resp s.faults s.draws).releaseReset
  | engine job d _ hq eq _ =>
    exact eq ▸ (h.records s.resetPin s.host s.resp s.faults d).engineTurn hq
  | host op ops d _ _ eff _ => exact (h.records s.resetPin ops s.resp s.faults d).hostEffect eff

end Sys2Proof.Machine
end

section
/-! PROOFS. State (spec/10_state.md): the words of the registers bit by bit, and what the bus answers at
their offsets, at the REV window and at the holes. -/

namespace Sys2Proof.Machine

/-! ### Fields of a register word -/

/-- A bit of a word made from a number is that bit of the number. -/
theorem getLsbD_ofNat_eq_iff {x k : Nat} {b : Bool} (hk : k < 32) :
    (BitVec.ofNat 32 x).getLsbD k = b ↔ x / 2 ^ k % 2 = b.toNat := by
  rw [BitVec.getLsbD_ofNat, decide_eq_true hk, Bool.true_and, Nat.testBit_eq_decide_div_mod_eq]
  cases b <;> simp

/-- A word made from a number below 2^m has no bit from m on. -/
theorem getLsbD_ofNat_eq_false {x m k : Nat} (hx : x < 2 ^ m) (hk : m ≤ k) :
    (BitVec.ofNat 32 x).getLsbD k = false := by
  rw [BitVec.getLsbD_ofNat, Nat.testBit_lt_two_pow (hx.trans_le (Nat.pow_le_pow_right (by norm_num) hk)),
    Bool.and_false]

/-- A field of a word made from a number, as the number cut to its place. -/
theorem extractLsb'_ofNat_eq {x lo len v : Nat} (h : x % 2 ^ 32 / 2 ^ lo % 2 ^ len = v % 2 ^ len) :
    (BitVec.ofNat 32 x).extractLsb' lo len = BitVec.ofNat len v := by
  apply BitVec.eq_of_toNat_eq
  rw [BitVec.extractLsb'_toNat, BitVec.toNat_ofNat, BitVec.toNat_ofNat, Nat.shiftRight_eq_div_pow, h]

theorem errCode_lt (e : ErrCode) : e.code < 7 := by cases e <;> decide

/-- The fields of STATUS (10_state.md R27), its reserved bits 0 (R41). -/
theorem statusWord_fields (s : State) :
    (statusWord s).getLsbD 0 = s.busy ∧ (statusWord s).getLsbD 1 = s.ready ∧
    (statusWord s).extractLsb' 4 4 = BitVec.ofNat 4 s.err.code ∧
    (statusWord s).getLsbD 8 = s.ovf ∧ (statusWord s).getLsbD 9 = s.drop ∧
    ∀ k, (k = 2 ∨ k = 3 ∨ 10 ≤ k) → (statusWord s).getLsbD k = false := by
  have hb := s.busy.toNat_le
  have hr := s.ready.toNat_le
  have ho := s.ovf.toNat_le
  have hd := s.drop.toNat_le
  have he := errCode_lt s.err
  unfold statusWord
  refine ⟨?_, ?_, ?_, ?_, ?_, fun k hk => ?_⟩
  · rw [getLsbD_ofNat_eq_iff (by norm_num)]; omega
  · rw [getLsbD_ofNat_eq_iff (by norm_num)]; omega
  · apply extractLsb'_ofNat_eq; omega
  · rw [getLsbD_ofNat_eq_iff (by norm_num)]; omega
  · rw [getLsbD_ofNat_eq_iff (by norm_num)]; omega
  · rcases hk with rfl | rfl | hk
    · rw [getLsbD_ofNat_eq_iff (by norm_num), Bool.toNat_false]; omega
    · rw [getLsbD_ofNat_eq_iff (by norm_num), Bool.toNat_false]; omega
    · exact getLsbD_ofNat_eq_false (by omega) hk

/-- The fields of CFG (10_state.md R29), its reserved bits 0 (R41). -/
theorem cfgWord_fields (s : State) :
    (cfgWord s).extractLsb' 0 5 = (if s.ready then BitVec.ofNat 5 s.l else 0#5) ∧
    (cfgWord s).getLsbD 8 = (s.ready && s.fwd) ∧ (cfgWord s).extractLsb' 16 2 = s.win ∧
    ∀ k, (5 ≤ k ∧ k < 8 ∨ 9 ≤ k ∧ k < 16 ∨ 18 ≤ k) → (cfgWord s).getLsbD k = false := by
  have hw := s.win.isLt
  have hl : (if s.ready then BitVec.ofNat 5 s.l else 0#5) =
      BitVec.ofNat 5 (if s.ready then s.l % 2 ^ 5 else 0) := by
    split_ifs
    · exact BitVec.eq_of_toNat_eq (by simp)
    · rfl
  have hlt : (if s.ready then s.l % 2 ^ 5 else 0) < 2 ^ 5 := by split_ifs <;> omega
  have hf : (if s.ready then s.fwd.toNat else 0) = (s.ready && s.fwd).toNat := by
    cases s.ready <;> rfl
  have hb := (s.ready && s.fwd).toNat_le
  unfold cfgWord
  dsimp only
  rw [hl, hf]
  generalize (if s.ready then s.l % 2 ^ 5 else 0) = l at hlt ⊢
  refine ⟨?_, ?_, ?_, fun k hk => ?_⟩
  · apply extractLsb'_ofNat_eq; omega
  · rw [getLsbD_ofNat_eq_iff (by norm_num)]; omega
  · rw [extractLsb'_ofNat_eq (v := s.win.toNat) (by omega), BitVec.ofNat_toNat, BitVec.setWidth_eq]
  · rcases hk with ⟨h1, h2⟩ | ⟨h1, h2⟩ | hk
    · rw [getLsbD_ofNat_eq_iff (by omega), Bool.toNat_false]
      interval_cases k <;> omega
    · rw [getLsbD_ofNat_eq_iff (by omega), Bool.toNat_false]
      interval_cases k <;> omega
    · exact getLsbD_ofNat_eq_false (by omega) hk

/-- The fields of PARAM (10_state.md R24). -/
theorem paramWord_fields (p : Params) :
    (paramWord p).extractLsb' 0 5 = BitVec.ofNat 5 p.log2Nmax ∧ (paramWord p).extractLsb' 5 3 = 0#3 ∧
    (paramWord p).extractLsb' 8 8 = BitVec.ofNat 8 p.renormShift ∧
    (paramWord p).extractLsb' 16 16 = 0x0001#16 := by
  unfold paramWord
  refine ⟨?_, ?_, ?_, ?_⟩ <;> apply extractLsb'_ofNat_eq <;> omega

/-! ### Reads and writes of the registers -/

section
variable (s : State)
theorem answer_offId : answer offId 4 s = value 0x46465432#64 := rfl
theorem answer_offParam : answer offParam 4 s = value ((paramWord s.params).setWidth 64) := rfl
theorem memRead_offCmd : memRead offCmd 4 s = respond 0#64 s := rfl
theorem answer_offArg : answer offArg 4 s = value (s.arg.setWidth 64) := rfl
theorem answer_offStatus : answer offStatus 4 s = value ((statusWord s).setWidth 64) := rfl
theorem answer_offCfgN : answer offCfgN 4 s = value ((cfgNWord s).setWidth 64) := rfl
theorem answer_offCfg : answer offCfg 4 s = value ((cfgWord s).setWidth 64) := rfl
theorem memWrite_offArg (v : Word64) :
    memWrite offArg 4 v s = .next (respond 0#64 { s with arg := v.setWidth 32 }) := rfl
end

/-- Settles O18: the bus takes the access, and the region of its offset is ARG, in every state. -/
theorem argIsWrittenAndReadAtAnyTime : Obligations.ArgIsWrittenAndReadAtAnyTime :=
  fun s v => ⟨memWrite_offArg s v, answer_offArg s⟩

/-- Settles O11: the fields of the three words, and the answers at the registers' offsets. -/
theorem registerWordsHoldTheirFields : Obligations.RegisterWordsHoldTheirFields := by
  intro s
  obtain ⟨hbusy, hready, herr, hovf, hdrop, hstatus⟩ := statusWord_fields s
  obtain ⟨hl, hfwd, hwin, hcfg⟩ := cfgWord_fields s
  obtain ⟨hlog2, hzero, hshift, hversion⟩ := paramWord_fields s.params
  exact ⟨hbusy, hready, herr, hovf, hdrop, hstatus, hl, hfwd, hwin, hcfg, hlog2, hzero, hshift, hversion, rfl,
    answer_offId s, answer_offParam s, answer_offStatus s, answer_offCfgN s, answer_offCfg s⟩

/-! ### The REV window and the holes -/

theorem nmax_le {p : Params} (h : p.wf = true) : p.nmax ≤ 65536 := by
  simp only [Params.wf, Bool.and_eq_true, decide_eq_true_eq] at h
  exact Nat.pow_le_pow_right (n := 2) (by norm_num) h.1.1.2

/-- Every offset of the REV window is an entry of it (20_memory.md R52). -/
theorem regionOf_eq_rev {p : Params} {addr : Offset} (lo : 0x40000 ≤ addr.toNat)
    (hi : addr.toNat < 0x40000 + 4 * p.nmax) : regionOf p addr = .rev ((addr.toNat - 0x40000) / 4) := by
  have hr : revBase = 0x40000 := rfl
  unfold regionOf
  dsimp only
  rw [if_neg (by omega), if_pos (by omega), hr]

theorem registerAt_hole {a : Nat} (h : 0x1C ≤ a) : registerAt a = .hole := by
  unfold registerAt
  split
  case h_8 => rfl
  all_goals omega

/-- The unmapped, unassigned and beyond-NMAX offsets are holes (20_memory.md R52, R63). -/
theorem regionOf_eq_hole {p : Params} {addr : Offset} (hp : p.wf = true) (h : isHole p addr.toNat) :
    regionOf p addr = .hole := by
  have hn := nmax_le hp
  have hr : revBase = 0x40000 := rfl
  have hs : sampleBase = 0x100000 := rfl
  unfold isHole at h
  unfold regionOf
  dsimp only
  split_ifs with h1 h2 h3
  · exact registerAt_hole (by omega)
  · omega
  · omega
  · rfl

/-- A write the bus takes to a region other than CMD, ARG and the slots is ignored. -/
theorem memWrite_ignored {addr : Offset} {n : Nat} (v : Word64) {s : State} (ok : accessOk addr n = true)
    (hc : regionOf s.params addr ≠ .cmd) (ha : regionOf s.params addr ≠ .arg)
    (hs : ∀ j, regionOf s.params addr ≠ .sample j) : memWrite addr n v s = .next (respond 0#64 s) := by
  unfold memWrite
  rw [if_pos ok]
  split
  · exact absurd ‹_› hc
  · exact absurd ‹_› ha
  · exact absurd ‹_› (hs _)
  · rfl

/-- A read the bus takes of a hole answers 0 (20_memory.md R63). -/
theorem memRead_hole {addr : Offset} {n : Nat} {s : State} (ok : accessOk addr n = true)
    (h : regionOf s.params addr = .hole) : memRead addr n s = respond 0#64 s := by
  unfold memRead
  rw [if_pos ok, h]

/-- Settles O13: none of these offsets is in a region that a write reaches, and CMD and the holes answer 0. -/
theorem readOnlyAndUnmappedOffsetsIgnoreWrites : Obligations.ReadOnlyAndUnmappedOffsetsIgnoreWrites := by
  intro s addr n v hp ok
  refine ⟨fun h => ?_, fun h => ?_⟩
  · suffices ∃ r, regionOf s.params addr = r ∧ r ≠ .cmd ∧ r ≠ .arg ∧ ∀ j, r ≠ .sample j by
      obtain ⟨r, rfl, hc, ha, hs⟩ := this
      exact memWrite_ignored v ok hc ha hs
    rcases h with rfl | rfl | rfl | rfl | rfl | ⟨lo, hi⟩ | h
    · exact ⟨.id, rfl, by simp⟩
    · exact ⟨.param, rfl, by simp⟩
    · exact ⟨.status, rfl, by simp⟩
    · exact ⟨.cfgN, rfl, by simp⟩
    · exact ⟨.cfg, rfl, by simp⟩
    · exact ⟨_, regionOf_eq_rev lo hi, by simp⟩
    · exact ⟨_, regionOf_eq_hole hp h, by simp⟩
  · rcases h with rfl | h
    · obtain ⟨rfl, -⟩ := accessOk_low ok (by decide)
      exact memRead_offCmd s
    · exact memRead_hole ok (regionOf_eq_hole hp h)

/-! ### After reset -/

/-- PARAM with both parameters in range, in the 64 bits of the bus. -/
theorem setWidth_paramWord {p : Params} (hp : p.wf = true) :
    (paramWord p).setWidth 64 = BitVec.ofNat 64 (p.log2Nmax + 256 * p.renormShift + 65536) := by
  simp only [Params.wf, Bool.and_eq_true, decide_eq_true_eq] at hp
  obtain ⟨⟨⟨-, hl⟩, hr⟩, -⟩ := hp
  apply BitVec.eq_of_toNat_eq
  simp only [paramWord, BitVec.toNat_setWidth, BitVec.toNat_ofNat]
  omega

/-- The offset of an entry of REV. -/
theorem toNat_REVA {p : Params} (hp : p.wf = true) {i : Nat} (hi : i < p.nmax) :
    (REVA i).toNat = 0x40000 + 4 * i := by
  have hn := nmax_le hp
  have hr : revBase = 0x40000 := rfl
  simp only [REVA, BitVec.toNat_ofNat, hr]
  omega

/-- A 4-byte access at the offset of an entry of REV reaches that entry (20_memory.md R54). -/
theorem memRead_REVA {s : State} (hp : s.params.wf = true) {i : Nat} (hi : i < s.params.nmax) :
    memRead (REVA i) 4 s = revRead i s := by
  have ha := toNat_REVA hp hi
  have ok : accessOk (REVA i) 4 = true := (accessOk_iff _ _).mpr (.inl ⟨rfl, by omega⟩)
  unfold memRead
  rw [if_pos ok, regionOf_eq_rev (by omega) (by omega), ha, Nat.add_sub_cancel_left,
    Nat.mul_div_cancel_left i (by norm_num)]

/-- Settles O7: each register's answer is its word's value in the reset state, and the REV window is masked
to 0 in UNINIT. -/
theorem resetRegistersReadAsStated : Obligations.ResetRegistersReadAsStated := fun _ hp =>
  ⟨rfl, congrArg value (setWidth_paramWord hp), rfl, rfl, rfl, rfl, rfl,
    fun _ hi => congrArg (fun u => u.resp.head?) (memRead_REVA (s := .resetWith _) hp hi), rfl, rfl, rfl⟩

end Sys2Proof.Machine
end

section
/-! PROOFS. State (spec/10_state.md): which steps change a field of the state. The host's turn and the
engine's turn each change a few fields; every statement is read off the case of `step_inv`. -/

namespace Sys2Proof.Machine

/-! ### What a command changes -/

/-- A command changes ERR, OVF, DROP, WIN and the sequencer, nothing else. -/
theorem CommandEffect.frame {i : Instr} {s t : State} (h : CommandEffect i s t) :
    { t with err := s.err, ovf := s.ovf, drop := s.drop, win := s.win, seq := s.seq } = s := by
  rcases h with ⟨e, -, rfl⟩ | ⟨-, -, rfl⟩ | ⟨fwd, -, -, rfl⟩ | ⟨r, -, -, rfl⟩ <;> rfl

/-- Of the commands SETWIN alone changes WIN, to an ARG of at most 2 (42_window.md R163). -/
theorem CommandEffect.win {i : Instr} {s t : State} (h : CommandEffect i s t) :
    t.win = s.win ∨ (i = .setwin ∧ s.arg.toNat ≤ 2 ∧ t.win = BitVec.ofNat 2 s.arg.toNat) := by
  rcases h with ⟨e, -, rfl⟩ | ⟨hi, hle, rfl⟩ | ⟨fwd, -, -, rfl⟩ | ⟨r, -, -, rfl⟩
  · exact .inl rfl
  · exact .inr ⟨hi, hle, rfl⟩
  · exact .inl rfl
  · exact .inl rfl

theorem issueCommand_frame {w : Word32} {s t : State} (h : issueCommand w s = .next t) :
    { t with err := s.err, ovf := s.ovf, drop := s.drop, win := s.win, seq := s.seq } = s := by
  rcases issueCommand_effect h with ⟨-, rfl⟩ | ⟨-, rfl⟩ | ⟨-, i, -, hc⟩
  · rfl
  · rfl
  · exact hc.frame

/-- A command write changes WIN when the engine is idle and the word is SETWIN's. -/
theorem issueCommand_win {w : Word32} {s t : State} (h : issueCommand w s = .next t) :
    t.win = s.win ∨ (decodeWord w = .ok .setwin ∧ s.seq = none ∧ s.arg.toNat ≤ 2 ∧
      t.win = BitVec.ofNat 2 s.arg.toNat) := by
  rcases issueCommand_effect h with ⟨-, rfl⟩ | ⟨-, rfl⟩ | ⟨hq, i, hi, hc⟩
  · exact .inl rfl
  · exact .inl rfl
  · exact hc.win.imp id fun ⟨he, hle, hw⟩ => ⟨he ▸ hi, hq, hle, hw⟩

/-! ### What the host's turn changes -/

/-- The fields the host's turn may change, and how it may change WIN, ARG and the sample RAM. -/
structure HostChanges (op : HostOp) (s t : State) : Prop where
  frame : { t with
    arg := s.arg, err := s.err, ovf := s.ovf, drop := s.drop, win := s.win, mem := s.mem, seq := s.seq
    resetPin := s.resetPin, host := s.host, resp := s.resp, faults := s.faults, draws := s.draws } = s
  /-- WIN by a command write of SETWIN (42_window.md R163). -/
  win : t.win = s.win ∨ ∃ v, op = .write (s.params.address offCmd) 4 v ∧
    decodeWord (v.setWidth 32) = .ok .setwin ∧ s.seq = none ∧ s.arg.toNat ≤ 2 ∧
    t.win = BitVec.ofNat 2 s.arg.toNat
  /-- ARG by a write of it (10_state.md R26). -/
  arg : t.arg = s.arg ∨ ∃ v, op = .write (s.params.address offArg) 4 v ∧ t.arg = v.setWidth 32
  /-- The sample RAM by a write in its window (20_memory.md R57, R58). -/
  mem : t.mem = s.mem ∨ ∃ off n v, op = .write (s.params.address off) n v ∧ accessOk off n = true ∧
    t.mem = writeLE s.mem off.toNat n v.toNat

theorem HostEffect.changes {op : HostOp} {s t : State} (h : HostEffect op s t) : HostChanges op s t := by
  cases h with
  | outside eq => subst eq; exact ⟨rfl, .inl rfl, .inl rfl, .inl rfl⟩
  | observe r fs d eq => subst eq; exact ⟨rfl, .inl rfl, .inl rfl, .inl rfl⟩
  | pin b eq _ => subst eq; exact ⟨rfl, .inl rfl, .inl rfl, .inl rfl⟩
  | command v op_eq eq =>
    have e := issueCommand_frame eq
    exact {
      frame := (congrArg (fun u : State => { u with
        arg := s.arg, mem := s.mem, resetPin := s.resetPin, host := s.host, resp := s.resp
        faults := s.faults, draws := s.draws }) e :)
      win := (issueCommand_win eq).imp id fun h => ⟨v, op_eq, h⟩
      arg := .inl (congrArg State.arg e :)
      mem := .inl (congrArg State.mem e :) }
  | arg v op_eq eq => subst eq; exact ⟨rfl, .inl rfl, .inr ⟨v, op_eq, rfl⟩, .inl rfl⟩
  | sample addr n v op_eq ok _ _ eq =>
    obtain ⟨q, f, e⟩ := sampleWrite_frame addr n v ((addr.toNat - sampleBase) / 16) s
    rw [e] at eq
    subst eq
    exact ⟨rfl, .inl rfl, .inl rfl, .inr ⟨addr, n, v, op_eq, ok, rfl⟩⟩

/-- The host's turn changes a byte of the sample RAM only by a write that covers it. -/
theorem HostChanges.byte {op : HostOp} {s t : State} (h : HostChanges op s t) (a : Nat) :
    readByte t.mem a = readByte s.mem a ∨ ∃ off n v, op = .write (s.params.address off) n v ∧
      accessOk off n = true ∧ off.toNat ≤ a ∧ a < off.toNat + n ∧
      readByte t.mem a = BitVec.ofNat 8 (v.toNat / 256 ^ (a - off.toNat)) := by
  rcases h.mem with hm | ⟨off, n, v, hop, hok, hm⟩
  · exact .inl (by rw [hm])
  · rw [hm, readByte_writeLE]
    split_ifs with hin
    · exact .inr ⟨off, n, v, hop, hok, hin.1, hin.2, rfl⟩
    · exact .inl rfl

/-! ### What the engine's turn changes -/

/-- A turn of an EXEC changes the sample RAM, SCR, OVF, the sequencer and the count of draws, nothing else. -/
theorem engineTurn_exec_frame (r : Representation) (cfg : Latched) (ph : Phase) (hz : Bool) (s : State) :
    { engineTurn (.exec r cfg ph hz) s with
      mem := s.mem, scr := s.scr, ovf := s.ovf, seq := s.seq, draws := s.draws } = s := by
  obtain ⟨o, d, e⟩ := engineTurn_exec r cfg ph hz s
  rw [e]
  rcases execTurn_frame r cfg hz ph s with ⟨ph', t, hw, he, -⟩ | he <;> rw [he]
  · exact (congrArg (fun u : State => { u with seq := s.seq, draws := s.draws }) hw.frame :)
  · obtain ⟨m, k, e⟩ := finishExec_inv cfg hz s
    rw [e]

/-- SCR is written in the first loop of the permutation alone (43_butterfly.md R190). -/
theorem engineTurn_exec_scr (r : Representation) (cfg : Latched) {ph : Phase} (hz : Bool) (s : State)
    (h : ∀ i, ph ≠ .gather i) : (engineTurn (.exec r cfg ph hz) s).scr = s.scr := by
  obtain ⟨o, d, e⟩ := engineTurn_exec r cfg ph hz s
  rw [e]
  rcases execTurn_frame r cfg hz ph s with ⟨ph', t, -, he, hscr⟩ | he <;> rw [he]
  · exact hscr h
  · obtain ⟨m, k, e⟩ := finishExec_inv cfg hz s
    rw [e]

/-- A turn of an EXEC writes bytes of its slots alone (44_execute.md R228). -/
theorem engineTurn_exec_byte (r : Representation) {cfg : Latched} (ph : Phase) (hz : Bool) (s : State)
    (hn : cfg.n = 2 ^ cfg.l) {a : Nat} (ha : ¬inSlots cfg.n a) :
    readByte (engineTurn (.exec r cfg ph hz) s).mem a = readByte s.mem a := by
  obtain ⟨o, d, e⟩ := engineTurn_exec r cfg ph hz s
  rw [e]
  rcases execTurn_inv r hz ph s hn with ⟨ph', t, ht, he, -⟩ | he <;> rw [he]
  · exact ht.bytes a ha
  · unfold finishExec
    split_ifs
    · exact readByte_freeSlots_other s ha
    · rfl

/-- A turn of an INIT leaves the sample RAM and SCR alone. -/
theorem initTurn_rams (size : Nat) (fwd : Bool) (loop : BuildLoop) (s : State) :
    (initTurn size fwd loop s).mem = s.mem ∧ (initTurn size fwd loop s).scr = s.scr := by
  rcases initTurn_inv size fwd loop s with ⟨loop', rev', he, -⟩ | ⟨half, b, j, -, -, he⟩ <;> rw [he]
  · exact ⟨rfl, rfl⟩
  · exact ⟨rfl, rfl⟩

/-- A turn of the engine leaves the parameters, ARG and WIN alone. -/
theorem engineTurn_registers (job : Job) (s : State) :
    (engineTurn job s).params = s.params ∧ (engineTurn job s).arg = s.arg ∧ (engineTurn job s).win = s.win :=
  have e := engineTurn_frame job s
  ⟨(congrArg State.params e :), (congrArg State.arg e :), (congrArg State.win e :)⟩

/-! ### Settled -/

/-- Settles O50: of the parts of a step the completion of an INIT alone writes the configuration. -/
theorem configurationChangesOnlyWhenAnInitCompletes :
    Obligations.ConfigurationChangesOnlyWhenAnInitCompletes := by
  intro s t hs
  cases step_inv hs with
  | idle eq _ => subst eq; exact .inl ⟨rfl, rfl, rfl, rfl⟩
  | held op ops _ _ eq => subst eq; exact .inl ⟨rfl, rfl, rfl, rfl⟩
  | release ops hp hh _ => exact .inr (.inr ⟨hp, ops, hh⟩)
  | host op ops d _ _ eff _ =>
    have e := eff.changes.frame
    exact .inl ⟨(congrArg State.n e :), (congrArg State.l e :), (congrArg State.fwd e :),
      (congrArg State.ctl e :)⟩
  | engine job d _ hq eq _ =>
    subst eq
    cases job with
    | exec r cfg ph hz =>
      have e := engineTurn_exec_frame r cfg ph hz { s with draws := d }
      exact .inl ⟨(congrArg State.n e :), (congrArg State.l e :), (congrArg State.fwd e :),
        (congrArg State.ctl e :)⟩
    | init size fwd loop =>
      rw [engineTurn]
      rcases initTurn_inv size fwd loop { s with draws := d } with
        ⟨loop', rev', he, -⟩ | ⟨half, b, j, rfl, hb, he⟩ <;> rw [he]
      · exact .inl ⟨rfl, rfl, rfl, rfl⟩
      · exact .inr (.inl ⟨size, fwd, half, b, j, hq, hb, rfl, rfl, rfl, rfl, rfl⟩)

/-- Settles O51: neither the engine nor an access other than a command write changes WIN. -/
theorem windowChangesOnlyBySetwin : Obligations.WindowChangesOnlyBySetwin := by
  intro s t hs
  cases step_inv hs with
  | idle eq _ => subst eq; exact .inl rfl
  | held op ops _ _ eq => subst eq; exact .inl rfl
  | release ops hp hh _ => exact .inr (.inr ⟨hp, ops, hh⟩)
  | engine job d _ _ eq _ => exact .inl (eq ▸ (engineTurn_registers job _).2.2)
  | host op ops d hp hh eff _ =>
    rcases eff.changes.win with h | ⟨v, rfl, hdec, hq, hle, hw⟩
    · exact .inl h
    · exact .inr (.inl ⟨v, ⟨hp, ops, hh⟩, hdec, hq, hle, hw⟩)

/-- Settles O52: neither the engine nor a command writes ARG, and nothing writes the parameters. -/
theorem commandsNeverWriteArgOrParam : Obligations.CommandsNeverWriteArgOrParam := by
  intro s t hs
  cases step_inv hs with
  | idle eq _ => subst eq; exact ⟨rfl, .inl rfl⟩
  | held op ops _ _ eq => subst eq; exact ⟨rfl, .inl rfl⟩
  | release ops hp hh eq => subst eq; exact ⟨rfl, .inr (.inr ⟨hp, ops, hh⟩)⟩
  | engine job d _ _ eq _ =>
    subst eq
    obtain ⟨hparams, harg, -⟩ := engineTurn_registers job { s with draws := d }
    exact ⟨hparams, .inl harg⟩
  | host op ops d hp hh eff _ =>
    refine ⟨(congrArg State.params eff.changes.frame :), ?_⟩
    rcases eff.changes.arg with h | ⟨v, rfl, ha⟩
    · exact .inl h
    · exact .inr (.inl ⟨v, ⟨hp, ops, hh⟩, ha⟩)

/-- Settles O55: the host never writes the two tables; the engine writes REV in an INIT and SCR in the first
loop of the permutation. -/
theorem tablesChangeOnlyByTheirUnit : Obligations.TablesChangeOnlyByTheirUnit := by
  intro s t hs
  cases step_inv hs with
  | idle eq _ => subst eq; exact ⟨.inl rfl, .inl rfl⟩
  | held op ops _ _ eq => subst eq; exact ⟨.inl rfl, .inl rfl⟩
  | release ops hp hh _ => exact ⟨.inr (.inr ⟨hp, ops, hh⟩), .inr (.inr ⟨hp, ops, hh⟩)⟩
  | host op ops d _ _ eff _ =>
    have e := eff.changes.frame
    exact ⟨.inl (congrArg State.rev e :), .inl (congrArg State.scr e :)⟩
  | engine job d _ hq eq _ =>
    subst eq
    cases job with
    | init size fwd loop =>
      exact ⟨.inr (.inl (by simp [initRunning, hq])), .inl (initTurn_rams size fwd loop _).2⟩
    | exec r cfg ph hz =>
      refine ⟨.inl (congrArg State.rev (engineTurn_exec_frame r cfg ph hz { s with draws := d }) :), ?_⟩
      by_cases hg : ∃ i, ph = .gather i
      · obtain ⟨i, rfl⟩ := hg
        exact .inr (.inl ⟨r, cfg, i, hz, hq⟩)
      · exact .inl (engineTurn_exec_scr r cfg hz _ (not_exists.mp hg))

/-- Settles O56: the host writes the bytes of its access, a running EXEC those of its slots. -/
theorem sampleBytesChangeOnlyByTheirOwner : Obligations.SampleBytesChangeOnlyByTheirOwner := by
  intro s t hinv hs a
  cases step_inv hs with
  | idle eq _ => subst eq; exact .inl rfl
  | held op ops _ _ eq => subst eq; exact .inl rfl
  | release ops hp hh _ => exact .inr (.inr (.inr ⟨hp, ops, hh⟩))
  | host op ops d hp hh eff _ =>
    rcases eff.changes.byte a with h | ⟨off, n, v, rfl, hbyte⟩
    · exact .inl h
    · exact .inr (.inl ⟨hp, off, n, v, ops, hh, hbyte⟩)
  | engine job d hp hq eq _ =>
    subst eq
    cases job with
    | init size fwd loop => exact .inl (congrArg (readByte · a) (initTurn_rams size fwd loop _).1)
    | exec r cfg ph hz =>
      by_cases ha : inSlots cfg.n a
      · exact .inr (.inr (.inl ⟨hp, r, cfg, ph, hz, hq, ha⟩))
      · exact .inl (engineTurn_exec_byte r ph hz _ (hinv.exec hq).2.2.1 ha)

end Sys2Proof.Machine
end

section
/-! PROOFS. State (spec/10_state.md): EXEC.S does not depend on bits [63:32] of its samples. Two states that
the engine reads alike in S go through the four steps alike. -/

namespace Sys2Proof.Machine

/-! ### Loops -/

/-- A relation that every pass of a loop advances by one relates the ends of the two loops. -/
theorem forRange_rel {P : Nat → State → State → Prop} {n : Nat} {f : Nat → State → State} {s t : State}
    (h0 : P 0 s t) (hf : ∀ i < n, ∀ s t, P i s t → P (i + 1) (f i s) (f i t)) :
    P n (forRange n f s) (forRange n f t) := by
  induction n with
  | zero => exact h0
  | succ n ih => exact hf n (by omega) _ _ (ih fun i hi => hf i (by omega))

/-! ### States the engine reads alike in S -/

/-- In S the engine reads the slots 0 to n - 1 of the two states alike (10_state.md R31), and the tables
agree on entries that stay below n. -/
structure AgreeInS (n : Nat) (s t : State) : Prop where
  params : t.params = s.params
  rev    : ∀ i < n, readRev t i = readRev s i ∧ readRev s i < n
  slots  : ∀ j < n, sread .S t j = sread .S s j

theorem readRev_eq_of {s t : State} (hp : t.params = s.params) (hr : t.rev = s.rev) (i : Nat) :
    readRev t i = readRev s i := by
  unfold readRev; rw [hp, hr]

/-- The relation speaks of the parameters, the table and the sample RAM alone. -/
theorem AgreeInS.of_fields {n : Nat} {s t s' t' : State} (h : AgreeInS n s t)
    (hs : s'.params = s.params ∧ s'.rev = s.rev ∧ s'.mem = s.mem)
    (ht : t'.params = t.params ∧ t'.rev = t.rev ∧ t'.mem = t.mem) : AgreeInS n s' t' := by
  obtain ⟨hsp, hsr, hsm⟩ := hs
  obtain ⟨htp, htr, htm⟩ := ht
  refine ⟨by rw [htp, hsp, h.params], fun i hi => ?_, fun j hj => ?_⟩
  · rw [readRev_eq_of htp htr, readRev_eq_of hsp hsr]
    exact h.rev i hi
  · rw [sread_congr .S (congrArg (readSlot · j) htm), sread_congr .S (congrArg (readSlot · j) hsm)]
    exact h.slots j hj

theorem AgreeInS.setOvf {n : Nat} {s t : State} (h : AgreeInS n s t) (a b : Bool) :
    AgreeInS n (setOvf a s) (setOvf b t) := h.of_fields ⟨rfl, rfl, rfl⟩ ⟨rfl, rfl, rfl⟩

theorem AgreeInS.writeScr {n : Nat} {s t : State} (h : AgreeInS n s t) (i : Nat) (v w : Sample) :
    AgreeInS n (writeScr i v s) (writeScr i w t) := h.of_fields ⟨rfl, rfl, rfl⟩ ⟨rfl, rfl, rfl⟩

/-- The same sample written to the same slot is read alike. -/
theorem AgreeInS.swrite {n : Nat} {s t : State} (h : AgreeInS n s t) (j : Nat) (v : Sample) :
    AgreeInS n (swrite .S j v s) (swrite .S j v t) where
  params := by rw [swrite_params, swrite_params, h.params]
  rev i hi := by
    rw [readRev_eq_of (swrite_params .S j v s) (swrite_rev ..),
      readRev_eq_of (swrite_params .S j v t) (swrite_rev ..)]
    exact h.rev i hi
  slots k hk := by
    by_cases hkj : k = j
    · subst hkj; rw [sread_swrite_same, sread_swrite_same]
    · rw [sread_swrite_other _ _ _ _ hkj, sread_swrite_other _ _ _ _ hkj, h.slots k hk]

/-! ### The operations of the four steps -/

theorem AgreeInS.weightSlot {cfg : Latched} {s t : State} {i : Nat} (h : AgreeInS cfg.n s t) (hi : i < cfg.n) :
    AgreeInS cfg.n (weightSlot .S cfg i s) (weightSlot .S cfg i t) := by
  unfold Machine.weightSlot
  rw [h.params, h.slots i hi]
  generalize wmulR _ _ _ _ = v
  exact (h.swrite i v.1).setOvf v.2 v.2

theorem AgreeInS.butterfly {n x y : Nat} {s t : State} (w : Sample) (h : AgreeInS n s t) (hx : x < n)
    (hy : y < n) : AgreeInS n (butterfly .S x y w s) (butterfly .S x y w t) := by
  unfold Machine.butterfly
  dsimp only
  rw [h.params, h.slots x hx, h.slots y hy]
  generalize addR _ _ _ = a
  generalize subR _ _ _ = d
  generalize cmulR _ _ _ _ = m
  exact ((h.swrite x a.1).swrite y m.1).setOvf _ _

theorem AgreeInS.scaleSlot {cfg : Latched} {s t : State} {i : Nat} (h : AgreeInS cfg.n s t) (hi : i < cfg.n) :
    AgreeInS cfg.n (scaleSlot .S cfg i s) (scaleSlot .S cfg i t) := by
  unfold Machine.scaleSlot
  rw [h.slots i hi]
  exact h.swrite i _

theorem readScr_writeScr (i k : Nat) (v : Sample) (s : State) :
    readScr (writeScr i v s) k = if k = i then v else readScr s k := by
  simp only [readScr, writeScr_scr, Ram.write_cells, Ram.write_draw, lookup_insert]
  split_ifs <;> rfl

@[simp] theorem readScr_swrite (r : Representation) (j k : Nat) (v : Sample) (s : State) :
    readScr (swrite r j v s) k = readScr s k := by
  unfold readScr; rw [swrite_scr]

/-! ### The four steps -/

theorem AgreeInS.windowPass {cfg : Latched} {s t : State} (h : AgreeInS cfg.n s t) :
    AgreeInS cfg.n (windowPass .S cfg s) (windowPass .S cfg t) := by
  unfold Machine.windowPass
  split_ifs
  · exact h
  · exact forRange_rel (P := fun _ => AgreeInS cfg.n) h fun i hi _ _ h => h.weightSlot hi

/-- Both ends of every butterfly lie below N = 2^L. -/
theorem AgreeInS.stages {cfg : Latched} {s t : State} (hn : cfg.n = 2 ^ cfg.l) (h : AgreeInS cfg.n s t) :
    AgreeInS cfg.n (stages .S cfg s) (stages .S cfg t) :=
  forRange_rel (P := fun _ => AgreeInS cfg.n) h fun stage hs _ _ h =>
    forRange_rel (P := fun _ => AgreeInS cfg.n) h fun part hp _ _ h =>
      forRange_rel (P := fun _ => AgreeInS cfg.n) h fun i hi s t h => by
        have hy := butterfly_in_range hn hs hp hi
        unfold stageButterfly
        rw [h.params]
        exact h.butterfly _ (by omega) hy

/-- The first loop of the permutation leaves equal entries of SCR, the second moves them to the slots
(43_butterfly.md R190). -/
theorem AgreeInS.permute {cfg : Latched} {s t : State} (h : AgreeInS cfg.n s t) :
    AgreeInS cfg.n (permute .S cfg s) (permute .S cfg t) := by
  have hgather := forRange_rel (n := cfg.n) (f := gatherSlot .S)
    (P := fun i s t => AgreeInS cfg.n s t ∧ ∀ k < i, readScr t k = readScr s k) ⟨h, by simp⟩
    fun i hi s t ⟨h, hk⟩ => by
      obtain ⟨hrev, hlt⟩ := h.rev i hi
      refine ⟨h.writeScr i _ _, fun k hk' => ?_⟩
      unfold gatherSlot
      rw [readScr_writeScr, readScr_writeScr, hrev, h.slots _ hlt]
      split_ifs with hki
      · rfl
      · exact hk k (by omega)
  have hscatter := forRange_rel (n := cfg.n) (f := scatterSlot .S)
    (P := fun _ s t => AgreeInS cfg.n s t ∧ ∀ k < cfg.n, readScr t k = readScr s k) hgather
    fun i hi s t ⟨h, hk⟩ => by
      unfold scatterSlot
      rw [hk i hi]
      exact ⟨h.swrite i _, by simpa using hk⟩
  exact hscatter.1

theorem AgreeInS.scale {cfg : Latched} {s t : State} (h : AgreeInS cfg.n s t) :
    AgreeInS cfg.n (scale .S cfg s) (scale .S cfg t) := by
  unfold Machine.scale
  split_ifs
  · exact h
  · exact forRange_rel (P := fun _ => AgreeInS cfg.n) h fun i hi _ _ h => h.scaleSlot hi

theorem AgreeInS.execBody {cfg : Latched} {s t : State} (hn : cfg.n = 2 ^ cfg.l) (h : AgreeInS cfg.n s t) :
    AgreeInS cfg.n (execBody .S cfg s) (execBody .S cfg t) :=
  (h.windowPass.stages hn).permute.scale

/-! ### The upper halves after an EXEC.S -/

/-- The words of the first `n` slots are what the engine reads there in S: their upper halves are 0. -/
def NarrowInS (n : Nat) (s : State) : Prop := ∀ j < n, readSlot s.mem j = sread .S s j

/-- A write of the engine in S leaves its slot narrow and the others as they were. -/
theorem readSlot_swrite_eq_sread {j k : Nat} (v : Sample) (s : State)
    (h : k ≠ j → readSlot s.mem k = sread .S s k) :
    readSlot (swrite .S j v s).mem k = sread .S (swrite .S j v s) k := by
  by_cases hkj : k = j
  · subst hkj; rw [sread_swrite_same, swrite_mem, readSlot_writeSlot_same]
  · rw [sread_swrite_other _ _ _ _ hkj, swrite_mem, readSlot_writeSlot_other _ _ hkj, h hkj]

/-- The second loop of the permutation writes every slot. -/
theorem narrowInS_scatter (n : Nat) (s : State) : NarrowInS n (forRange n (scatterSlot .S) s) := by
  induction n with
  | zero => simp [NarrowInS]
  | succ n ih => exact fun j hj => readSlot_swrite_eq_sread _ _ fun hne => ih j (by omega)

theorem narrowInS_execBody (cfg : Latched) (s : State) : NarrowInS cfg.n (execBody .S cfg s) := by
  have hperm := narrowInS_scatter cfg.n (forRange cfg.n (gatherSlot .S) (stages .S cfg (windowPass .S cfg s)))
  unfold execBody permute scale
  split_ifs
  · exact hperm
  · exact forRange_keeps (P := NarrowInS cfg.n) hperm fun i _ t ht j hj =>
      readSlot_swrite_eq_sread _ _ fun _ => ht j hj

/-- A component the engine reads in S has 32 bits. -/
theorem componentIn_S_lt (w : Word64) : (componentIn .S w).toNat < 2 ^ 32 := by
  simp only [componentIn, low32, BitVec.toNat_ofNat]
  omega

/-! ### Settled -/

/-- In READY, with no INIT running, the table holds permutation entries below N (41_bitrev.md R142). -/
theorem readRev_of_inv {s : State} (h : s.Inv) (hc : s.ctl = .ready) (hi : initRunning s = false) {i : Nat}
    (hlt : i < s.n) : readRev s i = bitRev s.l i ∧ bitRev s.l i < s.n := by
  obtain ⟨-, hl, hn⟩ := h.config hc
  have hb : bitRev s.l i < 2 ^ s.l := bitRev_lt s.l i
  have hle : 2 ^ s.l ≤ s.params.nmax := Nat.pow_le_pow_right (by norm_num) hl
  exact ⟨readRev_of_lookup (h.table hc hi i hlt) (by omega), by omega⟩

/-- What the engine reads in S is what bits [31:0] of the words are. -/
theorem sread_S_eq_of_low {s t : State} {j : Nat}
    (hre : (readSlot s.mem j).re.toNat % 2 ^ 32 = (readSlot t.mem j).re.toNat % 2 ^ 32)
    (him : (readSlot s.mem j).im.toNat % 2 ^ 32 = (readSlot t.mem j).im.toNat % 2 ^ 32) :
    sread .S s j = sread .S t j := by
  simp only [sread, componentIn, low32, hre, him]

/-- Settles O29: the two states agree in S (`AgreeInS`), which the four steps keep, and end with narrow
slots (`NarrowInS`), whose words are what the engine reads there. -/
theorem upperHalvesDoNotMatterInS : Obligations.UpperHalvesDoNotMatterInS := by
  intro s t hs ht hc his hit hct hp hl hlow
  have hn : s.n = 2 ^ s.l := (hs.config hc).2.2
  have htn : t.n = s.n := congrArg Latched.n hl
  have htl : t.l = s.l := congrArg Latched.l hl
  have hagree : AgreeInS s.n s t := by
    refine ⟨hp, fun i hi => ?_, fun j hj => (sread_S_eq_of_low (hlow j hj).1 (hlow j hj).2).symm⟩
    obtain ⟨hrs, hlt⟩ := readRev_of_inv hs hc his hi
    obtain ⟨hrt, -⟩ := readRev_of_inv ht (hct.trans hc) hit (htn ▸ hi)
    rw [hrt, hrs, htl]
    exact ⟨rfl, hlt⟩
  intro j hj
  have hbody := AgreeInS.execBody (cfg := latch s) hn hagree
  have hsj := narrowInS_execBody (latch s) s j hj
  have htj := narrowInS_execBody (latch s) t j hj
  rw [hl, htj, hsj, hbody.slots j hj]
  exact ⟨rfl, componentIn_S_lt _, componentIn_S_lt _⟩

end Sys2Proof.Machine
end

section
/-! PROOFS. Memory (spec/20_memory.md): which accesses the bus takes, that a read has no side effect, and
what the sample window and the REV window answer. -/

namespace Sys2Proof.Machine

/-! ### Accesses the bus does not take -/

theorem memRead_refused {addr : Offset} {n : Nat} (h : accessOk addr n = false) (s : State) :
    memRead addr n s = busError s := by
  unfold memRead
  rw [if_neg (by simp [h])]

theorem memWrite_refused {addr : Offset} {n : Nat} (h : accessOk addr n = false) (v : Word64) (s : State) :
    memWrite addr n v s = .next (busError s) := by
  unfold memWrite
  rw [if_neg (by simp [h])]

/-- Settles O12: `access_ok` as a proposition, and both accesses it refuses are `bus_error()`. -/
theorem badAccessGetsABusErrorAndNoEffect : Obligations.BadAccessGetsABusErrorAndNoEffect := fun addr n =>
  ⟨accessOk_iff addr n, fun h s v => ⟨memRead_refused h s, memWrite_refused h v s⟩⟩

/-! ### Reads -/

theorem initRunning_of_idle {s : State} (hq : s.seq = none) : initRunning s = false := by
  simp [initRunning, hq]

theorem slotInUse_of_idle {s : State} (hq : s.seq = none) (j : Nat) : slotInUse s j = false := by
  simp [slotInUse, hq]

/-- What a read of the REV window answers (20_memory.md R54). -/
theorem revRead_head (i : Nat) (s : State) :
    (revRead i s).resp.head? = value
      (if s.ready = true ∧ i < s.n ∧ initRunning s = false then BitVec.ofNat 64 (readRev s i % 2 ^ 32)
      else if initRunning s = true then BitVec.ofNat 64 ((Config.freeWord s.draws).toNat % 2 ^ 32)
      else 0#64) := by
  unfold revRead
  simp only [Bool.and_eq_true, Bool.not_eq_true', decide_eq_true_eq, and_assoc]
  split_ifs <;> rfl

/-- With the engine idle no answer is a free value, so none depends on the model's own records: the only
regions that could draw one are the REV window and the slots. -/
theorem answer_records_of_idle {s : State} (hq : s.seq = none) (addr : Offset) (n : Nat)
    (rs : List Response) (fs : List Fault) (d : Nat) :
    answer addr n { s with resp := rs, faults := fs, draws := d } = answer addr n s := by
  have hq' : ({ s with resp := rs, faults := fs, draws := d } : State).seq = none := hq
  unfold answer memRead
  split_ifs
  · cases regionOf s.params addr with
    | rev i =>
      dsimp only
      rw [revRead_head, revRead_head, initRunning_of_idle hq, initRunning_of_idle hq']
      rfl
    | sample j =>
      dsimp only
      rw [slotInUse_of_idle hq, slotInUse_of_idle hq']
      rfl
    | _ => rfl
  · rfl

/-- Settles O14: a read writes only the model's own records, on which an idle block's answers do not
depend. -/
theorem readsHaveNoSideEffect : Obligations.ReadsHaveNoSideEffect := by
  intro addr n s
  refine ⟨memRead_inv addr n s, fun hq => ?_⟩
  obtain ⟨r, fs, d, e⟩ := memRead_inv addr n s
  rw [e]
  exact answer_records_of_idle hq addr n _ fs d

/-! ### The REV window -/

/-- Settles O16: the access reaches the entry, and a write to the REV window is ignored. -/
theorem revWindowReadsTheTable : Obligations.RevWindowReadsTheTable := by
  intro s i hp hi
  have ha := toNat_REVA hp hi
  have ok : accessOk (REVA i) 4 = true := (accessOk_iff _ _).mpr (.inl ⟨rfl, by omega⟩)
  have region : regionOf s.params (REVA i) = .rev _ := regionOf_eq_rev (by omega) (by omega)
  refine ⟨?_, readRev_lt s i, fun v => memWrite_ignored v ok ?_ ?_ fun j => ?_⟩
  · rw [answer, memRead_REVA hp hi, revRead_head]
  · simp [region]
  · simp [region]
  · simp [region]

/-! ### Words and their halves -/

/-- The bytes of a read split into the lower and the upper ones, little-endian (20_memory.md R58). -/
theorem readLE_add (m : Ram Byte) (a k n : Nat) :
    readLE m a (k + n) = readLE m a k + 256 ^ k * readLE m (a + k) n := by
  induction k generalizing a with
  | zero => simp [readLE]
  | succ k ih =>
    rw [Nat.succ_add]
    simp only [readLE]
    rw [ih, Nat.add_right_comm a 1 k, Nat.add_assoc a k 1, pow_succ]
    ring

/-- A word is its two halves, the low half at the lower offset. -/
theorem readLE_halves (m : Ram Byte) (a : Nat) :
    readLE m a 8 = readLE m a 4 + 2 ^ 32 * readLE m (a + 4) 4 := readLE_add m a 4 4

theorem readLE_low_half (m : Ram Byte) (a : Nat) : readLE m a 4 = readLE m a 8 % 2 ^ 32 := by
  have := readLE_halves m a
  have := readLE_lt m a 4
  omega

theorem readLE_high_half (m : Ram Byte) (a : Nat) : readLE m (a + 4) 4 = readLE m a 8 / 2 ^ 32 := by
  have := readLE_halves m a
  have := readLE_lt m a 4
  omega

/-- A write of the low half keeps the high half. -/
theorem readLE_write_low_half (m : Ram Byte) (a v : Nat) :
    readLE (writeLE m a 4 v) a 8 = v % 2 ^ 32 + 2 ^ 32 * readLE m (a + 4) 4 := by
  rw [readLE_halves, readLE_writeLE_same, readLE_writeLE_other _ _ (.inr le_rfl),
    show 256 ^ 4 = 2 ^ 32 from rfl]

/-- A write of the high half keeps the low half. -/
theorem readLE_write_high_half (m : Ram Byte) (a v : Nat) :
    readLE (writeLE m (a + 4) 4 v) a 8 = readLE m a 4 + 2 ^ 32 * (v % 2 ^ 32) := by
  rw [readLE_halves, readLE_writeLE_same, readLE_writeLE_other _ _ (.inl le_rfl),
    show 256 ^ 4 = 2 ^ 32 from rfl]

theorem readByte_writeLE_other (m : Ram Byte) {a n b : Nat} (v : Nat) (h : b < a ∨ a + n ≤ b) :
    readByte (writeLE m a n v) b = readByte m b := by
  rw [readByte_writeLE, if_neg (by omega)]

/-! ### The sample window -/

/-- An access of `n` bytes that the bus takes and that reaches a slot. -/
structure SampleAccess (p : Params) (addr : Offset) (n : Nat) : Prop where
  ok   : accessOk addr n = true
  low  : sampleBase ≤ addr.toNat
  high : addr.toNat < sampleBase + 16 * p.nmax

/-- The offset of a word of a slot. -/
structure SampleWord (p : Params) (addr : Offset) : Prop where
  aligned : addr.toNat % 8 = 0
  low     : sampleBase ≤ addr.toNat
  high    : addr.toNat < sampleBase + 16 * p.nmax

section
variable {p : Params} {j : Nat}

theorem toNat_SLOT (hp : p.wf = true) (hj : j < p.nmax) : (SLOT j).toNat = slotAddr j := by
  have hn := nmax_le hp
  simp only [SLOT, slotAddr, sampleBase, BitVec.toNat_ofNat]
  omega

theorem toNat_SLOT_add (hp : p.wf = true) (hj : j < p.nmax) : (SLOT j + 8#21).toNat = slotAddr j + 8 := by
  have hn := nmax_le hp
  rw [BitVec.toNat_add, toNat_SLOT hp hj]
  simp only [slotAddr, sampleBase, BitVec.toNat_ofNat]
  omega

theorem sampleWord_re (hp : p.wf = true) (hj : j < p.nmax) : SampleWord p (SLOT j) := by
  constructor <;> rw [toNat_SLOT hp hj] <;> simp only [slotAddr, sampleBase] <;> omega

theorem sampleWord_im (hp : p.wf = true) (hj : j < p.nmax) : SampleWord p (SLOT j + 8#21) := by
  constructor <;> rw [toNat_SLOT_add hp hj] <;> simp only [slotAddr, sampleBase] <;> omega

end

section
variable {p : Params} {a : Offset}

theorem SampleWord.whole (h : SampleWord p a) : SampleAccess p a 8 :=
  ⟨(accessOk_iff _ _).mpr (.inr ⟨rfl, h.aligned, h.low⟩), h.low, h.high⟩

theorem SampleWord.lowHalf (h : SampleWord p a) : SampleAccess p a 4 :=
  ⟨(accessOk_iff _ _).mpr (.inl ⟨rfl, by have := h.aligned; omega⟩), h.low, h.high⟩

/-- The upper half of an aligned word does not wrap past the window. -/
theorem SampleWord.toNat_add (h : SampleWord p a) : (a + 4#21).toNat = a.toNat + 4 := by
  have := a.isLt
  have := h.aligned
  rw [BitVec.toNat_add, BitVec.toNat_ofNat]
  omega

theorem SampleWord.highHalf (h : SampleWord p a) : SampleAccess p (a + 4#21) 4 := by
  have upper := h.toNat_add
  have hb : sampleBase % 8 = 0 := rfl
  obtain ⟨aligned, low, high⟩ := h
  exact ⟨(accessOk_iff _ _).mpr (.inl ⟨rfl, by omega⟩), by omega, by omega⟩

end

section
variable {s : State} {a : Offset} {n : Nat}

/-- With the engine idle a read of the sample window answers the bytes there. -/
theorem answer_sample (hp : s.params.wf = true) (hq : s.seq = none) (h : SampleAccess s.params a n) :
    answer a n s = value (BitVec.ofNat 64 (readLE s.mem a.toNat n)) := by
  rw [answer, memRead_sample hp hq h.ok h.low h.high]
  rfl

/-- The same after the sample RAM was written. -/
theorem answer_sample_written (hp : s.params.wf = true) (hq : s.seq = none) (h : SampleAccess s.params a n)
    (m : Ram Byte) :
    answer a n (respond 0#64 { s with mem := m }) = value (BitVec.ofNat 64 (readLE m a.toNat n)) :=
  answer_sample (s := respond 0#64 { s with mem := m }) hp hq h

end

/-- Settles O15: the accesses at the word and at its halves reach the bytes of the slot, where a read sees
what the write left (`readLE_halves` and the lemmas after it). -/
theorem sampleWindowIsLittleEndian : Obligations.SampleWindowIsLittleEndian := by
  intro s j v a hp hq hj ha
  have hre := toNat_SLOT hp hj
  have him := toNat_SLOT_add hp hj
  have word : SampleWord s.params a := by
    rcases ha with rfl | rfl
    · exact sampleWord_re hp hj
    · exact sampleWord_im hp hj
  have upper := word.toNat_add
  have read {b : Offset} {n : Nat} (h : SampleAccess s.params b n) := answer_sample_written hp hq h
  have write {b : Offset} {n : Nat} (h : SampleAccess s.params b n) :=
    memWrite_sample v hp hq h.ok h.low h.high
  have hv : readLE (writeLE s.mem a.toNat 8 v.toNat) a.toNat 8 = v.toNat :=
    (readLE_writeLE_same _ _ _ _).trans (Nat.mod_eq_of_lt v.isLt)
  refine ⟨?_, ?_, ⟨_, write word.whole, ?_, ?_, ?_, ?_, ?_, ?_, rfl⟩, ⟨_, write word.lowHalf, ?_, ?_, rfl⟩,
    ⟨_, write word.highHalf, ?_, ?_, rfl⟩⟩
  -- the words of the slot
  · rw [answer_sample hp hq (sampleWord_re hp hj).whole, hre]; rfl
  · rw [answer_sample hp hq (sampleWord_im hp hj).whole, him]; rfl
  -- a write of the whole word
  · rintro rfl; rw [hre]; exact readSlot_writeLE_re s.mem j v
  · rintro rfl; rw [him]; exact readSlot_writeLE_im s.mem j v
  · rw [read word.whole, hv, BitVec.ofNat_toNat, BitVec.setWidth_eq]
  · rw [read word.lowHalf, readLE_low_half, hv]
  · rw [read word.highHalf, upper, readLE_high_half, hv]
  · exact fun b => readByte_writeLE_other _ _
  -- a write of the low half
  · rw [read word.whole, readLE_write_low_half]
  · exact fun b => readByte_writeLE_other _ _
  -- a write of the high half
  · rw [read word.whole, upper, readLE_write_high_half]
  · rw [upper]; exact fun b hb => readByte_writeLE_other _ _ (by omega)

end Sys2Proof.Machine
end

section
/-! PROOFS. Encoding (spec/30_encoding.md): which fields decode and to what, that a word is its fields, and what
writing a word to CMD does. -/

namespace Sys2Proof

/-! ### The fields of a word -/

/-- Every bit of a word is reserved or lies in OP, FWD or REPR (R81). -/
theorem bit_reserved_or_in_field :
    ∀ k < 32, reservedMask.getLsbD k = true ∨ k < 4 ∨ k = 8 ∨ 12 ≤ k ∧ k < 14 := by
  decide

/-- A word is determined by its fields. -/
theorem fieldsOf_injective : Function.Injective fieldsOf := by
  intro w v h
  obtain ⟨hop, hfwd, hrepr, hreserved⟩ := CommandFields.mk.inj h
  refine BitVec.eq_of_getLsbD_eq fun k hk => ?_
  rcases bit_reserved_or_in_field k hk with hm | hlt | rfl | ⟨hlo, hhi⟩
  · simpa [hm] using congrArg (BitVec.getLsbD · k) hreserved
  · simpa [hlt] using congrArg (BitVec.getLsbD · k) hop
  · exact hfwd
  · simpa [show k - 12 < 2 by omega, Nat.add_sub_cancel' hlo] using congrArg (BitVec.getLsbD · (k - 12)) hrepr

theorem fieldsOf_op_toNat (w : Word32) : (fieldsOf w).op.toNat = w.toNat % 16 := by
  simp [fieldsOf]

theorem fieldsOf_repr_toNat (w : Word32) : (fieldsOf w).repr.toNat = w.toNat / 4096 % 4 := by
  simp [fieldsOf, Nat.shiftRight_eq_div_pow]

/-- The table's words hold the table's fields (R81, R88). -/
theorem fieldsOf_encode (i : Instr) : fieldsOf (encode i) = i.fields := by
  cases i <;> decide

theorem packFields_fields (i : Instr) : packFields i.fields = encode i := by
  have h : Laws.Encoding.Statement i := by
    cases i
    exacts [Laws.Encoding.nop, Laws.Encoding.initI, Laws.Encoding.initF, Laws.Encoding.setwin,
      Laws.Encoding.execD, Laws.Encoding.execS, Laws.Encoding.execQ]
  obtain ⟨-, hpack, -⟩ := h
  exact hpack

/-! ### Decoding of fields and words -/

/-- What makes a command word illegal, by its fields (R87). -/
def CommandFields.Illegal (f : CommandFields) : Prop :=
  f.reserved ≠ 0#32 ∨ 4 ≤ f.op.toNat ∨ (f.fwd = true ∧ f.op.toNat ≠ 1) ∨
    (f.repr.toNat ≠ 0 ∧ f.op.toNat ≠ 3) ∨ f.repr.toNat = 3

theorem not_illegal_fields (i : Instr) : ¬ i.fields.Illegal := by
  unfold CommandFields.Illegal
  cases i <;> decide

theorem decodeFields_fields (i : Instr) : decodeFields i.fields = .ok i := by
  cases i <;> rfl

/-- The case analysis of R86: fields are a command's own and decode to it, or they are illegal and are
rejected. -/
theorem decodeFields_cases (f : CommandFields) :
    (∃ i, decodeFields f = .ok i ∧ f = i.fields) ∨ ((∃ e, decodeFields f = .error e) ∧ f.Illegal) := by
  obtain ⟨op, fwd, repr, reserved⟩ := f
  simp only [decodeFields]
  by_cases hreserved : reserved = 0#32
  case neg => exact .inr ⟨⟨_, if_pos hreserved⟩, .inl hreserved⟩
  subst hreserved
  rw [if_neg (by simp)]
  have hfwd (h0 : op.toNat ≠ 1) (h : fwd = true) : CommandFields.Illegal ⟨op, fwd, repr, 0⟩ :=
    .inr (.inr (.inl ⟨h, h0⟩))
  have hrepr (h0 : op.toNat ≠ 3) (h : repr ≠ 0#2) : CommandFields.Illegal ⟨op, fwd, repr, 0⟩ :=
    .inr (.inr (.inr (.inl ⟨fun h' => h (BitVec.eq_of_toNat_eq h'), h0⟩)))
  split
  · next hop =>
    obtain rfl : op = 0#4 := BitVec.eq_of_toNat_eq hop
    split_ifs with h1 h2
    · exact .inr ⟨⟨_, rfl⟩, hfwd (by decide) h1⟩
    · exact .inr ⟨⟨_, rfl⟩, hrepr (by decide) h2⟩
    · exact .inl ⟨.nop, rfl, by simp_all [Instr.fields]⟩
  · next hop =>
    obtain rfl : op = 1#4 := BitVec.eq_of_toNat_eq hop
    split_ifs with h1 h2
    · exact .inr ⟨⟨_, rfl⟩, hrepr (by decide) h1⟩
    · exact .inl ⟨.initF, rfl, by simp_all [Instr.fields]⟩
    · exact .inl ⟨.initI, rfl, by simp_all [Instr.fields]⟩
  · next hop =>
    obtain rfl : op = 2#4 := BitVec.eq_of_toNat_eq hop
    split_ifs with h1 h2
    · exact .inr ⟨⟨_, rfl⟩, hfwd (by decide) h1⟩
    · exact .inr ⟨⟨_, rfl⟩, hrepr (by decide) h2⟩
    · exact .inl ⟨.setwin, rfl, by simp_all [Instr.fields]⟩
  · next hop =>
    obtain rfl : op = 3#4 := BitVec.eq_of_toNat_eq hop
    split_ifs with h1
    · exact .inr ⟨⟨_, rfl⟩, hfwd (by decide) h1⟩
    obtain rfl : fwd = false := by simpa using h1
    split
    · next h =>
      obtain rfl : repr = 0#2 := BitVec.eq_of_toNat_eq h
      exact .inl ⟨.execD, rfl, rfl⟩
    · next h =>
      obtain rfl : repr = 1#2 := BitVec.eq_of_toNat_eq h
      exact .inl ⟨.execS, rfl, rfl⟩
    · next h =>
      obtain rfl : repr = 2#2 := BitVec.eq_of_toNat_eq h
      exact .inl ⟨.execQ, rfl, rfl⟩
    · next h0 h1 h2 =>
      have h3 : repr.toNat = 3 := by
        have hlt := repr.isLt
        simp only [imp_false] at h0 h1 h2
        omega
      exact .inr ⟨⟨_, rfl⟩, .inr (.inr (.inr (.inr h3)))⟩
  · next h0 h1 h2 h3 =>
    have h4 : 4 ≤ op.toNat := by
      simp only [imp_false] at h0 h1 h2 h3
      omega
    exact .inr ⟨⟨_, rfl⟩, .inr (.inl h4)⟩

theorem decodeFields_eq_ok_iff {f : CommandFields} {i : Instr} : decodeFields f = .ok i ↔ f = i.fields := by
  refine ⟨fun h => ?_, fun h => h ▸ decodeFields_fields i⟩
  rcases decodeFields_cases f with ⟨j, hj, hf⟩ | ⟨⟨e, he⟩, -⟩
  · rwa [← Except.ok.inj (hj.symm.trans h)]
  · cases he.symm.trans h

theorem decodeFields_error_iff {f : CommandFields} : (∃ e, decodeFields f = .error e) ↔ f.Illegal := by
  rcases decodeFields_cases f with ⟨i, hi, rfl⟩ | ⟨he, hf⟩
  · exact iff_of_false (by simp [hi]) (not_illegal_fields i)
  · exact iff_of_true he hf

/-- A word decodes to a command exactly when it is the command's word (R88). -/
theorem decodeWord_eq_ok_iff (w : Word32) (i : Instr) : decodeWord w = .ok i ↔ w = encode i := by
  rw [decodeWord, decodeFields_eq_ok_iff, ← fieldsOf_encode, fieldsOf_injective.eq_iff]

theorem decodeWord_encode (i : Instr) : decodeWord (encode i) = .ok i := (decodeWord_eq_ok_iff _ i).mpr rfl

/-- Which words are illegal (R87). -/
theorem decodeWord_error_iff (w : Word32) :
    (∃ e, decodeWord w = .error e) ↔
      (w &&& 0xFFFFCEF0#32 ≠ 0#32 ∨ 4 ≤ w.toNat % 16 ∨ (w.getLsbD 8 = true ∧ w.toNat % 16 ≠ 1) ∨
        (w.toNat / 4096 % 4 ≠ 0 ∧ w.toNat % 16 ≠ 3) ∨ w.toNat / 4096 % 4 = 3) := by
  rw [decodeWord, decodeFields_error_iff, CommandFields.Illegal, fieldsOf_op_toNat, fieldsOf_repr_toNat]
  rfl

/-! ### Decoding of bytes -/

theorem length_leBytes (n v : Nat) : (leBytes n v).length = n := by
  induction n generalizing v with
  | zero => rfl
  | succ n ih => simp [leBytes, ih]

/-- The bytes of a number give its low bytes back (20_memory.md R58). -/
theorem leNat_leBytes (n v : Nat) : leNat (leBytes n v) = v % 256 ^ n := by
  induction n generalizing v with
  | zero => simp [leBytes, leNat, Nat.mod_one]
  | succ n ih => rw [leBytes, leNat, ih, BitVec.toNat_ofNat, Nat.pow_succ' (m := 256), Nat.mod_mul]

theorem decode_leBytes (v : Nat) : decode (leBytes 4 v) = decodeWord (BitVec.ofNat 32 v) := by
  rw [decode, if_pos (length_leBytes 4 v), leNat_leBytes]
  exact congrArg decodeWord (BitVec.eq_of_toNat_eq (by simp))

theorem decode_encodeBytes (i : Instr) : decode (encodeBytes i) = .ok i := by
  rw [encodeBytes, decode_leBytes, BitVec.ofNat_toNat, BitVec.setWidth_eq, decodeWord_encode]

theorem decodeTableWord_encode (i : Instr) : decodeTableWord 32 (encode i).toNat = some i := by
  rw [decodeTableWord, Nat.mod_eq_of_lt (encode i).isLt, ← encodeBytes, decode_encodeBytes]

/-! ### The statements about the encoding -/

/-- Settles O3: a word decodes to a command exactly when it is the command's word. -/
theorem onlySevenWordsDecode : Obligations.OnlySevenWordsDecode := fun w =>
  ⟨decodeWord_eq_ok_iff w .nop, decodeWord_eq_ok_iff w .initI, decodeWord_eq_ok_iff w .initF,
    decodeWord_eq_ok_iff w .setwin, decodeWord_eq_ok_iff w .execD, decodeWord_eq_ok_iff w .execS,
    decodeWord_eq_ok_iff w .execQ⟩

/-- Settles O1: the seven words are those of the encoder. -/
theorem decodedWordsAreThoseOfTheTable : Obligations.DecodedWordsAreThoseOfTheTable :=
  ⟨decodeWord_encode .nop, decodeWord_encode .initI, decodeWord_encode .initF, decodeWord_encode .setwin,
    decodeWord_encode .execD, decodeWord_encode .execS, decodeWord_encode .execQ⟩

/-- Settles O2: the three forms of a command all decode as its word. -/
theorem encodeThenDecodeGivesTheCommand : Obligations.EncodeThenDecodeGivesTheCommand := fun i =>
  ⟨decode_encodeBytes i, packFields_fields i ▸ decodeWord_encode i, decodeTableWord_encode i⟩

end Sys2Proof

namespace Sys2Proof.Machine

/-! ### Writing a word to CMD -/

/-- A legal word issued is its command's `exec` (R86). -/
theorem issueCommand_of_ok {w : Word32} {i : Instr} (h : decodeWord w = .ok i) (s : State) :
    issueCommand w s = exec i s := by
  simp only [issueCommand, h]

/-- An illegal word issued is `illegalCommand` (R87). -/
theorem issueCommand_of_error {w : Word32} {e : Reject} (h : decodeWord w = .error e) (s : State) :
    issueCommand w s = illegalCommand s := by
  simp only [issueCommand, h]

/-- With the engine idle an illegal word writes ERR and clears DROP, and nothing else changes. -/
theorem issueCommand_of_error_idle {w : Word32} {s : State} (hq : s.seq = none)
    (h : ∃ e, decodeWord w = .error e) :
    issueCommand w s = .next { s with drop := false, err := .illegalCmd } := by
  obtain ⟨e, he⟩ := h
  exact (issueCommand_of_error he s).trans (command_idle _ hq)

/-- Settles O4: a write to CMD is `issue_command` (`memWrite_cmd`), which reports an illegal word. -/
theorem illegalWordReportsAndChangesNothingElse : Obligations.IllegalWordReportsAndChangesNothingElse := by
  refine ⟨memWrite_cmd, fun w s i hi => issueCommand_of_ok hi s, fun w s hq =>
    ⟨decodeWord_error_iff w, fun he => ⟨issueCommand_of_error_idle hq he, ?_⟩⟩⟩
  rintro v rfl
  exact (memWrite_cmd v s).trans (issueCommand_of_error_idle (s := respond 0#64 s) hq he)

/-- The host's turn at a write of a legal word to CMD. -/
theorem hostOp_command {v : Word64} {i : Instr} (h : decodeWord (v.setWidth 32) = .ok i) (s : State) :
    hostOp (.write (s.params.address offCmd) 4 v) s = exec i (respond 0#64 s) := by
  rw [hostOp_write, memWrite_cmd, issueCommand_of_ok h]

/-- Settles O5: the step is the host's turn or the engine's, and the host's turn is the command. -/
theorem stepRunsTheDecodedCommand : Obligations.StepRunsTheDecodedCommand := by
  intro s v ops i hp hh hi
  refine ⟨fun hq => ?_, fun job hq => ?_⟩
  · exact (step_idle_host hp hq hh).trans (hostOp_command hi { s with host := ops })
  · rw [step_busy_host hp hq hh (by simp), hostOp_command hi { s with host := ops, draws := s.draws + 1 }]
    rfl

/-- A command's word survives its way through the 64 bits of a bus write. -/
theorem setWidth_ofNat_encode (i : Instr) :
    (BitVec.ofNat 64 ((encode i).toNat % 2 ^ 32)).setWidth 32 = encode i := by
  rw [Nat.mod_eq_of_lt (encode i).isLt, BitVec.setWidth_ofNat_of_le (by decide), BitVec.ofNat_toNat,
    BitVec.setWidth_eq]

/-- Settles O6: the placed write is an idle block's next access, so the step is as in O5. -/
theorem placedCommandRunsNext : Obligations.PlacedCommandRunsNext := by
  intro s i
  have hi := (decodeWord_eq_ok_iff _ i).mpr (setWidth_ofNat_encode i)
  exact (stepRunsTheDecodedCommand (s.withFetchWord 32 (encode i).toNat) _ s.host i rfl rfl hi).1 rfl

end Sys2Proof.Machine
end

section
/-! PROOFS. Numbers (spec/40_numerics.md): the four floating operations on finite and infinite operands.
Each operation's exact result is a whole number of units or a ratio of two, which it rounds once. -/

namespace Sys2Proof.Machine

theorem Fmt.Ok.of_format {f : Fmt} (hf : f = binary64 ∨ f = binary32) : f.Ok := by
  rcases hf with rfl | rfl
  · exact binary64_ok
  · exact binary32_ok

/-! ### Signed units -/

theorem signedUnits_not (neg : Bool) (u : Nat) : signedUnits (!neg) u = -signedUnits neg u := by
  cases neg <;> simp [signedUnits]

theorem signedUnits_mul (a b : Bool) (u v : Nat) :
    signedUnits a u * signedUnits b v = signedUnits (a ^^ b) (u * v) := by
  cases a <;> cases b <;> simp [signedUnits]

@[simp] theorem signedUnits_eq_zero_iff {neg : Bool} {u : Nat} : signedUnits neg u = 0 ↔ u = 0 := by
  cases neg <;> simp [signedUnits]

theorem value_eq_zero_iff {f : Fmt} {w u : Nat} {neg : Bool} (h : unpack f w = .fin neg u) :
    f.value w = 0 ↔ u = 0 := by
  rw [value_of_unpack h, div_eq_zero_iff, or_iff_left (by positivity), Int.cast_eq_zero,
    signedUnits_eq_zero_iff]

/-- The value of a finite pattern as a real. -/
theorem value_cast_of_unpack {f : Fmt} {w u : Nat} {neg : Bool} (h : unpack f w = .fin neg u) :
    (f.value w : ℝ) = (signedUnits neg u : ℝ) / 2 ^ f.scale := by
  rw [value_of_unpack h]
  push_cast
  rfl

/-! ### Sums -/

/-- The sign of a sum of `z` units: its own, and that of IEEE 754 when it is zero (40_numerics.md R116). -/
def sumSign (a b : Bool) (z : Int) : Bool := if z = 0 then a && b else decide (z < 0)

theorem signedUnits_sumSign (a b : Bool) (z : Int) : signedUnits (sumSign a b z) z.natAbs = z := by
  unfold sumSign
  split_ifs with h
  · rw [h, Int.natAbs_zero, signedUnits_eq_zero_iff]
  · rcases lt_or_ge z 0 with h | h
    · simp only [signedUnits, h, decide_true, if_true]; omega
    · simp only [signedUnits, h.not_gt, decide_false, Bool.false_eq_true, if_false]; omega

@[simp] theorem roundMag_zero (f : Fmt) (den : Nat) : roundMag f 0 den = 0 := by
  have h : Nat.log2 0 = 0 := by decide
  by_cases hd : den = 0 <;> simp [roundMag, h, hd]

/-- A sum of finite operands is the exact number of units rounded once, with the sign of `sumSign`. -/
theorem fadd_of_fin {f : Fmt} {x y u v : Nat} {a b : Bool} (hx : unpack f x = .fin a u)
    (hy : unpack f y = .fin b v) :
    fadd f x y = signed f (sumSign a b (signedUnits a u + signedUnits b v))
      (roundMag f (signedUnits a u + signedUnits b v).natAbs 1) := by
  simp only [fadd, hx, hy, sumSign]
  split_ifs with h
  · rw [h, Int.natAbs_zero, roundMag_zero]
  · rfl

theorem isFinite_fneg {f : Fmt} {y : Nat} (hy : y < 2 * f.signWeight) (h : f.isFinite y) :
    f.isFinite (fneg f y) := by
  obtain ⟨b, v, hv⟩ := h
  exact ⟨!b, v, (unpack_fneg hy).2.2 b v hv⟩

theorem value_fneg {f : Fmt} {y : Nat} (hy : y < 2 * f.signWeight) (h : f.isFinite y) :
    f.value (fneg f y) = -f.value y := by
  obtain ⟨b, v, hv⟩ := h
  rw [value_of_unpack hv, value_of_unpack ((unpack_fneg hy).2.2 b v hv), signedUnits_not, Int.cast_neg,
    neg_div]

theorem roundsTo_fadd {f : Fmt} (hf : f.Ok) {x y : Nat} (hx : f.isFinite x) (hy : f.isFinite y) :
    RoundsTo f ((f.value x : ℝ) + (f.value y : ℝ)) (fadd f x y) := by
  obtain ⟨a, u, hu⟩ := hx
  obtain ⟨b, v, hv⟩ := hy
  have h := roundsTo_signed hf (sumSign a b (signedUnits a u + signedUnits b v))
    (signedUnits a u + signedUnits b v).natAbs one_pos
  rw [signedUnits_sumSign, Nat.cast_one, one_mul, Int.cast_add, add_div] at h
  rwa [fadd_of_fin hu hv, value_cast_of_unpack hu, value_cast_of_unpack hv]

/-- A difference is the sum with the second sign flipped. -/
theorem roundsTo_fsub {f : Fmt} (hf : f.Ok) {x y : Nat} (hx : f.isFinite x) (hy : f.isFinite y)
    (hyw : y < 2 * f.signWeight) : RoundsTo f ((f.value x : ℝ) - (f.value y : ℝ)) (fsub f x y) := by
  have h := roundsTo_fadd hf hx (isFinite_fneg hyw hy)
  rwa [value_fneg hyw hy, Rat.cast_neg, ← sub_eq_add_neg] at h

/-- An infinity and a finite operand. -/
theorem fadd_inf_fin {f : Fmt} {x y : Nat} {a : Bool} (hx : unpack f x = .inf a) (hy : f.isFinite y) :
    fadd f x y = signed f a f.infBits := by
  obtain ⟨b, v, hv⟩ := hy
  simp only [fadd, hx, hv]

theorem fadd_fin_inf {f : Fmt} {x y : Nat} {b : Bool} (hx : f.isFinite x) (hy : unpack f y = .inf b) :
    fadd f x y = signed f b f.infBits := by
  obtain ⟨a, u, hu⟩ := hx
  simp only [fadd, hu, hy]

theorem fadd_inf_inf {f : Fmt} {x y : Nat} {a : Bool} (hx : unpack f x = .inf a) (hy : unpack f y = .inf a) :
    fadd f x y = signed f a f.infBits := by
  simp only [fadd, hx, hy, if_true]

/-- Settles O36: the sum's units are rounded once (`roundsTo_fadd`), and a difference is a sum with the
second sign flipped. -/
theorem sumsAndDifferencesRoundOnce : Obligations.SumsAndDifferencesRoundOnce := by
  refine ⟨by decide, by decide, fun f x y hf _ hyw => ⟨fun hx hy => ?_, fun a hx hy => ?_,
    fun b hx hy => ?_, fun a hx hy => fadd_inf_inf hx hy, fun a hx hy => ?_⟩⟩
  · exact ⟨roundsTo_fadd (.of_format hf) hx hy, roundsTo_fsub (.of_format hf) hx hy hyw⟩
  · exact ⟨fadd_inf_fin hx hy, fadd_inf_fin hx (isFinite_fneg hyw hy)⟩
  · exact ⟨fadd_fin_inf hx hy, fadd_fin_inf hx ((unpack_fneg hyw).2.1 b hy)⟩
  · have hny := (unpack_fneg hyw).2.1 _ hy
    rw [Bool.not_not] at hny
    exact fadd_inf_inf hx hny

/-! ### Products and quotients -/

theorem roundsTo_fmul {f : Fmt} (hf : f.Ok) {x y : Nat} (hx : f.isFinite x) (hy : f.isFinite y) :
    RoundsTo f ((f.value x : ℝ) * (f.value y : ℝ)) (fmul f x y) := by
  obtain ⟨a, u, hu⟩ := hx
  obtain ⟨b, v, hv⟩ := hy
  have h := roundsTo_signed hf (a ^^ b) (u * v) (Nat.two_pow_pos f.scale)
  rw [← signedUnits_mul, Int.cast_mul, Nat.cast_pow, Nat.cast_ofNat, ← div_mul_div_comm] at h
  simpa only [fmul, hu, hv, value_cast_of_unpack hu, value_cast_of_unpack hv] using h

/-- The units of a quotient: the scales cancel, and one is put back. -/
theorem signedUnits_div {a b : Bool} {u v : Nat} (hv : v ≠ 0) (s : Nat) :
    (signedUnits a u : ℝ) / 2 ^ s / ((signedUnits b v : ℝ) / 2 ^ s) =
      (signedUnits (a ^^ b) (u * 2 ^ s) : ℝ) / (v * 2 ^ s) := by
  have hb : (signedUnits b v : ℝ) ≠ 0 := by exact_mod_cast mt signedUnits_eq_zero_iff.mp hv
  have hv' : (v : ℝ) * 2 ^ s ≠ 0 := by positivity
  have h : signedUnits a u * (v * 2 ^ s : Nat) = signedUnits (a ^^ b) (u * 2 ^ s) * signedUnits b v := by
    rw [signedUnits_mul, Bool.xor_assoc, Bool.xor_self,
      show ((v * 2 ^ s : Nat) : Int) = signedUnits false (v * 2 ^ s) from rfl, signedUnits_mul]
    congr 1
    ring
  rw [div_div_div_cancel_right₀ (by positivity), div_eq_div_iff hb hv']
  exact_mod_cast h

theorem roundsTo_fdiv {f : Fmt} (hf : f.Ok) {x y : Nat} (hx : f.isFinite x) (hy : f.isFinite y)
    (h0 : f.value y ≠ 0) : RoundsTo f ((f.value x : ℝ) / (f.value y : ℝ)) (fdiv f x y) := by
  obtain ⟨a, u, hu⟩ := hx
  obtain ⟨b, v, hv⟩ := hy
  have hv0 : v ≠ 0 := mt (value_eq_zero_iff hv).mpr h0
  have h := roundsTo_signed hf (a ^^ b) (u * 2 ^ f.scale) (Nat.pos_of_ne_zero hv0)
  rw [← signedUnits_div hv0] at h
  simpa only [fdiv, hu, hv, hv0, if_false, value_cast_of_unpack hu, value_cast_of_unpack hv] using h

/-- Settles O37: the product's and the quotient's units are a ratio that is rounded once. -/
theorem productsAndQuotientsRoundOnce : Obligations.ProductsAndQuotientsRoundOnce := by
  refine fun f x y hf _ _ => ⟨fun hx hy => ⟨roundsTo_fmul (.of_format hf) hx hy, roundsTo_fdiv (.of_format hf) hx hy⟩,
    fun a b hx hy => ?_, fun a b v hx hy => ?_, fun a b u hx hy => ?_, fun a b u hx hy hu => ?_⟩
  · simp only [fmul, hx, hy]
  · exact ⟨fun hv => by simp only [fmul, hx, hy, hv, if_false], by simp only [fdiv, hx, hy]⟩
  · exact ⟨fun hu => by simp only [fmul, hx, hy, hu, if_false], by simp only [fdiv, hx, hy]⟩
  · simp only [fdiv, hx, hy, hu, if_true, if_false]

end Sys2Proof.Machine
end

section
/-! PROOFS. Numbers (spec/40_numerics.md): what a floating operation can deliver, said once for each: the
canonical NaN in the cases of R111 and no other, else a sign and a magnitude up to the infinity. The NaN
cases, the signs of zeros, products and quotients and the width of a result are read off it. -/

namespace Sys2Proof.Machine

/-! ### What a result can be -/

/-- The sign of an operand; a NaN has none. -/
def Num.sign : Num → Bool
  | .nan     => false
  | .inf a   => a
  | .fin a _ => a

/-- `r` is the canonical NaN exactly under `isNan`, and else a number with the sign `neg`. -/
def Delivers (f : Fmt) (isNan : Prop) (neg : Bool) (r : Nat) : Prop :=
  (isNan ∧ r = f.nanBits) ∨ (¬isNan ∧ ∃ a ≤ f.infBits, r = signed f neg a)

theorem nanBits_bounds {f : Fmt} (hf : f.Ok) : f.infBits < f.nanBits ∧ f.nanBits < f.signWeight := by
  have hp : 0 < 2 ^ (f.fracBits - 1) := by positivity
  have hlt : 2 ^ (f.fracBits - 1) < 2 ^ f.fracBits :=
    Nat.pow_lt_pow_right (by norm_num) (by have := hf.frac; omega)
  have hs : f.infBits + 2 ^ f.fracBits = f.signWeight := by
    have : 0 < 2 ^ f.expBits := by positivity
    rw [Fmt.infBits, Fmt.signWeight, pow_add, ← Nat.succ_mul]
    congr 1
    omega
  unfold Fmt.nanBits
  omega

theorem unpack_nanBits {f : Fmt} (hf : f.Ok) : unpack f f.nanBits = .nan := by
  obtain ⟨hlo, hhi⟩ := nanBits_bounds hf
  have h := unpack_signed_eq f false hhi
  rwa [if_pos hlo, signed, if_neg Bool.false_ne_true, Nat.zero_add] at h

theorem unpack_signed_ne_nan {f : Fmt} (hf : f.Ok) (neg : Bool) {a : Nat} (ha : a ≤ f.infBits) :
    unpack f (signed f neg a) ≠ .nan := by
  have := infBits_lt_signWeight hf
  rw [unpack_signed_eq f neg (by omega), if_neg (by omega)]
  split_ifs <;> simp

section
variable {f : Fmt} {c : Prop} {neg : Bool} {r : Nat}

theorem Delivers.nan_iff (h : Delivers f c neg r) (hf : f.Ok) : unpack f r = .nan ↔ c := by
  rcases h with ⟨hc, rfl⟩ | ⟨hc, a, ha, rfl⟩
  · exact iff_of_true (unpack_nanBits hf) hc
  · exact iff_of_false (unpack_signed_ne_nan hf neg ha) hc

theorem Delivers.nan_iff_canonical (h : Delivers f c neg r) (hf : f.Ok) :
    unpack f r = .nan ↔ r = f.nanBits := by
  rcases h with ⟨-, rfl⟩ | ⟨-, a, ha, rfl⟩
  · exact iff_of_true (unpack_nanBits hf) rfl
  · have hr := unpack_signed_ne_nan hf neg ha
    exact iff_of_false hr fun h => hr (h ▸ unpack_nanBits hf)

/-- The sign bit of a result that is no NaN. -/
theorem Delivers.signBit (h : Delivers f c neg r) (hf : f.Ok) (hr : unpack f r ≠ .nan) :
    decide (f.signWeight ≤ r) = neg := by
  have := infBits_lt_signWeight hf
  rcases h with ⟨-, rfl⟩ | ⟨-, a, ha, rfl⟩
  · exact absurd (unpack_nanBits hf) hr
  · exact signWeight_le_signed neg (by omega)

/-- A result fits the format's bits. -/
theorem Delivers.lt (h : Delivers f c neg r) (hf : f.Ok) : r < 2 * f.signWeight := by
  have hs := infBits_lt_signWeight hf
  have hn := nanBits_bounds hf
  rcases h with ⟨-, rfl⟩ | ⟨-, a, ha, rfl⟩
  · omega
  · cases neg <;> simp [signed] <;> omega

theorem Delivers.of_nan (hc : c) : Delivers f c neg f.nanBits := .inl ⟨hc, rfl⟩

theorem Delivers.of_signed (hc : ¬c) {a : Nat} (ha : a ≤ f.infBits) : Delivers f c neg (signed f neg a) :=
  .inr ⟨hc, a, ha, rfl⟩

end

/-! ### The NaN cases of R111 -/

def SumIsNan (p q : Num) : Prop := p = .nan ∨ q = .nan ∨ ∃ a, p = .inf a ∧ q = .inf (!a)

def DifferenceIsNan (p q : Num) : Prop := p = .nan ∨ q = .nan ∨ ∃ a, p = .inf a ∧ q = .inf a

def ProductIsNan (p q : Num) : Prop :=
  p = .nan ∨ q = .nan ∨ ∃ a b, (p = .inf a ∧ q = .fin b 0) ∨ (p = .fin a 0 ∧ q = .inf b)

def QuotientIsNan (p q : Num) : Prop :=
  p = .nan ∨ q = .nan ∨ ∃ a b, (p = .inf a ∧ q = .inf b) ∨ (p = .fin a 0 ∧ q = .fin b 0)

/-! ### The four operations -/

theorem fadd_delivers (f : Fmt) (x y : Nat) :
    ∃ neg, Delivers f (SumIsNan (unpack f x) (unpack f y)) neg (fadd f x y) := by
  unfold fadd
  rcases unpack f x with _ | a | ⟨a, u⟩
  · exact ⟨false, .of_nan (by simp [SumIsNan])⟩
  all_goals rcases unpack f y with _ | b | ⟨b, v⟩
  · exact ⟨false, .of_nan (by simp [SumIsNan])⟩
  · dsimp only
    split_ifs with h
    · exact ⟨a, .of_signed (by simp [SumIsNan, h]) le_rfl⟩
    · exact ⟨a, .of_nan (by simp [SumIsNan, Bool.not_eq_iff.mpr h])⟩
  · exact ⟨a, .of_signed (by simp [SumIsNan]) le_rfl⟩
  · exact ⟨false, .of_nan (by simp [SumIsNan])⟩
  · exact ⟨b, .of_signed (by simp [SumIsNan]) le_rfl⟩
  · dsimp only
    split_ifs
    · exact ⟨_, .of_signed (by simp [SumIsNan]) (Nat.zero_le _)⟩
    · exact ⟨_, .of_signed (by simp [SumIsNan]) (roundMag_le ..)⟩

/-- Flipping the sign of the second operand turns the NaN cases of a sum into those of a difference. -/
theorem sumIsNan_fneg_iff {f : Fmt} {y : Nat} (p : Num) (hy : y < 2 * f.signWeight) :
    SumIsNan p (unpack f (fneg f y)) ↔ DifferenceIsNan p (unpack f y) := by
  obtain ⟨hnan, hinf, hfin⟩ := unpack_fneg hy
  unfold SumIsNan DifferenceIsNan
  rcases h : unpack f y with _ | b | ⟨b, v⟩
  · simp [hnan h]
  · simp [hinf b h]
  · simp [hfin b v h]

theorem fsub_delivers (f : Fmt) (x : Nat) {y : Nat} (hy : y < 2 * f.signWeight) :
    ∃ neg, Delivers f (DifferenceIsNan (unpack f x) (unpack f y)) neg (fsub f x y) := by
  unfold fsub
  simpa only [sumIsNan_fneg_iff _ hy] using fadd_delivers f x (fneg f y)

theorem fmul_delivers (f : Fmt) (x y : Nat) :
    Delivers f (ProductIsNan (unpack f x) (unpack f y)) ((unpack f x).sign ^^ (unpack f y).sign)
      (fmul f x y) := by
  unfold fmul
  rcases unpack f x with _ | a | ⟨a, u⟩
  · exact .of_nan (by simp [ProductIsNan])
  all_goals rcases unpack f y with _ | b | ⟨b, v⟩
  · exact .of_nan (by simp [ProductIsNan])
  · exact .of_signed (by simp [ProductIsNan]) le_rfl
  · dsimp only
    split_ifs with h
    · exact .of_nan (by simp [ProductIsNan, h])
    · exact .of_signed (by simp [ProductIsNan, h]) le_rfl
  · exact .of_nan (by simp [ProductIsNan])
  · dsimp only
    split_ifs with h
    · exact .of_nan (by simp [ProductIsNan, h])
    · exact .of_signed (by simp [ProductIsNan, h]) le_rfl
  · exact .of_signed (by simp [ProductIsNan]) (roundMag_le ..)

theorem fdiv_delivers (f : Fmt) (x y : Nat) :
    Delivers f (QuotientIsNan (unpack f x) (unpack f y)) ((unpack f x).sign ^^ (unpack f y).sign)
      (fdiv f x y) := by
  unfold fdiv
  rcases unpack f x with _ | a | ⟨a, u⟩
  · exact .of_nan (by simp [QuotientIsNan])
  all_goals rcases unpack f y with _ | b | ⟨b, v⟩
  · exact .of_nan (by simp [QuotientIsNan])
  · exact .of_nan (by simp [QuotientIsNan])
  · exact .of_signed (by simp [QuotientIsNan]) le_rfl
  · exact .of_nan (by simp [QuotientIsNan])
  · exact .of_signed (by simp [QuotientIsNan]) (Nat.zero_le _)
  · dsimp only
    split_ifs with hv hu
    · exact .of_nan (by simp [QuotientIsNan, hu, hv])
    · exact .of_signed (by simp [QuotientIsNan, hu]) le_rfl
    · exact .of_signed (by simp [QuotientIsNan, hv]) (roundMag_le ..)

/-- Settles O38: the NaN cases and the canonical pattern of each operation, read off what it delivers. -/
theorem nanResultsAreCanonical : Obligations.NanResultsAreCanonical := by
  intro f x y hf _ hy
  have hok := Fmt.Ok.of_format hf
  obtain ⟨_, hadd⟩ := fadd_delivers f x y
  obtain ⟨_, hsub⟩ := fsub_delivers f x hy
  have hmul := fmul_delivers f x y
  have hdiv := fdiv_delivers f x y
  exact ⟨by decide, by decide, hadd.nan_iff_canonical hok, hsub.nan_iff_canonical hok,
    hmul.nan_iff_canonical hok, hdiv.nan_iff_canonical hok,
    hadd.nan_iff hok, hsub.nan_iff hok, hmul.nan_iff hok, hdiv.nan_iff hok⟩

/-! ### Signs -/

/-- The sign of an operand that is no NaN is its sign bit. -/
theorem sign_unpack {f : Fmt} {x : Nat} (hx : x < 2 * f.signWeight) (h : unpack f x ≠ .nan) :
    (unpack f x).sign = decide (f.signWeight ≤ x) := by
  obtain ⟨hinf, hfin⟩ := sign_of_unpack hx
  rcases hu : unpack f x with _ | a | ⟨a, u⟩
  · exact absurd hu h
  · exact (hinf a hu).symm
  · exact (hfin a u hu).symm

/-- A product or a quotient that is no NaN has the exclusive or of the operands' sign bits: a NaN operand
would make it a NaN. -/
theorem Delivers.signBit_xor {f : Fmt} {x y r : Nat} {c : Prop} (hf : f.Ok) (hx : x < 2 * f.signWeight)
    (hy : y < 2 * f.signWeight) (h : Delivers f c ((unpack f x).sign ^^ (unpack f y).sign) r)
    (hc : unpack f x = .nan ∨ unpack f y = .nan → c) (hr : unpack f r ≠ .nan) :
    decide (f.signWeight ≤ r) = (decide (f.signWeight ≤ x) ^^ decide (f.signWeight ≤ y)) := by
  have hnc : ¬(unpack f x = .nan ∨ unpack f y = .nan) := fun hn => hr ((h.nan_iff hf).mpr (hc hn))
  rw [not_or] at hnc
  rw [h.signBit hf hr, sign_unpack hx hnc.1, sign_unpack hy hnc.2]

/-- A sum of value 0 is a zero, negative when both operands are (40_numerics.md R116). -/
theorem fadd_eq_zero {f : Fmt} {x y u v : Nat} {a b : Bool} (hx : unpack f x = .fin a u)
    (hy : unpack f y = .fin b v) (h : f.value x + f.value y = 0) :
    fadd f x y = if a = true ∧ b = true then f.signWeight else 0 := by
  rw [value_of_unpack hx, value_of_unpack hy, ← add_div, div_eq_zero_iff, or_iff_left (by positivity)] at h
  have hz : signedUnits a u + signedUnits b v = 0 := by exact_mod_cast h
  rw [fadd_of_fin hx hy, hz, Int.natAbs_zero, roundMag_zero, sumSign, if_pos rfl]
  simp [signed]

/-- And so is a difference, whose second operand counts with its sign flipped. -/
theorem fsub_eq_zero {f : Fmt} {x y u v : Nat} {a b : Bool} (hyw : y < 2 * f.signWeight)
    (hx : unpack f x = .fin a u) (hy : unpack f y = .fin b v) (h : f.value x - f.value y = 0) :
    fsub f x y = if a = true ∧ b = false then f.signWeight else 0 := by
  have hny := (unpack_fneg hyw).2.2 b v hy
  rw [sub_eq_add_neg, ← value_fneg hyw ⟨b, v, hy⟩] at h
  unfold fsub
  simpa using fadd_eq_zero hx hny h

/-- Settles O39: zero sums and differences by `fadd_eq_zero`, products and quotients by the sign they
deliver. -/
theorem zeroSignsFollowTheStandard : Obligations.ZeroSignsFollowTheStandard := by
  refine fun f x y hf hx hy => ⟨fun a b u v hu hv => ⟨fadd_eq_zero hu hv, fsub_eq_zero hy hu hv, ?_⟩,
    (fmul_delivers f x y).signBit_xor (.of_format hf) hx hy fun h => h.imp id .inl,
    (fdiv_delivers f x y).signBit_xor (.of_format hf) hx hy fun h => h.imp id .inl⟩
  have h := fsub_eq_zero hx hu hu (sub_self (f.value x))
  rwa [if_neg (by cases a <;> simp)] at h

end Sys2Proof.Machine
end

section
/-! PROOFS. Numbers (spec/40_numerics.md): the fixed-point operations. Every word written is an exact integer
wrapped to 64 bits, and the rules are about that integer. -/

namespace Sys2Proof.Machine

/-! ### Wrapping -/

theorem s64_bounds (x : Word64) : -2 ^ 63 ≤ s64 x ∧ s64 x < 2 ^ 63 := ⟨x.le_toInt, x.toInt_lt⟩

theorem natAbs_s64_le (x : Word64) : (s64 x).natAbs ≤ 2 ^ 63 := by
  have := s64_bounds x
  omega

@[simp] theorem s64_wrap64 (z : Int) : s64 (wrap64 z) = Int.bmod z (2 ^ 64) := BitVec.toInt_ofInt z

/-- An integer that fits is kept. -/
theorem s64_wrap64_of_fits {z : Int} (lo : -2 ^ 63 ≤ z) (hi : z < 2 ^ 63) : s64 (wrap64 z) = z := by
  rw [s64_wrap64]
  exact Int.bmod_eq_of_le (by omega) (by omega)

@[simp] theorem fits64_eq_true_iff {z : Int} : fits64 z = true ↔ -2 ^ 63 ≤ z ∧ z < 2 ^ 63 := by
  simp only [fits64, Bool.and_eq_true, decide_eq_true_eq]

/-- The word and the flag of an exact integer (40_numerics.md R122). -/
theorem wrapFlag_spec (z : Int) :
    s64 (wrapFlag z).1 = Int.bmod z (2 ^ 64) ∧ ((wrapFlag z).2 = true ↔ z < -2 ^ 63 ∨ 2 ^ 63 ≤ z) := by
  refine ⟨s64_wrap64 z, ?_⟩
  rw [wrapFlag, Bool.not_eq_true', ← Bool.not_eq_true, fits64_eq_true_iff]
  omega

/-- The floor of a division by a power of two is the division of integers. -/
theorem floor_div_two_pow (p : Int) (shift : Nat) : ⌊(p : ℚ) / 2 ^ shift⌋ = p / 2 ^ shift := by
  exact_mod_cast Rat.floor_intCast_div_natCast p (2 ^ shift)

/-- Settles O40: each of the three wraps its exact integer (`wrapFlag_spec`). -/
theorem fixedPointWrapsAndFlags : Obligations.FixedPointWrapsAndFlags := by
  refine ⟨fun _ _ => ⟨rfl, rfl⟩, fun x y shift p => ⟨wrapFlag_spec _, wrapFlag_spec _, ?_⟩⟩
  rw [floor_div_two_pow]
  exact wrapFlag_spec _

/-! ### Division -/

/-- Division rounded toward zero by sign and magnitude. -/
theorem tdiv_natCast_eq_sign_mul (x : Int) (n : Nat) : x.tdiv n = x.sign * (x.natAbs / n : Nat) := by
  obtain ⟨k, rfl | rfl⟩ := x.eq_nat_or_neg <;> rcases Nat.eq_zero_or_pos k with rfl | hk
  · simp
  · simp [Int.sign_natCast_of_ne_zero hk.ne']
  · simp
  · simp [Int.sign_natCast_of_ne_zero hk.ne', Int.neg_tdiv]

/-- Dividing by N >= 2 at least halves a magnitude, so the quotient fits. -/
theorem s64_qdiv (x : Word64) {n : Nat} (hn : 2 ≤ n) : s64 (qdiv x n) = (s64 x).tdiv n := by
  have hlt : (s64 x).natAbs / n < 2 ^ 63 :=
    (Nat.div_le_div_left hn (by norm_num)).trans_lt (by have := natAbs_s64_le x; omega)
  have habs : ((s64 x).tdiv n).natAbs = (s64 x).natAbs / n := Int.natAbs_tdiv _ _
  exact s64_wrap64_of_fits (by omega) (by omega)

/-- Settles O41: the exact quotient fits (`s64_qdiv`), and is that of the magnitudes with the sign. -/
theorem fixedDivisionRoundsTowardZero : Obligations.FixedDivisionRoundsTowardZero := by
  refine ⟨fun _ _ => rfl, fun x n hn => ?_⟩
  rw [s64_qdiv x hn]
  constructor
  · rw [tdiv_natCast_eq_sign_mul, Rat.floor_natCast_div_natCast, Int.natCast_ediv]
  · rw [Int.natAbs_tdiv, Int.natAbs_natCast]
    exact Nat.div_le_self _ _

/-! ### The 128-bit intermediate -/

/-- A word times a ROM value of magnitude at most 2^32 (40_numerics.md R129). -/
theorem natAbs_s64_mul_le (a : Word64) {c : Word64} (hc : (s64 c).natAbs ≤ 2 ^ 32) :
    (s64 a * s64 c).natAbs ≤ 2 ^ 95 := by
  rw [Int.natAbs_mul]
  calc (s64 a).natAbs * (s64 c).natAbs ≤ 2 ^ 63 * 2 ^ 32 := Nat.mul_le_mul (natAbs_s64_le a) hc
    _ = 2 ^ 95 := by norm_num

/-- The terms with the imaginary part 0 are exact zeros (40_numerics.md R125). -/
theorem wmulR_Q_eq_cmulR (shift : Nat) (v : Sample) (w : Word64) :
    wmulR shift .Q v w = cmulR shift .Q v { re := w, im := 0#64 } := by
  have h : s64 0#64 = 0 := by decide
  simp only [wmulR, wmul1, cmulR, h, mul_zero, sub_zero, zero_add]

/-- Settles O42: products of bounded factors, and the triangle inequality for two of them. -/
theorem intermediateFitsIn128Bits : Obligations.IntermediateFitsIn128Bits := by
  intro a b c d hc hd
  have hac := natAbs_s64_mul_le a hc
  have hbd := natAbs_s64_mul_le b hd
  have had := natAbs_s64_mul_le a hd
  have hbc := natAbs_s64_mul_le b hc
  exact ⟨hac, by omega, by omega, fun shift => wmulR_Q_eq_cmulR shift ⟨a, b⟩ c⟩

end Sys2Proof.Machine
end

section
/-! PROOFS. Numbers (spec/40_numerics.md): OVF is set in an EXEC.Q alone and cleared by the acceptance of an
EXEC. -/

namespace Sys2Proof.Machine

/-- Of the commands an accepted EXEC alone writes OVF, and clears it (44_execute.md R222). -/
theorem CommandEffect.ovf {i : Instr} {s t : State} (h : CommandEffect i s t) :
    t.ovf = s.ovf ∨ ∃ r, i = execOf r ∧ t.ovf = false ∧
      t.seq = some (.exec r (latch s) (.window 0) false) := by
  rcases h with ⟨e, -, rfl⟩ | ⟨-, -, rfl⟩ | ⟨fwd, -, -, rfl⟩ | ⟨r, hi, -, rfl⟩
  · exact .inl rfl
  · exact .inl rfl
  · exact .inl rfl
  · exact .inr ⟨r, hi, rfl, rfl⟩

/-- The host's turn changes OVF by the command write of an EXEC that is accepted. -/
theorem HostEffect.ovf {op : HostOp} {s t : State} (h : HostEffect op s t) :
    t.ovf = s.ovf ∨ ∃ v r, op = .write (s.params.address offCmd) 4 v ∧ s.seq = none ∧
      decodeWord (v.setWidth 32) = .ok (execOf r) ∧ t.ovf = false ∧
      t.seq = some (.exec r (latch s) (.window 0) false) := by
  cases h with
  | outside eq => subst eq; exact .inl rfl
  | observe r fs d eq => subst eq; exact .inl rfl
  | pin b eq _ => subst eq; exact .inl rfl
  | arg v _ eq => subst eq; exact .inl rfl
  | sample addr n v _ _ _ _ eq =>
    obtain ⟨q, f, e⟩ := sampleWrite_frame addr n v ((addr.toNat - sampleBase) / 16) s
    rw [e] at eq
    subst eq
    exact .inl rfl
  | command v op_eq eq =>
    rcases issueCommand_effect eq with ⟨-, rfl⟩ | ⟨-, rfl⟩ | ⟨hq, i, hi, hc⟩
    · exact .inl rfl
    · exact .inl rfl
    · rcases hc.ovf with h | ⟨r, rfl, ho, hs⟩
      · exact .inl h
      · exact .inr ⟨v, r, op_eq, hq, hi, ho, hs⟩

/-- The engine's turn changes OVF in an EXEC.Q alone, to 1 (40_numerics.md R116, R122). -/
theorem engineTurn_ovf (job : Job) (s : State) :
    (engineTurn job s).ovf = s.ovf ∨
      ((engineTurn job s).ovf = true ∧ ∃ cfg ph hz, job = .exec .Q cfg ph hz) := by
  cases job with
  | init size fwd loop =>
    rw [engineTurn]
    rcases initTurn_inv size fwd loop s with ⟨loop', rev', he, -⟩ | ⟨half, b, j, -, -, he⟩ <;> rw [he]
    · exact .inl rfl
    · exact .inl rfl
  | exec r cfg ph hz =>
    obtain ⟨hkeep, hmono⟩ := engineTurn_exec_ovf r cfg ph hz s
    by_cases hr : r = .Q
    · subst hr
      cases ho : s.ovf with
      | true => exact .inl (hmono ho)
      | false =>
        cases ht : (engineTurn (.exec .Q cfg ph hz) s).ovf with
        | true => exact .inr ⟨rfl, cfg, ph, hz, rfl⟩
        | false => exact .inl rfl
    · exact .inl (hkeep hr)

/-- Settles O54: the host's turn and the engine's turn each change OVF in one way. -/
theorem ovfIsSetByExecQAndClearedByExec : Obligations.OvfIsSetByExecQAndClearedByExec := by
  intro s t hs
  cases step_inv hs with
  | idle eq _ => subst eq; exact .inl rfl
  | held op ops _ _ eq => subst eq; exact .inl rfl
  | release ops hp hh eq => subst eq; exact .inr (.inr ⟨rfl, .inr ⟨hp, ops, hh⟩⟩)
  | engine job d _ hq eq _ =>
    subst eq
    refine (engineTurn_ovf job { s with draws := d }).imp id fun ⟨ho, cfg, ph, hz, hj⟩ => .inl ?_
    exact ⟨ho, cfg, ph, hz, hj ▸ hq⟩
  | host op ops d hp hh eff _ =>
    refine eff.ovf.imp id fun ⟨v, r, hop, hq, hdec, ho, hseq⟩ => .inr ⟨ho, .inl ?_⟩
    exact ⟨v, r, ⟨hp, ops, hop ▸ hh⟩, hq, hdec, hseq⟩

end Sys2Proof.Machine
end

section
/-! PROOFS. Numbers (spec/40_numerics.md): a representable magnitude rounds to itself, and so N in a format
is exact; what the engine reads and writes of a slot, and the operations on samples. -/

namespace Sys2Proof.Machine

/-! ### Exact results -/

/-- The largest finite magnitude lies below the overflow threshold. -/
theorem magUnits_lt_overflow {f : Fmt} (hf : f.Ok) {a : Nat} (ha : a < f.infBits) :
    magUnits f a < overflowUnits f := by
  obtain ⟨e, he⟩ : ∃ e, 2 ^ f.expBits = e + 4 := by
    have : 2 ^ 3 ≤ 2 ^ f.expBits := Nat.pow_le_pow_right (by norm_num) hf.exp
    exact ⟨2 ^ f.expBits - 4, by omega⟩
  have hp : 0 < 2 ^ f.fracBits := by positivity
  have hinf : f.infBits = (e + 1) * 2 ^ f.fracBits + (2 ^ (f.fracBits + 1) - 1) + 1 := by
    rw [Fmt.infBits, he, show e + 4 - 1 = e + 1 + 2 by omega, Nat.add_mul, pow_succ]
    omega
  calc magUnits f a ≤ magUnits f ((e + 1) * 2 ^ f.fracBits + (2 ^ (f.fracBits + 1) - 1)) :=
        (magUnits_strictMono f).monotone (by omega)
    _ = (2 ^ (f.fracBits + 1) - 1) * 2 ^ (e + 1) :=
        magUnits_pattern (by omega) (.inr (by rw [pow_succ]; omega))
    _ = (2 ^ (f.fracBits + 1) - 1) * 2 * 2 ^ e := by rw [pow_succ' 2 e, mul_assoc]
    _ < overflowUnits f := by
        rw [overflowUnits, he, Nat.add_sub_cancel, pow_succ _ (f.fracBits + 1)]
        exact Nat.mul_lt_mul_of_pos_right (by omega) (by positivity)

/-- A representable magnitude rounds to itself: none is nearer. -/
theorem roundMag_magUnits {f : Fmt} (hf : f.Ok) {a : Nat} (ha : a < f.infBits) :
    roundMag f (magUnits f a) 1 = a := by
  have h := ((roundMag_nearest hf one_pos (by simpa using magUnits_lt_overflow hf ha)).2 a).1
  simp only [Nat.cast_one, mul_one, sub_self, abs_zero, abs_nonpos_iff, sub_eq_zero, Nat.cast_inj] at h
  exact (magUnits_strictMono f).injective h

/-- The pattern of 2^l: the bias and l in the exponent field, the fraction 0. -/
def twoPowBits (f : Fmt) (l : Nat) : Nat := (2 ^ (f.expBits - 1) - 2 + l) * 2 ^ f.fracBits + 2 ^ f.fracBits

theorem magUnits_twoPowBits {f : Fmt} (hf : f.Ok) (l : Nat) :
    magUnits f (twoPowBits f l) = 2 ^ l * 2 ^ f.scale := by
  have : 2 ^ 2 ≤ 2 ^ (f.expBits - 1) := Nat.pow_le_pow_right (by norm_num) (by have := hf.exp; omega)
  rw [twoPowBits, magUnits_pattern (Nat.pow_lt_pow_right (by norm_num) (by omega)) (.inr le_rfl), ← pow_add,
    ← pow_add, Fmt.scale]
  congr 1
  omega

theorem twoPowBits_lt_infBits {f : Fmt} {l : Nat} (hf : f.Ok) (hl : l < 2 ^ (f.expBits - 1)) :
    twoPowBits f l < f.infBits := by
  have he : 2 ^ f.expBits = 2 ^ (f.expBits - 1) * 2 := by
    rw [← pow_succ]; congr 1; have := hf.exp; omega
  have : 2 ^ 2 ≤ 2 ^ (f.expBits - 1) := Nat.pow_le_pow_right (by norm_num) (by have := hf.exp; omega)
  rw [twoPowBits, Fmt.infBits, ← Nat.succ_mul]
  exact Nat.mul_lt_mul_of_pos_right (by omega) (by positivity)

/-- A power of two below the overflow threshold is exact in a format (40_numerics.md R115). -/
theorem ofNatBits_two_pow {f : Fmt} {l : Nat} (hf : f.Ok) (hl : l < 2 ^ (f.expBits - 1)) :
    ofNatBits f (2 ^ l) = twoPowBits f l := by
  have h := roundMag_magUnits hf (twoPowBits_lt_infBits hf hl)
  rw [magUnits_twoPowBits hf] at h
  rw [ofNatBits, roundRatio, Int.natAbs_natCast, h, decide_eq_false (not_lt.mpr (Int.natCast_nonneg _)), signed,
    if_neg Bool.false_ne_true, Nat.zero_add]

/-- N in a format: a positive finite pattern of value N. -/
theorem ofNatBits_two_pow_spec {f : Fmt} {l : Nat} (hf : f.Ok) (hl : l < 2 ^ (f.expBits - 1)) :
    f.isFinite (ofNatBits f (2 ^ l)) ∧ f.value (ofNatBits f (2 ^ l)) = 2 ^ l ∧
      ofNatBits f (2 ^ l) < f.signWeight := by
  have hlt := twoPowBits_lt_infBits hf hl
  have hu : unpack f (twoPowBits f l) = .fin false (2 ^ l * 2 ^ f.scale) := by
    rw [← magUnits_twoPowBits hf, ← unpack_signed hf false hlt, signed, if_neg Bool.false_ne_true,
      Nat.zero_add]
  rw [ofNatBits_two_pow hf hl]
  refine ⟨⟨_, _, hu⟩, ?_, by have := infBits_lt_signWeight hf; omega⟩
  rw [value_of_unpack hu, signedUnits, if_neg Bool.false_ne_true]
  push_cast
  exact mul_div_cancel_right₀ _ (by positivity)

/-! ### Widths -/

/-- Every result fits the format's bits, whatever the operands. -/
theorem float_ops_lt {f : Fmt} (hf : f.Ok) (x y : Nat) :
    fadd f x y < 2 * f.signWeight ∧ fsub f x y < 2 * f.signWeight ∧
      fmul f x y < 2 * f.signWeight ∧ fdiv f x y < 2 * f.signWeight :=
  ⟨(fadd_delivers f x y).elim fun _ h => h.lt hf, (fadd_delivers f x (fneg f y)).elim fun _ h => h.lt hf,
    (fmul_delivers f x y).lt hf, (fdiv_delivers f x y).lt hf⟩

/-- A product is read back whole from a word, in D. -/
theorem toNat_fmul_binary64 (x y : Nat) :
    (BitVec.ofNat 64 (fmul binary64 x y)).toNat = fmul binary64 x y := by
  rw [BitVec.toNat_ofNat]
  exact Nat.mod_eq_of_lt (float_ops_lt binary64_ok x y).2.2.1

/-- And from the low half of a word, in S. -/
theorem low32_fmul_binary32 (x y : Nat) :
    low32 (BitVec.ofNat 64 (fmul binary32 x y)) = fmul binary32 x y := by
  have h : fmul binary32 x y < 2 ^ 32 := (float_ops_lt binary32_ok x y).2.2.1
  rw [low32, BitVec.toNat_ofNat, Nat.mod_eq_of_lt (h.trans (by norm_num)), Nat.mod_eq_of_lt h]

/-! ### The complex product in D and S -/

theorem cmulR_D (shift : Nat) (p q : Sample) :
    cmulR shift .D p q =
      ({ re := liftD (fsub binary64) (liftD (fmul binary64) p.re q.re) (liftD (fmul binary64) p.im q.im)
         im := liftD (fadd binary64) (liftD (fmul binary64) p.re q.im) (liftD (fmul binary64) p.im q.re) },
        false) := by
  simp only [cmulR, cmulF, liftD, toNat_fmul_binary64]

theorem cmulR_S (shift : Nat) (p q : Sample) :
    cmulR shift .S p q =
      ({ re := liftS (fsub binary32) (liftS (fmul binary32) p.re q.re) (liftS (fmul binary32) p.im q.im)
         im := liftS (fadd binary32) (liftS (fmul binary32) p.re q.im) (liftS (fmul binary32) p.im q.re) },
        false) := by
  simp only [cmulR, cmulF, liftS, low32_fmul_binary32]

/-! ### Slots -/

/-- A write of a slot leaves the words that the representation keeps (10_state.md R31). -/
theorem readSlot_swrite_same (r : Representation) (j : Nat) (v : Sample) (s : State) :
    readSlot (swrite r j v s).mem j = { re := componentIn r v.re, im := componentIn r v.im } := by
  rw [swrite_mem, readSlot_writeSlot_same]

theorem readSlot_swrite_other (r : Representation) {j k : Nat} (v : Sample) (s : State) (h : k ≠ j) :
    readSlot (swrite r j v s).mem k = readSlot s.mem k := by
  rw [swrite_mem, readSlot_writeSlot_other _ _ h]

/-- And leaves all else of the state as it is. -/
theorem swrite_frame (r : Representation) (j : Nat) (v : Sample) (s : State) :
    { swrite r j v s with mem := s.mem } = s := by
  unfold swrite
  rfl

/-- Settles O59: the slots by the laws of the sample RAM, the complex products by the widths of their four
products, N by `ofNatBits_two_pow_spec`; the other operations are component by component as they are
defined. -/
theorem sampleOperationsActOnComponents : Obligations.SampleOperationsActOnComponents := by
  refine ⟨fun s j v => ?_, fun p q w shift n => ?_, fun p q w shift n => ?_, fun p q w shift => ⟨rfl, rfl⟩,
    fun f hf => ⟨float_ops_lt (.of_format hf), fun l hl => ?_⟩⟩
  · exact ⟨rfl, rfl, rfl, readSlot_swrite_same .D j v s, readSlot_swrite_same .Q j v s,
      readSlot_swrite_same .S j v s,
      fun r => ⟨swrite_frame r j v s, fun k hk => readSlot_swrite_other r v s hk⟩⟩
  · exact ⟨rfl, rfl, cmulR_D shift p q, rfl, rfl⟩
  · exact ⟨rfl, rfl, cmulR_S shift p q, rfl, rfl⟩
  · refine ofNatBits_two_pow_spec (.of_format hf) (hl.trans_lt ?_)
    rcases hf with rfl | rfl <;> decide

end Sys2Proof.Machine
end

section
/-! PROOFS. Bit reversal (spec/41_bitrev.md): which sizes an INIT accepts, and what the table reads as when
the build it starts has completed. -/

namespace Sys2Proof.Machine

/-! ### Acceptance -/

/-- An INIT of a valid size starts its build (70_reset_and_hazards.md R290). -/
theorem exec_initOf_of_validSize {s : State} (fwd : Bool) (hq : s.seq = none)
    (hv : validSize s.params s.arg.toNat = true) :
    exec (initOf fwd) s =
      .next { s with drop := false, err := .ok, seq := some (.init s.arg.toNat fwd .start) } := by
  rw [exec_initOf, command_idle _ hq, initCommand, if_pos hv, startLong]

/-- An INIT of any other size is refused (R148). -/
theorem exec_initOf_of_not_validSize {s : State} (fwd : Bool) (hq : s.seq = none)
    (hv : ¬validSize s.params s.arg.toNat = true) :
    exec (initOf fwd) s = .next { s with drop := false, err := .config } := by
  rw [exec_initOf, command_idle _ hq, initCommand, if_neg hv, report]

/-- Settles O21: the sizes `valid_size` takes are the powers of two in range (`validSize_iff`). -/
theorem initIsAcceptedExactlyForValidSizes : Obligations.InitIsAcceptedExactlyForValidSizes :=
  fun s fwd hq =>
    ⟨fun h => exec_initOf_of_validSize fwd hq ((validSize_iff s.params s.arg.toNat).mpr h),
     fun h => exec_initOf_of_not_validSize fwd hq (mt (validSize_iff s.params s.arg.toNat).mp h)⟩

/-! ### The table -/

/-- A state whose table lists the bit reversals below 2^l reads as them. -/
theorem readRev_of_table {s : State} {l i : Nat} (hle : 2 ^ l ≤ s.params.nmax)
    (ht : ∀ j < 2 ^ l, lookup j s.rev.cells = some (bitRev l j)) (hi : i < 2 ^ l) :
    readRev s i = bitRev l i :=
  readRev_of_lookup (ht i hi) ((bitRev_lt l i).trans_le hle)

/-- What a table lists for an entry, and the reset that drew it, decide what the entry reads as. -/
theorem readRev_congr {s t : State} {i : Nat} (hp : t.params = s.params)
    (hc : lookup i t.rev.cells = lookup i s.rev.cells) (hd : t.rev.draw = s.rev.draw) :
    readRev t i = readRev s i := by
  rw [readRev, readRev, hp, hc, hd]

theorem finishInit_two_pow (l : Nat) (fwd : Bool) (s : State) :
    finishInit (2 ^ l) fwd s = { s with n := 2 ^ l, l := l, fwd := fwd, ctl := .ready, seq := none } := by
  rw [finishInit, Nat.log2_two_pow]

/-- An INIT in flight at its start, left alone by the host, completes with the bit reversals in the entries
below its size and the others as they were (R141, R147). -/
theorem init_completes {l : Nat} (hl : 1 ≤ l) {fwd : Bool} {t : State} (h : Alone t)
    (hle : 2 ^ l ≤ t.params.nmax) (hq : t.seq = some (.init (2 ^ l) fwd .start)) :
    ∃ k u, core.run k t = .next u ∧
      u = { t with n := 2 ^ l, l := l, fwd := fwd, ctl := .ready, seq := none, rev := u.rev } ∧
      (∀ i < 2 ^ l, readRev u i = bitRev l i) ∧ ∀ i, 2 ^ l ≤ i → readRev u i = readRev t i := by
  obtain ⟨rev', ⟨k, hrun⟩, htable, hout, hdraw⟩ := reaches_init hl fwd h hle hq trivial
  exact ⟨k, _, hrun, finishInit_two_pow l fwd _, fun _ hi => readRev_of_table hle htable hi,
    fun i hi => readRev_congr rfl (hout i hi) hdraw⟩

/-- Settles O22: the accepted INIT completes with the bit reversals in the table (`init_completes`), whose
laws (`bitRev_lt`, `bitRev_bitRev`, `bitRev_zero`, `bitRev_ones`) give R142 and R149. -/
theorem initCompletesWithTheBitReversedTable : Obligations.InitCompletesWithTheBitReversedTable := by
  intro s fwd l hq hp hh h1 h2 ha
  have hacc := exec_initOf_of_validSize fwd hq ((validSize_iff s.params s.arg.toNat).mpr ⟨l, h1, h2, ha⟩)
  rw [ha] at hacc
  have hle : 2 ^ l ≤ s.params.nmax := Nat.pow_le_pow_right (by norm_num) h2
  obtain ⟨k, u, hrun, hu, hread, hout⟩ := init_completes h1 (fwd := fwd)
    (t := { s with drop := false, err := .ok, seq := some (.init (2 ^ l) fwd .start) }) ⟨hh, hp⟩ hle rfl
  have hpos : 0 < 2 ^ l := by positivity
  refine ⟨_, k, u, hacc, rfl, hrun, hu, fun i hi => ⟨hread i hi, ?_, ?_⟩, ?_, ?_, hout⟩
  · rw [hread i hi]; exact bitRev_lt l i
  · rw [hread i hi, hread _ (bitRev_lt l i), bitRev_bitRev hi]
  · rw [hread 0 hpos, bitRev_zero]
  · rw [hread _ (by omega), bitRev_ones]

end Sys2Proof.Machine
end

section
/-! PROOFS. Windows (spec/42_window.md): SETWIN, the addresses of the ROMs, and the window pass: every sample
of the run takes its weight once and nothing else moves. -/

namespace Sys2Proof.Machine

/-! ### SETWIN -/

/-- SETWIN takes an id that is valid (R163). -/
theorem setwinCommand_of_le {s : State} (h : s.arg.toNat ≤ 2) :
    setwinCommand s = { s with err := .ok, win := BitVec.ofNat 2 s.arg.toNat } := by
  have hv : validWindow s.arg = true := decide_eq_true h
  rw [setwinCommand, if_pos hv, extract_window, report]

/-- And reports any other (60_exceptions.md R253). -/
theorem setwinCommand_of_gt {s : State} (h : 2 < s.arg.toNat) :
    setwinCommand s = { s with err := .windowId } := by
  have hv : ¬validWindow s.arg = true := by rw [validWindow, decide_eq_true_eq]; omega
  rw [setwinCommand, if_neg hv, report]

/-- Settles O23: with the engine idle SETWIN runs its rule (`command_idle`), which has two outcomes. -/
theorem setwinTakesIdsUpToTwo : Obligations.SetwinTakesIdsUpToTwo :=
  ⟨decodeWord_encode .setwin, fun _ hq =>
    ⟨fun h => (command_idle setwinCommand hq).trans (congrArg _ (setwinCommand_of_le h)),
     fun h => (command_idle setwinCommand hq).trans (congrArg _ (setwinCommand_of_gt h))⟩⟩

/-! ### Addresses -/

theorem windowAddr_eq (log2 l i : Nat) : windowAddr log2 l i = i * 2 ^ (log2 - l) := Nat.shiftLeft_eq _ _

theorem twiddleAddr_eq (log2 l stage i : Nat) :
    twiddleAddr log2 l stage i = i * 2 ^ stage * 2 ^ (log2 - l) := by
  rw [twiddleAddr, Nat.shiftLeft_eq, Nat.shiftLeft_eq]

theorem windowAddr_lt {log2 l i : Nat} (hl : l ≤ log2) (hi : i < 2 ^ l) : windowAddr log2 l i < 2 ^ log2 := by
  rw [windowAddr_eq, ← Nat.add_sub_cancel' hl, pow_add, Nat.add_sub_cancel_left]
  exact Nat.mul_lt_mul_of_pos_right hi (by positivity)

theorem windowAddr_angle {log2 l : Nat} (i : Nat) (hl : l ≤ log2) :
    windowAddr log2 l i * 2 ^ l = i * 2 ^ log2 := by
  rw [windowAddr_eq, mul_assoc, ← pow_add, Nat.sub_add_cancel hl]

theorem twiddleAddr_lt {log2 l stage i : Nat} (hl : l ≤ log2) (hs : stage < l) (hi : i < 2 ^ (l - 1 - stage)) :
    twiddleAddr log2 l stage i < 2 ^ log2 / 2 := by
  have hhalf : 2 ^ log2 / 2 = 2 ^ (l - 1 - stage) * 2 ^ stage * 2 ^ (log2 - l) := by
    rw [← pow_add, ← pow_add, show log2 = l - 1 - stage + stage + (log2 - l) + 1 by omega, pow_succ,
      Nat.mul_div_cancel _ two_pos]
    congr 1
    omega
  rw [twiddleAddr_eq, hhalf]
  exact Nat.mul_lt_mul_of_pos_right (Nat.mul_lt_mul_of_pos_right hi (by positivity)) (by positivity)

theorem twiddleAddr_angle {log2 l stage : Nat} (i : Nat) (hl : l ≤ log2) (hs : stage < l) :
    twiddleAddr log2 l stage i * 2 ^ (l - stage) = i * 2 ^ log2 := by
  rw [twiddleAddr_eq, mul_assoc, mul_assoc, ← pow_add, ← pow_add]
  congr 2
  omega

/-- Settles O35: the addresses as products with powers of two. -/
theorem romAddressesAreInRange : Obligations.RomAddressesAreInRange := fun _ _ _ i hl =>
  ⟨rfl, rfl, fun hs hi => ⟨twiddleAddr_lt hl hs hi, twiddleAddr_angle i hl hs⟩,
    fun hi => ⟨windowAddr_lt hl hi, windowAddr_angle i hl⟩⟩

/-! ### One weighting -/

/-- A weighted component is one that the representation keeps whole: in S the upper half is 0. -/
theorem componentIn_wmul1 (shift : Nat) (r : Representation) (x w : Word64) :
    componentIn r (wmul1 shift r x w).1 = (wmul1 shift r x w).1 := by
  cases r with
  | D => rfl
  | S => rw [wmul1, componentIn, liftS, low32_fmul_binary32]
  | Q => rfl

@[simp] theorem sread_setOvf (r : Representation) (b : Bool) (s : State) (j : Nat) :
    sread r (setOvf b s) j = sread r s j := rfl

section
variable (r : Representation) (cfg : Latched) (i : Nat) (s : State)

/-- What a weighting leaves in its slot (R164). -/
theorem sread_weightSlot_same :
    sread r (weightSlot r cfg i s) i =
      (wmulR s.params.renormShift r (sread r s i) (windowWeight r s.params.log2Nmax cfg i)).1 := by
  unfold weightSlot
  dsimp only
  generalize hv : wmulR _ r _ _ = v
  rw [sread_setOvf, sread_swrite_same, ← hv]
  simp only [wmulR, pairUp, componentIn_wmul1]

theorem readSlot_weightSlot_other {k : Nat} (h : k ≠ i) :
    readSlot (weightSlot r cfg i s).mem k = readSlot s.mem k := by
  unfold weightSlot
  dsimp only
  rw [setOvf_mem, readSlot_swrite_other r _ s h]

theorem weightSlot_frame : { weightSlot r cfg i s with mem := s.mem, ovf := s.ovf } = s := by
  unfold weightSlot
  generalize wmulR _ r _ _ = v
  unfold swrite
  rfl

@[simp] theorem weightSlot_params : (weightSlot r cfg i s).params = s.params := by
  unfold weightSlot
  dsimp only
  rw [setOvf_params, swrite_params]

theorem weightSlot_ovf :
    (weightSlot r cfg i s).ovf = (s.ovf ||
      (wmulR s.params.renormShift r (sread r s i) (windowWeight r s.params.log2Nmax cfg i)).2) := by
  unfold weightSlot
  dsimp only
  rw [setOvf_ovf, swrite_ovf]

end

/-! ### The pass -/

/-- An invariant of a loop that counts its passes. -/
theorem forRange_induct {P : Nat → State → Prop} {n : Nat} {f : Nat → State → State} {s : State} (h0 : P 0 s)
    (hf : ∀ i < n, ∀ t, P i t → P (i + 1) (f i t)) : P n (forRange n f s) :=
  forRange_rel (P := fun i t _ => P i t) (t := s) h0 fun i hi t _ => hf i hi t

/-- `t` is `s` with the slots below `k` weighted. -/
structure Weighted (r : Representation) (cfg : Latched) (s : State) (k : Nat) (t : State) : Prop where
  frame : { t with mem := s.mem, ovf := s.ovf } = s
  done  : ∀ i < k, sread r t i =
    (wmulR s.params.renormShift r (sread r s i) (windowWeight r s.params.log2Nmax cfg i)).1
  rest  : ∀ j, k ≤ j → readSlot t.mem j = readSlot s.mem j

/-- One weighting more: slot `k` is still as it was in `s`. -/
theorem Weighted.step {r : Representation} {cfg : Latched} {s t : State} {k : Nat} (h : Weighted r cfg s k t) :
    Weighted r cfg s (k + 1) (weightSlot r cfg k t) where
  frame := by
    have h1 := h.frame
    have h2 := weightSlot_frame r cfg k t
    rw [← h1]
    conv_rhs => rw [← h2]
  done i hi := by
    have hp : t.params = s.params := (congrArg State.params h.frame :)
    rcases Nat.lt_succ_iff_lt_or_eq.mp hi with hi | rfl
    · rw [sread_congr r (readSlot_weightSlot_other r cfg k t hi.ne), h.done i hi]
    · rw [sread_weightSlot_same, hp, sread_congr r (h.rest i le_rfl)]
  rest j hj := (readSlot_weightSlot_other r cfg k t (by omega)).trans (h.rest j (by omega))

theorem weighted_forRange (r : Representation) (cfg : Latched) (s : State) (n : Nat) :
    Weighted r cfg s n (forRange n (weightSlot r cfg) s) :=
  forRange_induct (P := Weighted r cfg s)
    ⟨rfl, fun _ h => absurd h (Nat.not_lt_zero _), fun _ _ => rfl⟩ fun _ _ _ h => h.step

theorem windowPass_of_none (r : Representation) {cfg : Latched} (s : State) (h : cfg.win = 0#2) :
    windowPass r cfg s = s := if_pos h

theorem windowPass_of_window (r : Representation) {cfg : Latched} (s : State) (h : cfg.win ≠ 0#2) :
    windowPass r cfg s = forRange cfg.n (weightSlot r cfg) s := if_neg h

/-- Settles O32: with WIN = 0 the pass does nothing, else it ends with the slots below N weighted
(`weighted_forRange`). -/
theorem windowPassWeighsEverySample : Obligations.WindowPassWeighsEverySample := by
  intro r cfg s
  refine ⟨windowPass_of_none r s, fun hw i hi => ?_, ?_⟩
  · rw [windowPass_of_window r s hw, (weighted_forRange r cfg s cfg.n).done i hi, windowWeight, windowAddr_eq]
  · by_cases hw : cfg.win = 0#2
    · rw [windowPass_of_none r s hw]
      exact ⟨fun _ _ => rfl, rfl⟩
    · rw [windowPass_of_window r s hw]
      have h := weighted_forRange r cfg s cfg.n
      exact ⟨h.rest, h.frame⟩

end Sys2Proof.Machine
end

section
/-! PROOFS. Windows (spec/42_window.md): the window ROM holds the exact weights rounded once (R161).
Log 11. -/

namespace Sys2Proof.Machine

open Real

/-! ### The fixed-point cosines and sines -/

/-- The values of an eighth of the circle are clear of the grids, by evaluating them all (log 11). -/
theorem octantsCheck_holds : octantsCheck := by
  unfold octantsCheck
  decide +kernel

/-- A fixed-point value known well enough to round what is made of it: exact, or near to a real that is
clear of the grids. -/
def Pinned (c : Int) (x : ℝ) : Prop :=
  (c : ℝ) = x * 2 ^ 128 ∨ (|(c : ℝ) - x * 2 ^ 128| ≤ 64 ∧ ∃ neg, ClearAt x neg)

/-- At the multiples of a quarter circle the fixed-point values are exact. -/
theorem fix_exact {log2 k : Nat} (h1 : 1 ≤ log2) (h16 : log2 ≤ 16)
    (hk : k = 0 ∨ 4 * k = 2 ^ log2 ∨ 2 * k = 2 ^ log2) :
    (cosFix log2 k : ℝ) = cos (2 * π * k / 2 ^ log2) * 2 ^ 128 ∧
    (sinFix log2 k : ℝ) = sin (2 * π * k / 2 ^ log2) * 2 ^ 128 := by
  obtain ⟨r0, r4, r2⟩ := rotation_quarters h1 h16
  have hN : (0 : ℝ) < 2 ^ log2 := by positivity
  rcases hk with rfl | hk | hk
  · simp [cosFix, sinFix, r0, romOne_cast]
  · have hl : 2 ≤ log2 := by
      by_contra hc
      have : log2 = 1 := by omega
      subst this
      omega
    have e : (2 : ℝ) ^ log2 = 4 * k := by exact_mod_cast hk.symm
    have hθ : 2 * π * k / 2 ^ log2 = π / 2 := by
      rw [div_eq_div_iff hN.ne' two_ne_zero, e]; ring
    rw [hθ, cosFix, sinFix, show k = 2 ^ log2 / 4 by omega, r4 hl]
    simp [romOne_cast]
  · have e : (2 : ℝ) ^ log2 = 2 * k := by exact_mod_cast hk.symm
    have hθ : 2 * π * k / 2 ^ log2 = π := by
      rw [div_eq_iff hN.ne', e]; ring
    rw [hθ, cosFix, sinFix, show k = 2 ^ log2 / 2 by omega, r2]
    simp [romOne_cast]

/-- Half the circle: at the multiples of a quarter exact, elsewhere clear. -/
theorem fix_pinned {log2 k : Nat} (h1 : 1 ≤ log2) (h16 : log2 ≤ 16) (hk : 2 * k ≤ 2 ^ log2) :
    Pinned (cosFix log2 k) (cos (2 * π * k / 2 ^ log2)) ∧
    Pinned (sinFix log2 k) (sin (2 * π * k / 2 ^ log2)) := by
  by_cases hq : k = 0 ∨ 4 * k = 2 ^ log2 ∨ 2 * k = 2 ^ log2
  · exact (fix_exact h1 h16 hq).imp .inl .inl
  · obtain ⟨h0, h4, h2⟩ : k ≠ 0 ∧ 4 * k ≠ 2 ^ log2 ∧ 2 * k ≠ 2 ^ log2 := by simpa only [not_or] using hq
    have hd : 2 ^ log2 * 2 ^ (16 - log2) = 65536 := by
      rw [← pow_add, Nat.add_sub_cancel' h16]; norm_num
    have hd0 : 0 < 2 ^ (16 - log2) := by positivity
    -- the same angle as an index of 2^16
    have hlt : k * 2 ^ (16 - log2) < 32768 := by
      have := Nat.mul_lt_mul_of_pos_right (lt_of_le_of_ne hk h2) hd0
      rw [mul_assoc, hd] at this
      omega
    have hne : k * 2 ^ (16 - log2) ≠ 16384 := fun h =>
      h4 (Nat.eq_of_mul_eq_mul_right hd0 (by rw [mul_assoc, h, hd]; norm_num))
    obtain ⟨nc, ns⟩ := fix_near h16 (show k < 2 ^ log2 by omega)
    obtain ⟨cc, cs⟩ := half_circle_clear octantsCheck_holds hlt (by positivity) hne
    rw [← angle_scale h16] at cc cs
    exact ⟨.inr ⟨nc, _, cc⟩, .inr ⟨ns, _, cs⟩⟩

/-- The cosines of the window: those of the other half of the circle are the same reals (R169 d). -/
theorem windowCos_pinned {log2 k : Nat} (h1 : 1 ≤ log2) (h16 : log2 ≤ 16) (hk : k < 2 ^ log2) :
    Pinned (windowCos log2 k) (cos (2 * π * k / 2 ^ log2)) := by
  unfold windowCos
  split_ifs with h
  · exact (fix_pinned h1 h16 h).1
  · have hθ : 2 * π * ((2 ^ log2 - k : Nat) : ℝ) / 2 ^ log2 = 2 * π - 2 * π * k / 2 ^ log2 := by
      rw [Nat.cast_sub hk.le]
      push_cast
      field_simp
    rw [← cos_two_pi_sub, ← hθ]
    exact (fix_pinned h1 h16 (by omega)).1

/-- Of the pinned values 1 is exact. -/
theorem Pinned.eq_romOne {c : Int} (h : Pinned c 1) : c = romOne := by
  rcases h with h | ⟨-, neg, v, hv, hx⟩
  · rw [one_mul, ← romOne_cast] at h
    exact_mod_cast h
  · simp only [valueClear, Bool.and_eq_true, Nat.ble_eq] at hv
    obtain ⟨⟨⟨⟨-, hv⟩, -⟩, -⟩, -⟩ := hv
    have hv' : (v : ℝ) + 2 ^ 100 ≤ 2 ^ 128 := by exact_mod_cast hv
    have hle : (signedUnits neg v : ℝ) ≤ v := by cases neg <;> simp [signedUnits]
    rw [one_mul, abs_le] at hx
    linarith [hx.1]

/-! ### The weights -/

theorem Pinned.hamming {f : Fmt} (hf : f = binary64 ∨ f = binary32) {c : Int} {x : ℝ} (h : Pinned c x) :
    RoundsTo f (27 / 50 - 23 / 50 * x) (roundRatio f (27 * romOne - 23 * c) (50 * 2 ^ romBits)) := by
  rcases h with h | ⟨hn, neg, hc⟩
  · have e : ((27 * romOne - 23 * c : Int) : ℝ) / ((50 * 2 ^ romBits : Nat) : ℝ) = 27 / 50 - 23 / 50 * x := by
      push_cast
      rw [h, romOne_cast, romBits]
      ring
    exact e ▸ roundsTo_roundRatio (.of_format hf) _ (by positivity)
  · exact hc.hamming hf hn

theorem Pinned.hanning {f : Fmt} (hf : f = binary64 ∨ f = binary32) {c : Int} {x : ℝ} (h : Pinned c x) :
    RoundsTo f (1 / 2 - 1 / 2 * x) (roundRatio f (romOne - c) (2 * 2 ^ romBits)) := by
  rcases h with h | ⟨hn, neg, hc⟩
  · have e : ((romOne - c : Int) : ℝ) / ((2 * 2 ^ romBits : Nat) : ℝ) = 1 / 2 - 1 / 2 * x := by
      push_cast
      rw [h, romOne_cast, romBits]
      ring
    exact e ▸ roundsTo_roundRatio (.of_format hf) _ (by positivity)
  · exact hc.hanning hf hn

/-! ### Entries -/

theorem roundRatio_lt {f : Fmt} (hf : f.Ok) (num : Int) (den : Nat) : roundRatio f num den < 2 * f.signWeight :=
  (Delivers.of_signed (c := False) id (roundMag_le f _ den)).lt hf

theorem toNat_romEntry_D (num : Int) (den : Nat) : (romEntry .D num den).toNat = roundRatio binary64 num den := by
  rw [romEntry, BitVec.toNat_ofNat]
  exact Nat.mod_eq_of_lt (roundRatio_lt binary64_ok num den)

theorem toNat_romEntry_S (num : Int) (den : Nat) : (romEntry .S num den).toNat = roundRatio binary32 num den := by
  have h : roundRatio binary32 num den < 2 ^ 32 := roundRatio_lt binary32_ok num den
  rw [romEntry, BitVec.toNat_ofNat]
  exact Nat.mod_eq_of_lt (h.trans (by norm_num))

/-- An exact zero is +0 in every representation. -/
theorem romEntry_zero (r : Representation) (den : Nat) : romEntry r 0 den = 0#64 := by
  have h : ∀ f, roundRatio f 0 den = 0 := fun f => by simp [roundRatio, signed]
  cases r with
  | D => rw [romEntry, h]
  | S => rw [romEntry, h]
  | Q => rw [romEntry, h]; decide +kernel

/-- Below the overflow threshold a real rounds to a finite pattern. -/
theorem RoundsTo.isFinite {f : Fmt} {x : ℝ} {w : Nat} (h : RoundsTo f x w) (hx : |x| < (f.overflowAt : ℝ)) :
    f.isFinite w := by
  unfold RoundsTo at h
  rw [if_pos hx] at h
  exact h.1

/-- A real between 0 and 1 rounds to a finite pattern of such a value. -/
theorem RoundsTo.unit {x : ℝ} {w : Nat} (h : RoundsTo binary64 x w) (h0 : 0 ≤ x) (h1 : x ≤ 1) :
    binary64.isFinite w ∧ 0 ≤ binary64.value w ∧ binary64.value w ≤ 1 := by
  have hov : |x| < (binary64.overflowAt : ℝ) := by
    rw [abs_of_nonneg h0]
    linarith [two_lt_overflow (.inl rfl)]
  have z : unpack binary64 0 = .fin false 0 := by decide +kernel
  have vz : binary64.value 0 = 0 := (value_eq_zero_iff z).mpr rfl
  obtain ⟨hone, vone, -⟩ := ofNatBits_two_pow_spec (l := 0) binary64_ok (by decide)
  refine ⟨h.isFinite hov, ?_, ?_⟩
  · rw [← vz]
    exact (h.le_value hov ⟨_, _, z⟩).2 (by rw [vz]; exact_mod_cast h0)
  · rw [← pow_zero (2 : ℚ), ← vone]
    exact (h.le_value hov hone).1 (by rw [vone, pow_zero]; exact_mod_cast h1)

/-- For a value between 0 and 1 truncation is the floor (40_numerics.md R127). -/
theorem toQ_of_unit {w : Word64} (hf : binary64.isFinite w.toNat) (h0 : 0 ≤ binary64.value w.toNat)
    (h1 : binary64.value w.toNat ≤ 1) :
    s64 (toQ w) = ⌊binary64.value w.toNat * 2 ^ 32⌋ ∧ 0 ≤ s64 (toQ w) ∧ s64 (toQ w) ≤ 2 ^ 32 := by
  obtain ⟨hq, hle⟩ := toQ_value hf (by rwa [abs_of_nonneg h0])
  rw [abs_of_nonneg h0] at hq
  have heq : s64 (toQ w) = ⌊binary64.value w.toNat * 2 ^ 32⌋ := by
    rcases h0.eq_or_lt with hz | hpos
    · rw [← hz] at hq ⊢
      simpa using hq
    · rw [sign_pos hpos] at hq
      simpa using hq
  have hnn : 0 ≤ ⌊binary64.value w.toNat * 2 ^ 32⌋ := Int.floor_nonneg.mpr (by positivity)
  exact ⟨heq, heq ▸ hnn, by omega⟩

/-- An entry of the window ROM for the exact weight `x` (R161). -/
structure HoldsWeight (x : ℝ) (entry : Representation → Word64) : Prop where
  double : RoundsTo binary64 x (entry .D).toNat
  single : RoundsTo binary32 x (entry .S).toNat
  fixed  : s64 (entry .Q) = ⌊binary64.value (entry .D).toNat * 2 ^ 32⌋
  range  : 0 ≤ s64 (entry .Q) ∧ s64 (entry .Q) ≤ 2 ^ 32

theorem holdsWeight_romEntry {x : ℝ} {num : Int} {den : Nat}
    (h : ∀ f, f = binary64 ∨ f = binary32 → RoundsTo f x (roundRatio f num den)) (h0 : 0 ≤ x) (h1 : x ≤ 1) :
    HoldsWeight x (romEntry · num den) := by
  have hD : RoundsTo binary64 x (romEntry .D num den).toNat := toNat_romEntry_D num den ▸ h _ (.inl rfl)
  obtain ⟨hf, hv0, hv1⟩ := hD.unit h0 h1
  obtain ⟨hfloor, hrange⟩ := toQ_of_unit hf hv0 hv1
  exact ⟨hD, toNat_romEntry_S num den ▸ h _ (.inr rfl), hfloor, hrange⟩

section
variable {log2 k : Nat} (h1 : 1 ≤ log2) (h16 : log2 ≤ 16) (hk : k < 2 ^ log2)
include h1 h16 hk

theorem hamming_holdsWeight :
    HoldsWeight (27 / 50 - 23 / 50 * cos (2 * π * k / 2 ^ log2)) (hamming · log2 k) :=
  holdsWeight_romEntry (fun _ hf => (windowCos_pinned h1 h16 hk).hamming hf)
    (by linarith [cos_le_one (2 * π * k / 2 ^ log2)]) (by linarith [neg_one_le_cos (2 * π * k / 2 ^ log2)])

theorem hanning_holdsWeight :
    HoldsWeight (1 / 2 - 1 / 2 * cos (2 * π * k / 2 ^ log2)) (hanning · log2 k) :=
  holdsWeight_romEntry (fun _ hf => (windowCos_pinned h1 h16 hk).hanning hf)
    (by linarith [cos_le_one (2 * π * k / 2 ^ log2)]) (by linarith [neg_one_le_cos (2 * π * k / 2 ^ log2)])

theorem hanning_eq_zero (hc : cos (2 * π * k / 2 ^ log2) = 1) (r : Representation) : hanning r log2 k = 0#64 := by
  have h := (hc ▸ windowCos_pinned h1 h16 hk).eq_romOne
  rw [hanning, h, sub_self, romEntry_zero]

end

/-- Settles O45: the cosine behind every entry is pinned (`windowCos_pinned`), so the weight made of it
rounds as the exact one does. -/
theorem windowRomIsCorrectlyRounded : Obligations.WindowRomIsCorrectlyRounded := by
  intro log2 k h1 h16 hk
  have ham := hamming_holdsWeight h1 h16 hk
  have han := hanning_holdsWeight h1 h16 hk
  have zero := hanning_eq_zero h1 h16 hk
  exact ⟨ham.double, han.double, ham.single, han.single, ham.fixed, han.fixed,
    fun hc => ⟨zero hc .D, zero hc .S⟩, ham.range, han.range⟩

end Sys2Proof.Machine
end

section
/-! PROOFS. Windows (spec/42_window.md): the exact entries of the ROMs at the quarters of the circle, and the
symmetry of the window ROM (R169). -/

namespace Sys2Proof.Machine

/-- The pattern of 1 in each representation. -/
def oneWord : Representation → Word64
  | .D => 0x3FF0000000000000#64
  | .S => 0x3F800000#64
  | .Q => 0x100000000#64

theorem romEntry_one (r : Representation) : romEntry r romOne (2 ^ romBits) = oneWord r := by
  cases r <;> decide +kernel

section
variable {log2 : Nat} (h1 : 1 ≤ log2) (h16 : log2 ≤ 16)
include h1 h16

/-! ### The twiddle ROM at the angles 0 and pi / 2 -/

theorem twiddle_zero (r : Representation) :
    twiddleCos r log2 0 = oneWord r ∧ twiddleSin r log2 0 = 0#64 := by
  rw [twiddleCos, twiddleSin, cosFix, sinFix, (rotation_quarters h1 h16).1]
  exact ⟨romEntry_one r, romEntry_zero r _⟩

theorem twiddle_quarter (h2 : 2 ≤ log2) (r : Representation) :
    twiddleCos r log2 (2 ^ log2 / 4) = 0#64 ∧ twiddleSin r log2 (2 ^ log2 / 4) = oneWord r := by
  rw [twiddleCos, twiddleSin, cosFix, sinFix, (rotation_quarters h1 h16).2.1 h2]
  exact ⟨romEntry_zero r _, romEntry_one r⟩

/-! ### The window ROM at the angles 0, pi / 2 and pi -/

theorem windowCos_zero : windowCos log2 0 = romOne := by
  rw [windowCos, if_pos (Nat.zero_le _), cosFix, (rotation_quarters h1 h16).1]

theorem windowCos_quarter (h2 : 2 ≤ log2) : windowCos log2 (2 ^ log2 / 4) = 0 := by
  rw [windowCos, if_pos (by omega), cosFix, (rotation_quarters h1 h16).2.1 h2]

theorem windowCos_half : windowCos log2 (2 ^ log2 / 2) = -romOne := by
  rw [windowCos, if_pos (by omega), cosFix, (rotation_quarters h1 h16).2.2]

theorem hamming_D_zero : hamming .D log2 0 = 0x3FB47AE147AE147B#64 := by
  rw [hamming, windowCos_zero h1 h16]
  decide +kernel

theorem hanning_zero (r : Representation) : hanning r log2 0 = 0#64 := by
  rw [hanning, windowCos_zero h1 h16, sub_self, romEntry_zero]

theorem hamming_D_quarter (h2 : 2 ≤ log2) : hamming .D log2 (2 ^ log2 / 4) = 0x3FE147AE147AE148#64 := by
  rw [hamming, windowCos_quarter h1 h16 h2]
  decide +kernel

theorem hanning_quarter (h2 : 2 ≤ log2) :
    hanning .D log2 (2 ^ log2 / 4) = 0x3FE0000000000000#64 ∧ hanning .S log2 (2 ^ log2 / 4) = 0x3F000000#64 ∧
      hanning .Q log2 (2 ^ log2 / 4) = 0x80000000#64 := by
  simp only [hanning, windowCos_quarter h1 h16 h2]
  decide +kernel

theorem window_half (r : Representation) :
    hamming r log2 (2 ^ log2 / 2) = oneWord r ∧ hanning r log2 (2 ^ log2 / 2) = oneWord r := by
  rw [hamming, hanning, windowCos_half h1 h16]
  cases r <;> decide +kernel

end

/-- The window ROM is symmetric because it looks the cosine up in one half of the circle (R169 d). -/
theorem windowCos_symm {log2 k : Nat} (hk : k < 2 ^ log2) :
    windowCos log2 k = windowCos log2 (2 ^ log2 - k) := by
  rcases Nat.lt_trichotomy (2 * k) (2 ^ log2) with h | h | h
  · rw [windowCos, if_pos h.le, windowCos, if_neg (by omega), Nat.sub_sub_self hk.le]
  · congr 1
    omega
  · rw [windowCos, if_neg (by omega), windowCos, if_pos (by omega)]

/-- Settles O46: the entries at the quarters of the circle, whose rotations are exact (`rotation_quarters`),
and the symmetry of the cosine they are made of (`windowCos_symm`). -/
theorem romsHoldTheirExactValues : Obligations.RomsHoldTheirExactValues := by
  intro log2 h1 h16
  refine ⟨?_, fun h2 => ?_, hamming_D_zero h1 h16, hanning_zero h1 h16, ?_, fun r k _ hk => ?_⟩
  · have h := twiddle_zero h1 h16
    exact ⟨(h .D).1, (h .D).2, (h .S).1, (h .S).2, (h .Q).1, (h .Q).2⟩
  · have h := twiddle_quarter h1 h16 h2
    obtain ⟨hD, hS, hQ⟩ := hanning_quarter h1 h16 h2
    exact ⟨(h .D).1, (h .D).2, (h .S).1, (h .S).2, (h .Q).2, hD, hS, hQ, hamming_D_quarter h1 h16 h2⟩
  · have h := window_half h1 h16
    exact ⟨(h .D).1, (h .D).2, (h .S).1, (h .S).2, (h .Q).1, (h .Q).2⟩
  · rw [hamming, hamming, hanning, hanning, windowCos_symm hk]
    exact ⟨rfl, rfl⟩

end Sys2Proof.Machine
end

section
/-! PROOFS. Windows (spec/42_window.md): the pass in Q never wraps, for its weights lie between 0 and 1
(R165). -/

namespace Sys2Proof.Machine

/-- A quotient that fits is kept and sets no flag. -/
theorem renorm_of_fits {shift : Nat} {p : Int} (lo : -2 ^ 63 ≤ p / 2 ^ shift) (hi : p / 2 ^ shift < 2 ^ 63) :
    renorm shift p = (wrap64 (p / 2 ^ shift), false) := by
  rw [renorm, wrapFlag, fits64_eq_true_iff.mpr ⟨lo, hi⟩, Bool.not_true]

/-- A weight between 0 and 1 moves an integer towards 0, and no farther. -/
theorem weighted_between (a : Int) {w : Int} (h0 : 0 ≤ w) (h1 : w ≤ 2 ^ 32) :
    min a 0 ≤ a * w / 2 ^ 32 ∧ a * w / 2 ^ 32 ≤ max a 0 := by
  rcases le_total 0 a with ha | ha
  · have lo : 0 ≤ a * w := mul_nonneg ha h0
    have hi : a * w ≤ a * 2 ^ 32 := mul_le_mul_of_nonneg_left h1 ha
    omega
  · have lo : a * 2 ^ 32 ≤ a * w := mul_le_mul_of_nonpos_left h1 ha
    have hi : a * w ≤ 0 := mul_nonpos_of_nonpos_of_nonneg ha h0
    omega

/-- The weighted component fits and is no larger (R165). -/
theorem renorm_weight (x : Word64) {w : Word64} (h0 : 0 ≤ s64 w) (h1 : s64 w ≤ 2 ^ 32) :
    (renorm 32 (s64 x * s64 w)).2 = false ∧ (s64 (renorm 32 (s64 x * s64 w)).1).natAbs ≤ (s64 x).natAbs := by
  have hx := s64_bounds x
  have hb := weighted_between (s64 x) h0 h1
  rw [renorm_of_fits (by omega) (by omega)]
  refine ⟨rfl, ?_⟩
  rw [s64_wrap64_of_fits (by omega) (by omega)]
  omega

/-- The weight 1 keeps a component. -/
theorem renorm_one (x : Word64) : renorm 32 (s64 x * 2 ^ 32) = (x, false) := by
  have hx := s64_bounds x
  have e : s64 x * 2 ^ 32 / 2 ^ 32 = s64 x := Int.mul_ediv_cancel _ (by norm_num)
  rw [renorm_of_fits (by omega) (by omega), e, wrap64, s64, BitVec.ofInt_toInt]

theorem renorm_zero (shift : Nat) : renorm shift 0 = (0#64, false) := by
  rw [renorm_of_fits (by simp) (by simp), Int.zero_ediv]
  rfl

/-- Every weight a run reads lies between 0 and 1 (R161, R162). -/
theorem windowWeight_range {log2 : Nat} {cfg : Latched} {i : Nat} (h1 : 1 ≤ log2) (h16 : log2 ≤ 16)
    (hl : cfg.l ≤ log2) (hi : i < 2 ^ cfg.l) :
    0 ≤ s64 (windowWeight .Q log2 cfg i) ∧ s64 (windowWeight .Q log2 cfg i) ≤ 2 ^ 32 := by
  have hk := windowAddr_lt hl hi
  unfold windowWeight
  split_ifs
  · exact (hamming_holdsWeight h1 h16 hk).range
  · exact (hanning_holdsWeight h1 h16 hk).range

/-- A weighting with such a weight keeps OVF. -/
theorem weightSlot_Q_ovf {cfg : Latched} {i : Nat} {s : State} (hs : s.params.renormShift = 32)
    (h0 : 0 ≤ s64 (windowWeight .Q s.params.log2Nmax cfg i))
    (h1 : s64 (windowWeight .Q s.params.log2Nmax cfg i) ≤ 2 ^ 32) : (weightSlot .Q cfg i s).ovf = s.ovf := by
  rw [weightSlot_ovf, wmulR, pairUp, wmul1, wmul1, hs, (renorm_weight _ h0 h1).1, (renorm_weight _ h0 h1).1,
    Bool.or_false, Bool.or_false]

/-- The pass in Q with RENORM_SHIFT = 32 keeps OVF. -/
theorem windowPass_Q_ovf {cfg : Latched} {s : State} (hs : s.params.renormShift = 32) (h1 : 1 ≤ s.params.log2Nmax)
    (h16 : s.params.log2Nmax ≤ 16) (hl : cfg.l ≤ s.params.log2Nmax) (hn : cfg.n = 2 ^ cfg.l) :
    (windowPass .Q cfg s).ovf = s.ovf := by
  by_cases hw : cfg.win = 0#2
  · rw [windowPass_of_none .Q s hw]
  · rw [windowPass_of_window .Q s hw]
    refine (forRange_keeps (P := fun t => t.params = s.params ∧ t.ovf = s.ovf) ⟨rfl, rfl⟩ ?_).2
    rintro i hi t ⟨hp, ho⟩
    obtain ⟨lo, up⟩ := windowWeight_range h1 h16 hl (hn ▸ hi)
    rw [← hp] at lo up hs
    exact ⟨(weightSlot_params .Q cfg i t).trans hp, (weightSlot_Q_ovf hs lo up).trans ho⟩

/-- Settles O43: the weights by the ROM's entries (`hamming_holdsWeight`, `hanning_holdsWeight`), a
component by `renorm_weight`, the pass by `windowPass_Q_ovf`. -/
theorem windowPassNeverSetsOvf : Obligations.WindowPassNeverSetsOvf := by
  intro s log2 k h1 h16 hk
  obtain ⟨ham0, ham1⟩ := (hamming_holdsWeight h1 h16 hk).range
  obtain ⟨han0, han1⟩ := (hanning_holdsWeight h1 h16 hk).range
  refine ⟨ham0, ham1, han0, han1, fun x w => renorm_weight x, fun x => ⟨renorm_one x, ?_⟩, fun hi hs hc => ?_⟩
  · rw [mul_zero, renorm_zero]
  · obtain ⟨-, hl, hn⟩ := hi.config hc
    have hp := hi.params
    simp only [Params.wf, Bool.and_eq_true, decide_eq_true_eq] at hp
    obtain ⟨⟨⟨hp1, hp16⟩, -⟩, -⟩ := hp
    exact windowPass_Q_ovf hs hp1 hp16 hl hn

end Sys2Proof.Machine
end

section
/-! PROOFS. Butterfly (spec/43_butterfly.md): the twiddle ROM holds the exact cosines and sines rounded once
(R181). The windows' proofs pin the fixed-point values of half the circle (`fix_pinned`); what is left is an
entry made of one of them. Log 11. -/

namespace Sys2Proof.Machine

open Real

/-! ### An entry made of a pinned value -/

/-- A pinned value over 2^128 rounds as the exact real does. -/
theorem Pinned.entry {f : Fmt} (hf : f = binary64 ∨ f = binary32) {c : Int} {x : ℝ} (h : Pinned c x) :
    RoundsTo f x (roundRatio f c (2 ^ romBits)) := by
  rcases h with h | ⟨hn, neg, hc⟩
  · have e : (c : ℝ) / ((2 ^ romBits : Nat) : ℝ) = x := by
      rw [h, romBits]
      push_cast
      ring
    exact e ▸ roundsTo_roundRatio (.of_format hf) c (by positivity)
  · exact hc.entry hf hn

/-- Of the pinned values 0 is exact: a clear magnitude is far from it. -/
theorem Pinned.eq_zero {c : Int} (h : Pinned c 0) : c = 0 := by
  rcases h with h | ⟨-, neg, v, hv, hx⟩
  · rw [zero_mul] at h
    exact_mod_cast h
  · simp only [valueClear, Bool.and_eq_true, Nat.ble_eq] at hv
    obtain ⟨⟨⟨⟨hv, -⟩, -⟩, -⟩, -⟩ := hv
    have habs : |(signedUnits neg v : ℝ)| = v := by cases neg <;> simp [signedUnits]
    rw [zero_mul, sub_zero, habs] at hx
    have hv' : v ≤ 64 := by exact_mod_cast hx
    omega

/-- The pattern of 1 and the one of -1. -/
theorem exists_value_one_neg_one :
    ∃ p m, binary64.isFinite p ∧ binary64.value p = 1 ∧ binary64.isFinite m ∧ binary64.value m = -1 := by
  obtain ⟨hone, vone, hlt⟩ := ofNatBits_two_pow_spec (l := 0) binary64_ok (by decide)
  have hw : ofNatBits binary64 (2 ^ 0) < 2 * binary64.signWeight := by omega
  exact ⟨_, _, hone, vone.trans (pow_zero 2), isFinite_fneg hw hone, by rw [value_fneg hw hone, vone, pow_zero]⟩

/-- A real of magnitude at most 1 rounds to a finite pattern of such a value. -/
theorem RoundsTo.abs_le_one {x : ℝ} {w : Nat} (h : RoundsTo binary64 x w) (hx : |x| ≤ 1) :
    binary64.isFinite w ∧ |binary64.value w| ≤ 1 := by
  have hov : |x| < (binary64.overflowAt : ℝ) := by linarith [two_lt_overflow (.inl rfl)]
  obtain ⟨p, m, hp, vp, hm, vm⟩ := exists_value_one_neg_one
  obtain ⟨lo, hi⟩ := abs_le.mp hx
  refine ⟨h.isFinite hov, abs_le.mpr ⟨?_, ?_⟩⟩
  · rw [← vm]
    exact (h.le_value hov hm).2 (by rw [vm]; exact_mod_cast lo)
  · rw [← vp]
    exact (h.le_value hov hp).1 (by rw [vp]; exact_mod_cast hi)

/-- An entry of the twiddle ROM for the exact cosine or sine `x` (R181). -/
structure HoldsPart (x : ℝ) (entry : Representation → Word64) : Prop where
  double : RoundsTo binary64 x (entry .D).toNat
  single : RoundsTo binary32 x (entry .S).toNat
  zero   : x = 0 → ∀ r, entry r = 0#64
  fixed  : (s64 (entry .Q) : ℚ) =
    (SignType.sign (binary64.value (entry .D).toNat) : ℚ) * ⌊|binary64.value (entry .D).toNat| * 2 ^ 32⌋

theorem Pinned.holdsPart {c : Int} {x : ℝ} (h : Pinned c x) (hx : |x| ≤ 1) :
    HoldsPart x (romEntry · c (2 ^ romBits)) where
  double := toNat_romEntry_D c _ ▸ h.entry (.inl rfl)
  single := toNat_romEntry_S c _ ▸ h.entry (.inr rfl)
  zero h0 r := by rw [(show Pinned c 0 from h0 ▸ h).eq_zero, romEntry_zero]
  fixed := by
    have hD : RoundsTo binary64 x (romEntry .D c (2 ^ romBits)).toNat :=
      toNat_romEntry_D c _ ▸ h.entry (.inl rfl)
    obtain ⟨hf, hv⟩ := hD.abs_le_one hx
    exact (toQ_value hf hv).1

/-- Settles O44: the fixed-point cosine and sine behind an entry are pinned (`fix_pinned`), so the entry is
the exact value rounded once. -/
theorem twiddleRomIsCorrectlyRounded : Obligations.TwiddleRomIsCorrectlyRounded := by
  intro log2 k h1 h16 hk
  obtain ⟨pc, ps⟩ := fix_pinned h1 h16 (show 2 * k ≤ 2 ^ log2 by omega)
  have hc : HoldsPart (cos (2 * π * k / 2 ^ log2)) (twiddleCos · log2 k) := pc.holdsPart (abs_cos_le_one _)
  have hs : HoldsPart (sin (2 * π * k / 2 ^ log2)) (twiddleSin · log2 k) := ps.holdsPart (abs_sin_le_one _)
  exact ⟨hc.double, hs.double, hc.single, hs.single, fun h0 => ⟨hc.zero h0 .D, hc.zero h0 .S⟩,
    fun h0 => ⟨hs.zero h0 .D, hs.zero h0 .S⟩, hc.fixed, hs.fixed⟩

end Sys2Proof.Machine
end

section
/-! PROOFS. Butterfly (spec/43_butterfly.md): the twiddle factor by direction (R183), and what the negation of
a ROM value is (spec/40_numerics.md R117, R128). -/

namespace Sys2Proof.Machine

/-! ### Negation -/

theorem fneg_signed {f : Fmt} (neg : Bool) {m : Nat} (hm : m < f.signWeight) :
    fneg f (signed f neg m) = signed f (!neg) m := by
  have hdiv : m / f.signWeight = 0 := Nat.div_eq_of_lt hm
  cases neg
  · simp [fneg, signed, hdiv, Nat.add_comm]
  · simp [fneg, signed, Nat.add_div_left m (show 0 < f.signWeight by omega), hdiv]

/-- The sign bit of a negative pattern stands above the magnitude's bits. -/
theorem signed_true_eq_xor {f : Fmt} {m : Nat} (hm : m < f.signWeight) :
    signed f true m = m ^^^ f.signWeight := by
  obtain ⟨n, hn⟩ : ∃ n, f.signWeight = 2 ^ n := ⟨_, rfl⟩
  rw [signed, if_pos rfl, hn]
  rw [hn] at hm
  refine Nat.eq_of_testBit_eq fun i => ?_
  rw [Nat.testBit_xor]
  rcases lt_trichotomy i n with hi | rfl | hi
  · rw [Nat.testBit_two_pow_add_gt hi, Nat.testBit_two_pow_of_ne hi.ne', Bool.xor_false]
  · rw [Nat.testBit_two_pow_add_eq, Nat.testBit_two_pow_self, Bool.xor_true]
  · have hup : 2 ^ n * 2 ≤ 2 ^ i := pow_succ 2 n ▸ Nat.pow_le_pow_right two_pos hi
    rw [Nat.testBit_lt_two_pow (show 2 ^ n + m < 2 ^ i by omega),
      Nat.testBit_lt_two_pow (show m < 2 ^ i by omega), Nat.testBit_two_pow_of_ne hi.ne, Bool.xor_false]

/-- Negation flips the sign bit of a pattern (40_numerics.md R117). -/
theorem fneg_eq_xor {f : Fmt} {x : Nat} (hx : x < 2 * f.signWeight) : fneg f x = x ^^^ f.signWeight := by
  obtain ⟨neg, m, hm, rfl⟩ := exists_signed hx
  have hplus : signed f false m = m := by rw [signed, if_neg Bool.false_ne_true, Nat.zero_add]
  rw [fneg_signed neg hm]
  cases neg
  · rw [Bool.not_false, signed_true_eq_xor hm, hplus]
  · rw [Bool.not_true, signed_true_eq_xor hm, hplus, Nat.xor_assoc, Nat.xor_self, Nat.xor_zero]

theorem neg1_D (x : Word64) : neg1 .D x = x ^^^ 0x8000000000000000#64 := by
  refine BitVec.eq_of_toNat_eq ?_
  rw [neg1, fneg_eq_xor x.isLt, BitVec.ofNat_xor, BitVec.ofNat_toNat, BitVec.setWidth_eq]
  rfl

theorem neg1_S (x : Word64) : neg1 .S x = BitVec.ofNat 64 (x.toNat % 2 ^ 32) ^^^ 0x80000000#64 := by
  have hx : low32 x < 2 * binary32.signWeight := Nat.mod_lt _ (by norm_num)
  rw [neg1, fneg_eq_xor hx, BitVec.ofNat_xor]
  rfl

theorem neg1_Q (x : Word64) : neg1 .Q x = -x := by
  rw [neg1, qneg, wrap64, s64, BitVec.ofInt_neg, BitVec.ofInt_toInt]

/-- In Q the negation of a word of a ROM value's magnitude is exact (R128). -/
theorem s64_neg1_Q {x : Word64} (hx : (s64 x).natAbs ≤ 2 ^ 32) : s64 (neg1 .Q x) = -s64 x :=
  s64_wrap64_of_fits (by omega) (by omega)

/-! ### The factor -/

theorem twiddle_of_fwd (r : Representation) (log2 : Nat) {cfg : Latched} (stage i : Nat) (h : cfg.fwd = true) :
    twiddle r log2 cfg stage i =
      { re := twiddleCos r log2 (twiddleAddr log2 cfg.l stage i)
        im := neg1 r (twiddleSin r log2 (twiddleAddr log2 cfg.l stage i)) } := by
  rw [twiddle, h, if_pos rfl]

theorem twiddle_of_inverse (r : Representation) (log2 : Nat) {cfg : Latched} (stage i : Nat)
    (h : cfg.fwd = false) :
    twiddle r log2 cfg stage i =
      { re := twiddleCos r log2 (twiddleAddr log2 cfg.l stage i)
        im := twiddleSin r log2 (twiddleAddr log2 cfg.l stage i) } := by
  rw [twiddle, h, if_neg Bool.false_ne_true]

theorem twiddleAddr_zero (log2 l stage : Nat) : twiddleAddr log2 l stage 0 = 0 := by
  rw [twiddleAddr_eq, zero_mul, zero_mul]

/-- At i = 0 the factor is 1: its imaginary part is the sine 0, which the forward direction negates. -/
theorem twiddle_at_zero {log2 : Nat} (h1 : 1 ≤ log2) (h16 : log2 ≤ 16) (r : Representation) (cfg : Latched)
    (stage : Nat) :
    (cfg.fwd = true → twiddle r log2 cfg stage 0 = { re := oneWord r, im := neg1 r 0#64 }) ∧
    (cfg.fwd = false → twiddle r log2 cfg stage 0 = { re := oneWord r, im := 0#64 }) := by
  obtain ⟨hcos, hsin⟩ := twiddle_zero h1 h16 r
  constructor <;> intro h
  · rw [twiddle_of_fwd r log2 stage 0 h, twiddleAddr_zero, hcos, hsin]
  · rw [twiddle_of_inverse r log2 stage 0 h, twiddleAddr_zero, hcos, hsin]

/-- Settles O58: the factor by direction, the negation in each representation, and the ROM's entries at the
angle 0 (`twiddle_at_zero`). -/
theorem twiddleFactorFollowsTheDirection : Obligations.TwiddleFactorFollowsTheDirection := by
  refine ⟨fun r log2 cfg stage i => ?_, fun x => ⟨neg1_D x, neg1_S x, neg1_Q x, s64_neg1_Q⟩,
    fun log2 stage cfg h1 h16 => ?_⟩
  · split_ifs with h
    · exact twiddle_of_fwd r log2 stage i h
    · exact twiddle_of_inverse r log2 stage i (Bool.eq_false_of_not_eq_true h)
  · obtain ⟨fwdD, invD⟩ := twiddle_at_zero h1 h16 .D cfg stage
    obtain ⟨fwdS, invS⟩ := twiddle_at_zero h1 h16 .S cfg stage
    obtain ⟨fwdQ, invQ⟩ := twiddle_at_zero h1 h16 .Q cfg stage
    refine ⟨fun h => ⟨?_, ?_⟩, fun h => ⟨invD h, invS h⟩, ?_⟩
    · rw [fwdD h, neg1_D]
      rfl
    · rw [fwdS h, neg1_S]
      rfl
    · cases h : cfg.fwd
      · exact invQ h
      · rw [fwdQ h, neg1_Q]
        rfl

end Sys2Proof.Machine
end

section
/-! PROOFS. Butterfly (spec/43_butterfly.md): one butterfly replaces its pair of slots (R186), and two of them
on disjoint pairs do not meet (R194). -/

namespace Sys2Proof.Machine

/-! ### Results fit their slots -/

/-- A sample that the representation keeps whole when the engine writes it: in S its upper halves are 0. -/
def Fits (r : Representation) (v : Sample) : Prop :=
  ({ re := componentIn r v.re, im := componentIn r v.im } : Sample) = v

theorem Fits.of_components {r : Representation} {a b : Word64} (ha : componentIn r a = a)
    (hb : componentIn r b = b) : Fits r { re := a, im := b } := by
  rw [Fits, ha, hb]

/-- A pattern of format S fits a word's low half. -/
theorem componentIn_S_of_lt {n : Nat} (h : n < 2 ^ 32) :
    componentIn .S (BitVec.ofNat 64 n) = BitVec.ofNat 64 n := by
  rw [componentIn, low32, BitVec.toNat_ofNat, Nat.mod_eq_of_lt (h.trans (by norm_num)), Nat.mod_eq_of_lt h]

theorem addR_fits (r : Representation) (p q : Sample) : Fits r (addR r p q).1 := by
  have h (x y : Word64) : componentIn r (add1 r x y).1 = (add1 r x y).1 := by
    cases r with
    | D => rfl
    | S => exact componentIn_S_of_lt (float_ops_lt binary32_ok _ _).1
    | Q => rfl
  exact .of_components (h _ _) (h _ _)

theorem cmulR_fits (shift : Nat) (r : Representation) (t w : Sample) : Fits r (cmulR shift r t w).1 := by
  cases r with
  | D => rfl
  | S =>
    exact .of_components (componentIn_S_of_lt (float_ops_lt binary32_ok _ _).2.1)
      (componentIn_S_of_lt (float_ops_lt binary32_ok _ _).1)
  | Q => rfl

theorem sread_fits (r : Representation) (s : State) (j : Nat) : Fits r (sread r s j) :=
  .of_components (componentIn_idem r _) (componentIn_idem r _)

/-- The engine's write of a sample that fits leaves its words. -/
theorem swrite_mem_of_fits {r : Representation} {v : Sample} (h : Fits r v) (j : Nat) (s : State) :
    (swrite r j v s).mem = writeSlot s.mem j v := by
  rw [swrite_mem, h]

theorem sread_eq_of_fits {r : Representation} {v : Sample} {s : State} {j : Nat} (h : Fits r v)
    (hs : readSlot s.mem j = v) : sread r s j = v := by
  rw [sread, hs, h]

/-! ### One butterfly -/

/-- The sum of a butterfly (R186). -/
def pairSum (r : Representation) (p q : Sample) : Sample := (addR r p q).1

/-- Its product of the difference with the twiddle factor. -/
def pairProduct (shift : Nat) (r : Representation) (p q w : Sample) : Sample :=
  (cmulR shift r (subR r p q).1 w).1

theorem pairSum_fits (r : Representation) (p q : Sample) : Fits r (pairSum r p q) := addR_fits r p q

theorem pairProduct_fits (shift : Nat) (r : Representation) (p q w : Sample) :
    Fits r (pairProduct shift r p q w) := cmulR_fits shift r _ w

/-- Whether one of its three operations wraps. -/
def pairWraps (shift : Nat) (r : Representation) (p q w : Sample) : Bool :=
  (subR r p q).2 || (addR r p q).2 || (cmulR shift r (subR r p q).1 w).2

section
variable (r : Representation) (x y : Nat) (w : Sample) (s : State)

/-- A butterfly is two writes and a flag. -/
theorem butterfly_eq :
    butterfly r x y w s =
      setOvf (pairWraps s.params.renormShift r (sread r s x) (sread r s y) w)
        (swrite r y (pairProduct s.params.renormShift r (sread r s x) (sread r s y) w)
          (swrite r x (pairSum r (sread r s x) (sread r s y)) s)) := rfl

theorem butterfly_mem :
    (butterfly r x y w s).mem =
      writeSlot (writeSlot s.mem x (pairSum r (sread r s x) (sread r s y))) y
        (pairProduct s.params.renormShift r (sread r s x) (sread r s y) w) := by
  rw [butterfly_eq, setOvf_mem, swrite_mem_of_fits (pairProduct_fits ..),
    swrite_mem_of_fits (pairSum_fits ..)]

theorem butterfly_ovf :
    (butterfly r x y w s).ovf =
      (s.ovf || pairWraps s.params.renormShift r (sread r s x) (sread r s y) w) := by
  rw [butterfly_eq, setOvf_ovf, swrite_ovf, swrite_ovf]

@[simp] theorem butterfly_params : (butterfly r x y w s).params = s.params := by
  rw [butterfly_eq, setOvf_params, swrite_params, swrite_params]

theorem butterfly_frame : { butterfly r x y w s with mem := s.mem, ovf := s.ovf } = s := by
  rw [butterfly_eq]
  unfold swrite
  rfl

theorem readSlot_butterfly_product :
    readSlot (butterfly r x y w s).mem y =
      pairProduct s.params.renormShift r (sread r s x) (sread r s y) w := by
  rw [butterfly_mem, readSlot_writeSlot_same]

theorem readSlot_butterfly_sum {x y : Nat} (h : x ≠ y) :
    readSlot (butterfly r x y w s).mem x = pairSum r (sread r s x) (sread r s y) := by
  rw [butterfly_mem, readSlot_writeSlot_other _ _ h, readSlot_writeSlot_same]

theorem readSlot_butterfly_other {x y j : Nat} (hx : j ≠ x) (hy : j ≠ y) :
    readSlot (butterfly r x y w s).mem j = readSlot s.mem j := by
  rw [butterfly_mem, readSlot_writeSlot_other _ _ hy, readSlot_writeSlot_other _ _ hx]

theorem sread_butterfly_other {x y j : Nat} (hx : j ≠ x) (hy : j ≠ y) :
    sread r (butterfly r x y w s) j = sread r s j :=
  sread_congr r (readSlot_butterfly_other r w s hx hy)

end

/-- In a stage the two slots of a butterfly lie a power of two apart (R184). -/
theorem halfPart_pos {cfg : Latched} {stage : Nat} (hn : cfg.n = 2 ^ cfg.l) (hs : stage < cfg.l) :
    0 < halfPart cfg stage := by
  rw [halfPart_eq hn hs]
  positivity

/-- Settles O30: the two writes of `butterfly_eq` put results that fit into different slots. -/
theorem butterflyReplacesItsPair : Obligations.ButterflyReplacesItsPair := by
  refine ⟨fun cfg stage part i hn hs => ?_, fun r x y w s hxy => ⟨?_, ?_, ?_, ?_, ?_⟩⟩
  · have := halfPart_pos hn hs
    omega
  · exact sread_eq_of_fits (pairSum_fits ..) (readSlot_butterfly_sum r w s hxy)
  · exact sread_eq_of_fits (pairProduct_fits ..) (readSlot_butterfly_product r x y w s)
  · exact fun j hx hy => readSlot_butterfly_other r w s hx hy
  · exact butterfly_ovf r x y w s
  · exact butterfly_frame r x y w s

/-! ### Two butterflies -/

/-- What a byte reads as after a write of a slot depends on what it read as before. -/
theorem readByte_writeSlot_congr {m m' : Ram Byte} {a : Nat} (h : readByte m a = readByte m' a) (j : Nat)
    (v : Sample) : readByte (writeSlot m j v) a = readByte (writeSlot m' j v) a := by
  simp only [writeSlot, readByte_writeLE, h]

/-- Writes of two slots commute, for a byte lies outside one of them (20_memory.md R57). -/
theorem readByte_writeSlot_comm (m : Ram Byte) {j k : Nat} (v u : Sample) (a : Nat) (h : j ≠ k) :
    readByte (writeSlot (writeSlot m j v) k u) a = readByte (writeSlot (writeSlot m k u) j v) a := by
  by_cases hk : a < slotAddr k ∨ slotAddr k + 16 ≤ a
  · rw [readByte_writeSlot_other _ u hk]
    exact readByte_writeSlot_congr (readByte_writeSlot_other m u hk).symm j v
  · have hj : a < slotAddr j ∨ slotAddr j + 16 ≤ a := by simp only [slotAddr] at *; omega
    rw [readByte_writeSlot_other _ v hj]
    exact readByte_writeSlot_congr (readByte_writeSlot_other m v hj) k u

/-- A write of a third slot commutes with those of a pair. -/
theorem readByte_writeSlot_pair_comm (m : Ram Byte) {x y k : Nat} (u v z : Sample) (a : Nat) (hx : x ≠ k)
    (hy : y ≠ k) :
    readByte (writeSlot (writeSlot (writeSlot m x u) y v) k z) a =
      readByte (writeSlot (writeSlot (writeSlot m k z) x u) y v) a :=
  (readByte_writeSlot_comm _ v z a hy).trans
    (readByte_writeSlot_congr (readByte_writeSlot_comm m u z a hx) y v)

/-- Settles O31: neither butterfly writes what the other reads (`sread_butterfly_other`), so both orders make
the same four writes. -/
theorem disjointButterfliesCommute : Obligations.DisjointButterfliesCommute := by
  intro r x y x' y' w w' s _ _ hxx hxy hyx hyy
  constructor
  · intro a
    rw [butterfly_mem, butterfly_mem, butterfly_mem r x y, butterfly_mem r x' y', butterfly_params,
      butterfly_params, sread_butterfly_other r w s hxx.symm hyx.symm,
      sread_butterfly_other r w s hxy.symm hyy.symm, sread_butterfly_other r w' s hxx hxy,
      sread_butterfly_other r w' s hyx hyy]
    exact (readByte_writeSlot_congr (readByte_writeSlot_pair_comm s.mem _ _ _ a hxx hyx) y' _).trans
      (readByte_writeSlot_pair_comm _ _ _ _ a hxy hyy)
  · rw [butterfly_ovf, butterfly_ovf, butterfly_ovf r x y, butterfly_ovf r x' y', butterfly_params,
      butterfly_params, sread_butterfly_other r w s hxx.symm hyx.symm,
      sread_butterfly_other r w s hxy.symm hyy.symm, sread_butterfly_other r w' s hxx hxy,
      sread_butterfly_other r w' s hyx hyy, Bool.or_right_comm]

end Sys2Proof.Machine
end

section
/-! PROOFS. Butterfly (spec/43_butterfly.md): the schedule of the stages (R184, R185) and that the butterflies
of one stage share no slot (R194). -/

namespace Sys2Proof.Machine

/-- A quotient and a remainder are those of one number alone. -/
theorem quotient_remainder_unique {d a b a' b' : Nat} (hb : b < d) (hb' : b' < d)
    (h : d * a + b = d * a' + b') : a = a' ∧ b = b' := by
  have hd : 0 < d := by omega
  obtain ⟨hq, hr⟩ := (Nat.div_mod_unique hd).mpr ⟨Nat.add_comm b (d * a), hb⟩
  obtain ⟨hq', hr'⟩ := (Nat.div_mod_unique hd).mpr ⟨(Nat.add_comm b' (d * a')).trans h.symm, hb'⟩
  exact ⟨hq.symm.trans hq', hr.symm.trans hr'⟩

/-- Two butterflies of a stage share no slot (R194): a slot's part and its offset in the part are a quotient
and a remainder, and the offset of an `x` lies in the lower half, that of a `y` in the upper. -/
theorem pairs_disjoint {d h part i part' i' : Nat} (hd : d = 2 * h) (hi : i < h) (hi' : i' < h)
    (hne : (part', i') ≠ (part, i)) :
    d * part + i ≠ d * part' + i' ∧ d * part + i ≠ d * part' + i' + h ∧
      d * part + i + h ≠ d * part' + i' ∧ d * part + i + h ≠ d * part' + i' + h := by
  have hxx : d * part + i ≠ d * part' + i' := fun e => by
    obtain ⟨rfl, rfl⟩ := quotient_remainder_unique (by omega) (by omega) e
    exact hne rfl
  refine ⟨hxx, fun e => ?_, fun e => ?_, fun e => hxx (Nat.add_right_cancel e)⟩
  · have hoff := (quotient_remainder_unique (b' := i' + h) (by omega) (by omega) (Nat.add_assoc .. ▸ e)).2
    omega
  · have hoff := (quotient_remainder_unique (b := i + h) (by omega) (by omega) (Nat.add_assoc .. ▸ e)).2
    omega

section
variable {cfg : Latched} {stage : Nat} (hn : cfg.n = 2 ^ cfg.l) (hs : stage < cfg.l)
include hn hs

/-- The butterfly of a stage, a part and an offset, with its distances as powers of two (R184, R185). -/
theorem stageButterfly_eq (r : Representation) (part i : Nat) (s : State) :
    stageButterfly r cfg stage part i s =
      butterfly r (2 ^ (cfg.l - stage) * part + i) (2 ^ (cfg.l - stage) * part + i + 2 ^ (cfg.l - 1 - stage))
        (twiddle r s.params.log2Nmax cfg stage i) s := by
  rw [stageButterfly, partSize_eq hn hs.le, halfPart_eq hn hs]

end

/-- The stages run these butterflies, stage by stage, part by part, offset by offset (R185). -/
theorem stages_eq (r : Representation) {cfg : Latched} (hn : cfg.n = 2 ^ cfg.l) (s : State) :
    stages r cfg s =
      forRange cfg.l
        (fun stage => forRange (2 ^ stage)
          (fun part => forRange (2 ^ (cfg.l - 1 - stage))
            (fun i t =>
              butterfly r (2 ^ (cfg.l - stage) * part + i)
                (2 ^ (cfg.l - stage) * part + i + 2 ^ (cfg.l - 1 - stage))
                (twiddle r t.params.log2Nmax cfg stage i) t))) s :=
  forRange_congr (fun stage hs t => forRange_congr (fun part _ t => by
    rw [halfPart_eq hn hs]
    exact forRange_congr (fun i _ t => stageButterfly_eq hn hs r part i t) t) t) s

/-- Settles O60: the sizes are powers of two (`partSize_eq`, `halfPart_eq`), the pairs stay below N
(`butterfly_in_range`) and apart (`pairs_disjoint`), and the loops are those of `stages_eq`. -/
theorem stagesFollowTheSchedule : Obligations.StagesFollowTheSchedule := by
  intro r cfg s hn
  refine ⟨fun stage hs => ?_, stages_eq r hn s⟩
  have hpart := partSize_eq hn hs.le
  have hhalf := halfPart_eq hn hs
  have htwo := partSize_eq_two_mul hn hs
  rw [hpart, hhalf] at htwo
  refine ⟨hpart, hhalf, fun part hp i hi => ⟨?_, ?_, stageButterfly_eq hn hs r part i s,
    fun part' _ i' hi' hne => pairs_disjoint htwo hi hi' hne⟩⟩
  · exact Nat.lt_add_of_pos_right (by positivity)
  · have h := butterfly_in_range hn hs hp (hhalf ▸ hi)
    rwa [hpart, hhalf] at h

end Sys2Proof.Machine
end

section
/-! PROOFS. Butterfly (spec/43_butterfly.md): the permutation moves patterns (R190), and the inverse alone is
scaled (R191, R192). Both are loops that write the slots 0 to N-1 once each, in order. -/

namespace Sys2Proof.Machine

/-- `t` is `s` with the samples `g` in the slots below `k`. -/
structure Filled (g : Nat → Sample) (s : State) (k : Nat) (t : State) : Prop where
  frame : { t with mem := s.mem } = s
  done  : ∀ i < k, readSlot t.mem i = g i
  rest  : ∀ j, k ≤ j → readSlot t.mem j = readSlot s.mem j

theorem Filled.start (g : Nat → Sample) (s : State) : Filled g s 0 s :=
  ⟨rfl, fun _ h => absurd h (Nat.not_lt_zero _), fun _ _ => rfl⟩

/-- The next slot is filled by the engine's write of a sample that fits. -/
theorem Filled.step {g : Nat → Sample} {s t : State} {k : Nat} (h : Filled g s k t) {r : Representation}
    (hg : Fits r (g k)) : Filled g s (k + 1) (swrite r k (g k) t) where
  frame := by
    rw [swrite]
    exact h.frame
  done i hi := by
    rw [swrite_mem_of_fits hg]
    rcases Nat.lt_succ_iff_lt_or_eq.mp hi with hi | rfl
    · rw [readSlot_writeSlot_other _ _ hi.ne, h.done i hi]
    · rw [readSlot_writeSlot_same]
  rest j hj := (readSlot_swrite_other r (g k) t (by omega)).trans (h.rest j (by omega))

/-- A loop whose pass `i` writes `g i` to slot `i`, as long as the earlier passes did. -/
theorem Filled.forRange {g : Nat → Sample} {s : State} {r : Representation} {f : Nat → State → State} {n : Nat}
    (hg : ∀ i, Fits r (g i)) (hf : ∀ i < n, ∀ t, Filled g s i t → f i t = swrite r i (g i) t) :
    Filled g s n (forRange n f s) :=
  forRange_induct (.start g s) fun i hi t h => hf i hi t h ▸ h.step (hg i)

/-! ### The permutation -/

/-- `t` is `s` with the entries below `k` of SCR gathered (R190). -/
structure Gathered (r : Representation) (s : State) (k : Nat) (t : State) : Prop where
  frame : { t with scr := s.scr } = s
  done  : ∀ i < k, readScr t i = sread r s (readRev s i)

theorem Gathered.step {r : Representation} {s t : State} {k : Nat} (h : Gathered r s k t) :
    Gathered r s (k + 1) (gatherSlot r k t) where
  frame := h.frame
  done i hi := by
    have hrev : readRev t k = readRev s k :=
      readRev_eq_of (congrArg State.params h.frame :) (congrArg State.rev h.frame :) k
    have hread : sread r t (readRev s k) = sread r s (readRev s k) :=
      sread_congr r (congrArg (fun u : State => readSlot u.mem (readRev s k)) h.frame :)
    rw [gatherSlot, readScr_writeScr, hrev, hread]
    split_ifs with hik
    · rw [hik]
    · exact h.done i (by omega)

theorem gathered_forRange (r : Representation) (s : State) (n : Nat) :
    Gathered r s n (forRange n (gatherSlot r) s) :=
  forRange_induct (P := Gathered r s) ⟨rfl, fun _ h => absurd h (Nat.not_lt_zero _)⟩ fun _ _ _ h => h.step

/-- The second loop moves SCR to the slots. -/
theorem filled_scatter {r : Representation} {s u : State} {n : Nat} (hu : Gathered r s n u) :
    Filled (fun i => sread r s (readRev s i)) u n (forRange n (scatterSlot r) u) :=
  .forRange (fun _ => sread_fits ..) fun i hi t h => by
    have hscr : readScr t i = readScr u i := by rw [readScr, readScr, (congrArg State.scr h.frame :)]
    rw [scatterSlot, hscr, hu.done i hi]

/-- Settles O33: the first loop leaves in SCR what the second moves to the slots (`filled_scatter`). -/
theorem permutationMovesPatterns : Obligations.PermutationMovesPatterns := by
  intro r cfg s
  have hu := gathered_forRange r s cfg.n
  have ht := filled_scatter hu
  have hmem := (congrArg State.mem hu.frame :)
  exact ⟨ht.done, fun j hj => hmem ▸ ht.rest j hj,
    (congrArg (fun v : State => { v with mem := s.mem, scr := s.scr }) ht.frame :).trans (hmem ▸ hu.frame)⟩

/-! ### The scaling -/

theorem divNR_fits (r : Representation) (v : Sample) (n : Nat) : Fits r (divNR r v n) := by
  cases r with
  | D => rfl
  | S =>
    have h (x : Nat) := (float_ops_lt binary32_ok x (ofNatBits binary32 n)).2.2.2
    exact .of_components (componentIn_S_of_lt (h _)) (componentIn_S_of_lt (h _))
  | Q => rfl

theorem scale_of_fwd (r : Representation) {cfg : Latched} (s : State) (h : cfg.fwd = true) :
    scale r cfg s = s := if_pos h

theorem scale_of_inverse (r : Representation) {cfg : Latched} (s : State) (h : cfg.fwd = false) :
    scale r cfg s = forRange cfg.n (scaleSlot r cfg) s := if_neg (by rw [h]; exact Bool.false_ne_true)

/-- The inverse fills the slots below N with their samples divided by N (R191). -/
theorem filled_scale (r : Representation) (cfg : Latched) (s : State) (n : Nat) :
    Filled (fun i => divNR r (sread r s i) cfg.n) s n (forRange n (scaleSlot r cfg) s) :=
  .forRange (fun _ => divNR_fits ..) fun i _ t h => by
    rw [scaleSlot, sread_congr r (h.rest i le_rfl)]

/-- Settles O34: the forward direction does nothing, the inverse ends with the slots below N divided
(`filled_scale`). -/
theorem onlyTheInverseIsScaled : Obligations.OnlyTheInverseIsScaled := by
  intro r cfg s
  refine ⟨scale_of_fwd r s, fun hinv i hi => ?_, ?_⟩
  · rw [scale_of_inverse r s hinv]
    exact sread_eq_of_fits (divNR_fits ..) ((filled_scale r cfg s cfg.n).done i hi)
  · cases hdir : cfg.fwd
    · rw [scale_of_inverse r s hdir]
      have h := filled_scale r cfg s cfg.n
      exact ⟨h.rest, h.frame⟩
    · rw [scale_of_fwd r s hdir]
      exact ⟨fun _ _ => rfl, rfl⟩

end Sys2Proof.Machine
end

section
/-! PROOFS. Execution (spec/44_execute.md): NOP, the acceptance and the refusals of an EXEC, what its four
steps write, and that its turns add up to them. -/

namespace Sys2Proof.Machine

/-! ### NOP -/

theorem exec_nop (s : State) : exec .nop s = command (report .ok) s := rfl

/-- Settles O20: the decoder takes no other word for NOP (`decodeWord_eq_ok_iff`) and a word with OP = 0 for no
other command, and NOP is `report` of OK. -/
theorem nopClearsErrAndDropOnly : Obligations.NopClearsErrAndDropOnly := by
  refine ⟨fun w hop => ⟨(decodeWord_eq_ok_iff w .nop).mpr, fun hw => ?_⟩, fun s => ⟨fun hq => ?_, fun hb => ?_⟩⟩
  · cases hd : decodeWord w with
    | error e => exact ⟨e, rfl⟩
    | ok i =>
      obtain rfl := (decodeWord_eq_ok_iff w i).mp hd
      cases i with
      | nop => exact absurd rfl hw
      | _ => exact absurd hop (by decide)
  · exact (exec_nop s).trans (command_idle _ hq)
  · obtain ⟨job, hq⟩ := (busy_eq_true_iff s).mp hb
    exact (exec_nop s).trans (command_busy _ hq)

/-! ### Acceptance and refusals -/

section
variable {s : State} (r : Representation) (hq : s.seq = none)
include hq

/-- An EXEC whose checks hold starts its run at the window pass (R222). -/
theorem exec_execOf_of_ready (h : execReady s) :
    exec (execOf r) s =
      .next { s with drop := false, err := .ok, ovf := false,
                     seq := some (.exec r (latch s) (.window 0) false) } := by
  have hc : execCheck { s with drop := false } = none := (execCheck_eq_none_iff _).mpr h
  rw [exec_execOf, command_idle _ hq, execCommand, hc]
  rfl

/-- An EXEC that fails a check reports it (R221). -/
theorem exec_execOf_of_failed {e : ErrCode} (h : execCheck s = some e) :
    exec (execOf r) s = .next { s with drop := false, err := e } := by
  have hc : execCheck { s with drop := false } = some e := h
  rw [exec_execOf, command_idle _ hq, execCommand, hc]
  rfl

end

/-- Settles O24: the checks hold (`exec_execOf_of_ready`). -/
theorem execIsAccepted : Obligations.ExecIsAccepted := fun _ r hq h => exec_execOf_of_ready r hq h

/-- Settles O25: each clause names the first check that fails. -/
theorem execIsRefusedByItsFirstFailedCheck : Obligations.ExecIsRefusedByItsFirstFailedCheck := by
  refine fun s r hq => ⟨fun hc => exec_execOf_of_failed r hq ?_, fun hc ha => exec_execOf_of_failed r hq ?_,
    fun hc ha hw => exec_execOf_of_failed r hq ?_⟩
  · rw [execCheck, if_pos hc]
  · rw [execCheck, if_neg (by simp [hc]), if_pos ha]
  · rw [execCheck, if_neg (by simp [hc]), if_neg (not_not.mpr ha), if_pos hw]

/-! ### What the four steps write -/

/-- The four steps change no more than one turn of them may: OVF in Q alone (40_numerics.md R116). -/
theorem within_execBody (r : Representation) (cfg : Latched) (s : State) : Within r s (execBody r cfg s) := by
  have hwindow (t : State) : Within r t (windowPass r cfg t) := by
    unfold windowPass
    split_ifs
    · exact .refl r t
    · exact within_forRange t fun i u => within_weightSlot r cfg i u
  have hstages (t : State) : Within r t (stages r cfg t) :=
    within_forRange t fun stage u => within_forRange u fun part v =>
      within_forRange v fun i w => within_stageButterfly r cfg stage part i w
  have hpermute (t : State) : Within r t (permute r cfg t) :=
    (within_forRange t fun i u => within_gatherSlot r i u).trans
      (within_forRange _ fun i u => within_scatterSlot r i u)
  have hscale (t : State) : Within r t (scale r cfg t) := by
    unfold scale
    split_ifs
    · exact .refl r t
    · exact within_forRange t fun i u => within_scaleSlot r cfg i u
  exact (((hwindow s).trans (hstages _)).trans (hpermute _)).trans (hscale _)

/-- Settles O28: READY has N = 2^L, so the steps touch the slots below N alone (`touches_execBody`), and OVF
in Q alone (`within_execBody`). -/
theorem execStaysInsideItsSlots : Obligations.ExecStaysInsideItsSlots := by
  intro s r h hc _
  obtain ⟨-, -, hn⟩ := h.config hc
  have ht : Touches s.n s (execBody r (latch s) s) := touches_execBody (cfg := latch s) r s hn
  exact ⟨ht.bytes, ht.frame, (within_execBody r (latch s) s).keep⟩

/-! ### The run -/

/-- An EXEC at its first step, left alone by the host, runs its four steps one after the other and goes idle
(R223, R227). -/
theorem reaches_execBody (r : Representation) (cfg : Latched) {s : State} (h : Alone s) :
    Reaches (goto r cfg false (.window 0) s) { execBody r cfg s with seq := none } := by
  obtain ⟨hwindow, h1⟩ := reaches_window r cfg h
  obtain ⟨hstages, h2⟩ := reaches_stages r cfg h1
  obtain ⟨hpermute, h3⟩ := reaches_permute r cfg h2
  exact ((hwindow.trans hstages).trans hpermute).trans (reaches_scale r cfg h3)

/-- Settles O27: the accepted EXEC (`exec_execOf_of_ready`) is at its first step, and its turns add up to the
four steps (`reaches_execBody`). -/
theorem execRunsItsFourSteps : Obligations.ExecRunsItsFourSteps := by
  intro s r hq hp hh hready
  obtain ⟨k, hrun⟩ := reaches_execBody r (latch s)
    (s := { s with drop := false, err := .ok, ovf := false, seq := some (.exec r (latch s) (.window 0) false) })
    ⟨hh, hp⟩
  exact ⟨_, k, _, exec_execOf_of_ready r hq hready, rfl, hrun, rfl⟩

end Sys2Proof.Machine
end

section
/-! PROOFS. Errors and the idle block (spec/60_exceptions.md): a command write while BUSY = 1 is dropped, ERR
and DROP are written by command writes and the release of reset alone, and an idle block keeps its state. -/

namespace Sys2Proof.Machine

/-! ### Command writes while a long command runs -/

section
variable {s : State} {job : Job} (hq : s.seq = some job)
include hq

/-- Every command begins with the BUSY check (70_reset_and_hazards.md R291). -/
theorem exec_busy (i : Instr) : exec i s = .next { s with drop := true } := by
  obtain ⟨body, hbody⟩ := exec_eq_command i
  rw [hbody, command_busy body hq]

/-- A legal word is a command, and an illegal one is reported through the same check (R87). -/
theorem issueCommand_busy (w : Word32) : issueCommand w s = .next { s with drop := true } := by
  cases hd : decodeWord w with
  | ok i => rw [issueCommand_of_ok hd, exec_busy hq]
  | error e => rw [issueCommand_of_error hd, illegalCommand, command_busy _ hq]

end

/-- Settles O26: the BUSY check comes first in every command write, and the write to CMD is answered before it
(`memWrite_cmd`). -/
theorem commandsAreDroppedWhileBusy : Obligations.CommandsAreDroppedWhileBusy := fun s _ hq =>
  ⟨exec_busy hq, issueCommand_busy hq, fun v =>
    (memWrite_cmd v s).trans (issueCommand_busy (s := respond 0#64 s) hq _)⟩

/-! ### ERR and DROP -/

/-- Every command that is not dropped clears DROP (70_reset_and_hazards.md R291). -/
theorem CommandEffect.drop {i : Instr} {s t : State} (h : CommandEffect i s t) : t.drop = false := by
  rcases h with ⟨e, -, rfl⟩ | ⟨-, -, rfl⟩ | ⟨fwd, -, -, rfl⟩ | ⟨r, -, -, rfl⟩ <;> rfl

/-- A command write sets DROP and keeps ERR while BUSY = 1, and clears DROP with the engine idle. -/
theorem issueCommand_err_drop {w : Word32} {s t : State} (h : issueCommand w s = .next t) :
    (s.busy = true ∧ t.err = s.err ∧ t.drop = true) ∨ (s.seq = none ∧ t.drop = false) := by
  rcases issueCommand_effect h with ⟨hb, rfl⟩ | ⟨hq, rfl⟩ | ⟨hq, i, -, hc⟩
  · exact .inl ⟨hb, rfl, rfl⟩
  · exact .inr ⟨hq, rfl⟩
  · exact .inr ⟨hq, hc.drop⟩

/-- The host's turn keeps ERR and DROP, unless it is a command write. -/
theorem HostEffect.err_drop {op : HostOp} {s t : State} (h : HostEffect op s t) :
    (t.err = s.err ∧ t.drop = s.drop) ∨
      ∃ v, op = .write (s.params.address offCmd) 4 v ∧
        issueCommand (v.setWidth 32) (respond 0#64 s) = .next t := by
  cases h with
  | outside eq => subst eq; exact .inl ⟨rfl, rfl⟩
  | observe r fs d eq => subst eq; exact .inl ⟨rfl, rfl⟩
  | pin b eq _ => subst eq; exact .inl ⟨rfl, rfl⟩
  | arg v _ eq => subst eq; exact .inl ⟨rfl, rfl⟩
  | sample addr n v _ _ _ _ eq =>
    obtain ⟨q, f, e⟩ := sampleWrite_frame addr n v ((addr.toNat - sampleBase) / 16) s
    rw [e] at eq
    subst eq
    exact .inl ⟨rfl, rfl⟩
  | command v op_eq eq => exact .inr ⟨v, op_eq, eq⟩

/-- The engine reports nothing, at no turn and at no completion (60_exceptions.md R251). -/
theorem engineTurn_err_drop (job : Job) (s : State) :
    (engineTurn job s).err = s.err ∧ (engineTurn job s).drop = s.drop :=
  have e := engineTurn_frame job s
  ⟨(congrArg State.err e :), (congrArg State.drop e :)⟩

/-- Settles O53: of the parts of a step a command write and the release of reset alone write ERR and DROP. -/
theorem errAndDropAreWrittenByCommandWrites : Obligations.ErrAndDropAreWrittenByCommandWrites := by
  intro s t hs
  cases step_inv hs with
  | idle eq _ => subst eq; exact ⟨.inl rfl, .inl rfl⟩
  | held op ops _ _ eq => subst eq; exact ⟨.inl rfl, .inl rfl⟩
  | release ops hp hh eq =>
    have hrel : releasing s := ⟨hp, ops, hh⟩
    subst eq
    exact ⟨.inr (.inr hrel), .inr (.inr ⟨rfl, .inr hrel⟩)⟩
  | engine job d _ _ eq _ =>
    subst eq
    obtain ⟨herr, hdrop⟩ := engineTurn_err_drop job { s with draws := d }
    exact ⟨.inl herr, .inl hdrop⟩
  | host op ops d hp hh eff _ =>
    rcases eff.err_drop with ⟨herr, hdrop⟩ | ⟨v, rfl, hi⟩
    · exact ⟨.inl herr, .inl hdrop⟩
    · have hw : ∃ v, writing s offCmd v := ⟨v, hp, ops, hh⟩
      rcases issueCommand_err_drop hi with ⟨hb, herr, hdrop⟩ | ⟨hq, hdrop⟩
      · exact ⟨.inl herr, .inr (.inl ⟨hdrop, hb, hw⟩)⟩
      · exact ⟨.inr (.inl ⟨hq, hw⟩), .inr (.inr ⟨hdrop, .inl ⟨hq, hw⟩⟩)⟩

/-! ### The idle block -/

/-- Settles O10: with nothing for the host to do, neither the reset input nor an idle engine moves. -/
theorem idleStepChangesNothing : Obligations.IdleStepChangesNothing := by
  intro s hq hh
  cases hp : s.resetPin with
  | true => simp only [step, turn, if_pos hp, resetTurn, hh]
  | false => simp only [step, turn, hp, Bool.false_eq_true, if_false, hq, hh]

end Sys2Proof.Machine
end

section
/-! PROOFS. Reset and hazards (spec/70_reset_and_hazards.md): who moves while a long command is in flight, and
that it completes. The bounds `execMeasure` and `buildMeasure` fall at every turn of the engine, and the host's
list is shorter after every entry it gives up. -/

namespace Sys2Proof.Machine

/-! ### Steps with a long command in flight -/

/-- With reset released and a long command in flight the engine moves, or the host's next entry is taken (R290). -/
theorem step_busy_cases {s : State} {job : Job} (hp : s.resetPin = false) (hq : s.seq = some job) :
    (∃ d, s.draws ≤ d ∧ step s = .next (engineTurn job { s with draws := d })) ∨
    ∃ op ops, s.host = op :: ops ∧ step s = hostOp op { s with host := ops, draws := s.draws + 1 } := by
  by_cases hnil : s.host = []
  · exact .inl ⟨s.draws, le_rfl, step_alone ⟨hnil, hp⟩ hq⟩
  · obtain ⟨op, ops, hh⟩ := List.exists_cons_of_ne_nil hnil
    by_cases hop : op = .poll
    · exact .inl ⟨s.draws, le_rfl, step_busy_poll hp hq (hop ▸ hh)⟩
    · have hs := step_busy_host hp hq hh hop
      split_ifs at hs
      · exact .inr ⟨op, ops, hh, hs⟩
      · exact .inl ⟨s.draws + 1, Nat.le_succ _, hs⟩

/-! ### The host's turn while a long command is in flight -/

/-- A bound on the turns a long command has still to make. -/
def jobMeasure : Job → Nat
  | .init size _ loop => buildMeasure (Nat.log2 size) loop
  | .exec _ cfg ph _ => execMeasure cfg ph

/-- A write to the sample window leaves the long command where it stands, whether or not it marks it. -/
theorem sampleWrite_job {s : State} {job : Job} (hq : s.seq = some job) (addr : Offset) (n : Nat) (v : Word64)
    (slot : Nat) : ∃ job', (sampleWrite addr n v slot s).seq = some job' ∧ jobMeasure job' = jobMeasure job := by
  unfold sampleWrite
  dsimp only
  split_ifs
  · rcases markHazard_inv s with ⟨r, cfg, ph, hz, he, e⟩ | e <;> rw [e]
    · obtain rfl := Option.some.inj (hq.symm.trans he)
      exact ⟨_, rfl, rfl⟩
    · exact ⟨job, hq, rfl⟩
  · exact ⟨job, hq, rfl⟩

/-- No entry of the host's list ends a long command in flight or sets it back (R291 to R295). -/
theorem HostEffect.job {op : HostOp} {s t : State} (h : HostEffect op s t) {job : Job} (hq : s.seq = some job) :
    ∃ job', t.seq = some job' ∧ jobMeasure job' = jobMeasure job := by
  cases h with
  | outside eq => subst eq; exact ⟨job, hq, rfl⟩
  | observe r fs d eq => subst eq; exact ⟨job, hq, rfl⟩
  | pin b eq _ => subst eq; exact ⟨job, hq, rfl⟩
  | arg v _ eq => subst eq; exact ⟨job, hq, rfl⟩
  | sample addr n v _ _ _ _ eq => subst eq; exact sampleWrite_job hq addr n v _
  | command v _ eq =>
    rw [issueCommand_busy (s := respond 0#64 s) hq, Host.Outcome.next.injEq] at eq
    subst eq
    exact ⟨job, hq, rfl⟩

/-- The host's turn adds nothing to its list. -/
theorem HostEffect.host {op : HostOp} {s t : State} (h : HostEffect op s t) : t.host = s.host := by
  cases h with
  | outside eq => subst eq; rfl
  | observe r fs d eq => subst eq; rfl
  | pin b eq _ => subst eq; rfl
  | arg v _ eq => subst eq; rfl
  | command v _ eq => exact (congrArg State.host (issueCommand_frame eq) :)
  | sample addr n v _ _ _ _ eq =>
    obtain ⟨q, f, e⟩ := sampleWrite_frame addr n v ((addr.toNat - sampleBase) / 16) s
    subst eq
    rw [e]
    rfl

/-- The assertion of reset alone changes the reset input while it is released (R280). -/
theorem HostEffect.resetPin {op : HostOp} {s t : State} (h : HostEffect op s t) (hop : op ≠ .assertReset) :
    t.resetPin = s.resetPin := by
  cases h with
  | outside eq => subst eq; rfl
  | observe r fs d eq => subst eq; rfl
  | arg v _ eq => subst eq; rfl
  | command v _ eq => exact (congrArg State.resetPin (issueCommand_frame eq) :)
  | pin b eq op_eq =>
    subst eq
    rcases op_eq with ⟨ha, -⟩ | ⟨-, hb⟩
    · exact absurd ha hop
    · exact hb
  | sample addr n v _ _ _ _ eq =>
    obtain ⟨q, f, e⟩ := sampleWrite_frame addr n v ((addr.toNat - sampleBase) / 16) s
    subst eq
    rw [e]
    rfl

/-! ### The engine's turn -/

/-- A turn of the engine completes the long command or brings it nearer its end. -/
theorem engineTurn_progress {s : State} (h : s.Inv) {job : Job} (hq : s.seq = some job) :
    (engineTurn job s).busy = false ∨
    ∃ job', (engineTurn job s).seq = some job' ∧ jobMeasure job' < jobMeasure job := by
  cases job with
  | init size fwd loop =>
    have hj : validSize s.params size = true ∧ buildInv size s.rev loop := by simpa [jobInv, hq] using h.job
    obtain ⟨hv, hb⟩ := hj
    obtain ⟨l, h1, h2, rfl⟩ := (validSize_iff _ _).mp hv
    have hle : 2 ^ l ≤ s.params.nmax := Nat.pow_le_pow_right (by norm_num) h2
    rw [engineTurn]
    rcases buildInv_turn h1 fwd hle hb with ⟨loop', rev', he, -, hlt, -⟩ | ⟨he, -⟩ <;> rw [he]
    · exact .inr ⟨.init (2 ^ l) fwd loop', rfl, by simpa only [jobMeasure, Nat.log2_two_pow] using hlt⟩
    · exact .inl (busy_finishInit s (2 ^ l) fwd)
  | exec r cfg ph hz =>
    obtain ⟨o, d, e⟩ := engineTurn_exec r cfg ph hz s
    rw [e]
    rcases execTurn_measure r cfg hz ph s with ⟨ph', t, he, hlt⟩ | he <;> rw [he]
    · exact .inr ⟨.exec r cfg ph' hz, rfl, hlt⟩
    · obtain ⟨m, k, e⟩ := finishExec_inv cfg hz s
      rw [e]
      exact .inl rfl

theorem engineTurn_resetPin (job : Job) (s : State) : (engineTurn job s).resetPin = s.resetPin :=
  (congrArg State.resetPin (engineTurn_frame job s) :)

/-! ### Completion -/

@[simp] theorem noReset_cons (op : HostOp) (ops : List HostOp) :
    noReset (op :: ops) = true ↔ (op ≠ .assertReset ∧ op ≠ .releaseReset) ∧ noReset ops = true := by
  simp [noReset]

/-- A long command in flight in a state of the invariant, with no edge of reset ahead. -/
structure InFlight (job : Job) (s : State) : Prop where
  inv  : s.Inv
  seq  : s.seq = some job
  pin  : s.resetPin = false
  host : noReset s.host = true

/-- A step takes a turn off the long command or an entry off the host's list, or completes the command. -/
theorem InFlight.step {s : State} {job : Job} (h : InFlight job s) :
    ∃ t, Machine.step s = .next t ∧ (t.busy = false ∨ ∃ job', InFlight job' t ∧
      t.host.length + jobMeasure job' < s.host.length + jobMeasure job) := by
  rcases step_busy_cases h.pin h.seq with ⟨d, -, hs⟩ | ⟨op, ops, hh, hs⟩
  · refine ⟨_, hs, ?_⟩
    have hinv : ({ s with draws := d } : State).Inv := h.inv.records s.resetPin s.host s.resp s.faults d
    have hhost := engineTurn_host job { s with draws := d }
    refine (engineTurn_progress hinv h.seq).imp id fun ⟨job', hq, hlt⟩ => ⟨job', ?_, ?_⟩
    · exact ⟨stepKeepsTheInvariant s _ h.inv hs, hq, (engineTurn_resetPin job _).trans h.pin,
        (congrArg noReset hhost).trans h.host⟩
    · rw [hhost]
      exact Nat.add_lt_add_left hlt _
  · obtain ⟨t, ht⟩ := hostOp_next op { s with host := ops, draws := s.draws + 1 }
    rw [ht] at hs
    have eff := hostOp_inv ht
    obtain ⟨⟨hop, -⟩, hops⟩ := (noReset_cons op ops).mp (hh ▸ h.host)
    obtain ⟨job', hq, hm⟩ := eff.job h.seq
    have hhost : t.host = ops := eff.host
    refine ⟨t, hs, .inr ⟨job', ⟨stepKeepsTheInvariant s t h.inv hs, hq, (eff.resetPin hop).trans h.pin,
      (congrArg noReset hhost).trans hops⟩, ?_⟩⟩
    rw [hhost, hm, hh, List.length_cons]
    omega

/-- The bound of `InFlight.step` falls until the long command completes. -/
theorem InFlight.completes {s : State} {job : Job} (h : InFlight job s) : ∃ t, Reaches s t ∧ t.busy = false := by
  induction hm : s.host.length + jobMeasure job using Nat.strong_induction_on generalizing s job with
  | _ m ih =>
    obtain ⟨t, hs, hb | ⟨job', ht, hlt⟩⟩ := h.step
    · exact ⟨t, .of_step hs, hb⟩
    · obtain ⟨u, hu, hb⟩ := ih _ (hm ▸ hlt) ht rfl
      exact ⟨u, (Reaches.of_step hs).trans hu, hb⟩

/-- Settles O49: every step lowers a bound on what engine and host have still to do (`InFlight.step`). -/
theorem everyLongCommandCompletes : Obligations.EveryLongCommandCompletes := by
  intro s h hb hp hh
  obtain ⟨job, hq⟩ := (busy_eq_true_iff s).mp hb
  obtain ⟨t, ⟨k, hrun⟩, ht⟩ := InFlight.completes ⟨h, hq, hp, hh⟩
  exact ⟨k, t, hrun, ht⟩

end Sys2Proof.Machine
end

section
/-! PROOFS. Reset and hazards (spec/70_reset_and_hazards.md): what a step does while reset is asserted, at its
release, and at the two edges while it is released. -/

namespace Sys2Proof.Machine

/-! ### While reset is asserted -/

/-- While reset is asserted a step is `resetTurn`, whatever is in flight (R280). -/
theorem step_asserted {s : State} (hp : s.resetPin = true) : step s = resetTurn s := by
  simp only [step, turn, if_pos hp]

section
variable {s : State} (hp : s.resetPin = true)
include hp

theorem step_asserted_nil (hh : s.host = []) : step s = .next s := by
  simp only [step_asserted hp, resetTurn, hh]

theorem step_asserted_release {ops : List HostOp} (hh : s.host = .releaseReset :: ops) :
    step s = .next (releaseReset { s with host := ops }) := by
  simp only [step_asserted hp, resetTurn, hh]

theorem step_asserted_assert {ops : List HostOp} (hh : s.host = .assertReset :: ops) :
    step s = .next { s with host := ops } := by
  simp only [step_asserted hp, resetTurn, hh]

theorem step_asserted_poll {ops : List HostOp} (hh : s.host = .poll :: ops) : step s = .fault .busProtocol := by
  simp only [step_asserted hp, resetTurn, hh]

/-- A read and a write are alike there: neither their size nor their value counts. -/
theorem step_asserted_access {a n : Nat} {v : Word64} {ops : List HostOp}
    (hh : s.host = .read a n :: ops ∨ s.host = .write a n v :: ops) : step s = resetAccess a ops s := by
  rcases hh with hh | hh <;> simp only [step_asserted hp, resetTurn, hh]

end

/-- An access to the block's window is the undefined one (R280, U9). -/
theorem resetAccess_address (off : Offset) (ops : List HostOp) (s : State) :
    resetAccess (s.params.address off) ops s = .fault .busProtocol := by
  simp only [resetAccess, offsetOf_address]

/-- An access elsewhere is none of the block's. Log 10. -/
theorem resetAccess_outside {a : Nat} {s : State}
    (ha : a < s.params.blockBase ∨ s.params.blockBase + 0x200000 ≤ a) (ops : List HostOp) :
    resetAccess a ops s = .next { s with host := ops } := by
  simp only [resetAccess, offsetOf_outside ha]

/-! ### The release -/

/-- After a release of reset an entry of REV is the low LOG2_NMAX bits of a fresh free value (R39, R282). -/
theorem readRev_releaseReset (s : State) (i : Nat) :
    readRev (releaseReset s) i = Config.unwrittenRev (s.rev.draw + 1) i % s.params.nmax := rfl

/-- And an entry of SCR is a fresh free value. -/
theorem readScr_releaseReset (s : State) (i : Nat) :
    readScr (releaseReset s) i =
      { re := (Config.unwrittenScratch (s.scr.draw + 1) i).1
        im := (Config.unwrittenScratch (s.scr.draw + 1) i).2 } := rfl

/-- Settles O8: the step is `releaseReset`, which redraws each RAM and gives the registers their values of the
reset table (10_state.md R39). -/
theorem releaseOfResetGivesTheResetState : Obligations.ReleaseOfResetGivesTheResetState := by
  intro s ops hp hh
  refine ⟨_, step_asserted_release hp hh, rfl, rfl, rfl, rfl, rfl, rfl, rfl, rfl, rfl, rfl, fun a => ?_,
    fun i => ?_, fun i => ?_, rfl, rfl, rfl⟩
  · exact readByte_redraw s.mem a
  · exact readRev_releaseReset { s with host := ops } i
  · exact readScr_releaseReset { s with host := ops } i

/-! ### The two edges -/

/-- With a long command in flight an edge of reset waits until the host moves (R290). Log 2. -/
theorem step_busy_edge {s : State} {job : Job} {op : HostOp} {ops : List HostOp} {t : State}
    (hp : s.resetPin = false) (hq : s.seq = some job) (hh : s.host = op :: ops) (hop : op ≠ .poll)
    (ht : hostOp op { s with host := ops, draws := s.draws + 1 } = .next t) :
    step s = .next (if Config.hostFirst s.draws then t else engineTurn job { s with draws := s.draws + 1 }) := by
  rw [step_busy_host hp hq hh hop, ht, apply_ite Host.Outcome.next]

/-- Settles O9: while reset is asserted a step is `resetTurn`, and while it is released an edge is an entry of the
host's list as any other. -/
theorem assertedResetStopsHostAndEngine : Obligations.AssertedResetStopsHostAndEngine := by
  refine fun s ops => ⟨step_asserted_nil, fun off n v hp hh => ?_, fun a n v hp ha hh => ?_,
    fun hp => step_asserted_assert hp,
    fun hp hq => ⟨step_idle_host hp hq, step_idle_host hp hq⟩,
    fun job hp hq => ⟨fun hh => ?_, fun hh => ?_⟩⟩
  · rcases or_assoc.mpr hh with hh | hh
    · exact (step_asserted_access hp hh).trans (resetAccess_address off ops s)
    · exact step_asserted_poll hp hh
  · exact (step_asserted_access hp hh).trans (resetAccess_outside ha ops)
  · exact step_busy_edge hp hq hh (by simp) rfl
  · exact step_busy_edge hp hq hh (by simp) rfl

end Sys2Proof.Machine
end

section
/-! PROOFS. Reset and hazards (spec/70_reset_and_hazards.md): host accesses to the sample window while an EXEC
has borrowed its slots, and what a marked run leaves in them. -/

namespace Sys2Proof.Machine

/-! ### Borrowed slots -/

/-- The slot of an offset in the sample window is in use exactly when a running EXEC has borrowed the offset
(R292, R293). -/
theorem slotInUse_offset_iff (s : State) {a : Nat} (lo : sampleBase ≤ a) :
    slotInUse s ((a - sampleBase) / 16) = true ↔
      ∃ r cfg ph hz, s.seq = some (.exec r cfg ph hz) ∧ inSlots cfg.n a := by
  have hslot (n : Nat) : (a - sampleBase) / 16 < n ↔ inSlots n a := by unfold inSlots; omega
  simp only [slotInUse_iff, hslot]

/-- No slot of such an offset is in use when no running EXEC has borrowed the offset. -/
theorem slotInUse_offset_eq_false {s : State} {a : Nat} (lo : sampleBase ≤ a)
    (h : ∀ r cfg ph hz, s.seq = some (.exec r cfg ph hz) → ¬inSlots cfg.n a) :
    slotInUse s ((a - sampleBase) / 16) = false := by
  rw [← Bool.not_eq_true, slotInUse_offset_iff s lo]
  rintro ⟨r, cfg, ph, hz, hq, hin⟩
  exact h r cfg ph hz hq hin

section
variable {s : State} {addr : Offset} {n : Nat} (hp : s.params.wf = true) (h : SampleAccess s.params addr n)
include hp h

/-- A read of the sample window, whatever is in flight (20_memory.md R57, R292). -/
theorem memRead_slot : memRead addr n s =
    if slotInUse s ((addr.toNat - sampleBase) / 16) then respondFree n s
    else respond (BitVec.ofNat 64 (readLE s.mem addr.toNat n)) s := by
  rw [memRead, if_pos h.ok, regionOf_eq_sample hp h.low h.high]

/-- A write to it, whatever is in flight (R57, R293). -/
theorem memWrite_slot (v : Word64) : memWrite addr n v s =
    .next (respond 0#64 (sampleWrite addr n v ((addr.toNat - sampleBase) / 16) s)) := by
  rw [memWrite, if_pos h.ok, regionOf_eq_sample hp h.low h.high]

end

/-- Settles O17: the slot read is in use exactly when a running EXEC has borrowed the offset. -/
theorem readsOfBorrowedSlotsAreFree : Obligations.ReadsOfBorrowedSlotsAreFree := by
  intro s addr n hp ok lo hi
  have hread := memRead_slot hp ⟨ok, lo, hi⟩
  refine ⟨fun r cfg ph hz hq hin => ?_, fun hfree => ?_⟩
  · rw [if_pos ((slotInUse_offset_iff s lo).mpr ⟨r, cfg, ph, hz, hq, hin⟩)] at hread
    rw [answer, hread]
    exact ⟨rfl, rfl⟩
  · rw [answer, hread, slotInUse_offset_eq_false lo hfree]
    rfl

/-! ### Writes -/

/-- A write to a slot in use marks the run and records HAZARD (R293). Log 14. -/
theorem sampleWrite_of_inUse {s : State} {r : Representation} {cfg : Latched} {ph : Phase} {hz : Bool}
    {addr : Offset} {n slot : Nat} (v : Word64) (hq : s.seq = some (.exec r cfg ph hz))
    (hu : slotInUse s slot = true) :
    sampleWrite addr n v slot s = { s with
      mem := writeLE s.mem addr.toNat n v.toNat, seq := some (.exec r cfg ph true)
      faults := .hazard :: s.faults } := by
  simp only [sampleWrite, hu, if_true, markHazard, hq]

/-- A write to any other slot stores its bytes. -/
theorem sampleWrite_of_not_inUse {s : State} {addr : Offset} {n slot : Nat} (v : Word64)
    (hu : slotInUse s slot = false) :
    sampleWrite addr n v slot s = { s with mem := writeLE s.mem addr.toNat n v.toNat } := by
  simp only [sampleWrite, hu, Bool.false_eq_true, if_false]

/-! ### The completion of a marked run -/

/-- The turn of a marked run that has no division left frees its slots and goes idle (44_execute.md R227, R293). -/
theorem engineTurn_marked_scaled (r : Representation) {cfg : Latched} {i : Nat} (s : State)
    (hdone : cfg.fwd = true ∨ cfg.n ≤ i) :
    ∃ o d, engineTurn (.exec r cfg (.scale i) true) s =
      { s with mem := (freeSlots cfg.n s).mem, seq := none, ovf := o, draws := d } := by
  obtain ⟨o, d, e⟩ := engineTurn_exec r cfg (.scale i) true s
  refine ⟨o, d, ?_⟩
  have hfree := freeSlots_eq cfg.n s
  rw [e]
  simp only [execTurn, if_pos hdone, finishExec, if_true]
  generalize (freeSlots cfg.n s).mem = m at *
  rw [hfree]

/-- With the host at rest that turn is the step, and each word it frees is a draw of its own. OVF is free in Q
alone (log 14). -/
theorem step_marked_scaled {s : State} {r : Representation} {cfg : Latched} {i : Nat} (h : Alone s)
    (hq : s.seq = some (.exec r cfg (.scale i) true)) (hdone : cfg.fwd = true ∨ cfg.n ≤ i) :
    ∃ t, step s = .next t ∧ t.busy = false ∧
      (∀ j < cfg.n, readSlot t.mem j =
        { re := Config.freeWord (s.draws + 2 * j), im := Config.freeWord (s.draws + 2 * j + 1) }) ∧
      (∀ b, ¬inSlots cfg.n b → readByte t.mem b = readByte s.mem b) ∧
      { t with seq := s.seq, mem := s.mem, ovf := s.ovf, draws := s.draws } = s ∧
      (r ≠ .Q → t.ovf = s.ovf) := by
  have hovf := (engineTurn_exec_ovf r cfg (.scale i) true s).1
  have hs := step_alone h hq
  obtain ⟨o, d, e⟩ := engineTurn_marked_scaled r s hdone
  rw [e] at hovf hs
  exact ⟨_, hs, rfl, fun j hj => readSlot_freeSlots s hj, fun b hb => readByte_freeSlots_other s hb, rfl, hovf⟩

/-- Whatever step ends a marked run with reset released is a turn of the engine, and frees the run's slots: no
entry of the host's list ends a run (`HostEffect.job`). -/
theorem step_marked_over {s t : State} {r : Representation} {cfg : Latched} {ph : Phase}
    (hq : s.seq = some (.exec r cfg ph true)) (hp : s.resetPin = false) (hs : step s = .next t)
    (hb : t.busy = false) :
    ∃ d, s.draws ≤ d ∧ ∀ j < cfg.n, readSlot t.mem j =
      { re := Config.freeWord (d + 2 * j), im := Config.freeWord (d + 2 * j + 1) } := by
  rcases step_busy_cases hp hq with ⟨d, hle, he⟩ | ⟨op, ops, -, he⟩ <;> rw [he] at hs
  · obtain rfl := Host.Outcome.next.inj hs
    exact ⟨d, hle, fun j hj => engineTurn_marked hb hj⟩
  · obtain ⟨job, hq', -⟩ := (hostOp_inv hs).job hq
    rw [busy_eq_false_iff, hq'] at hb
    cases hb

/-- Settles O19: a write marks the run exactly when the slot is in use, and a marked run ends by freeing its
slots. -/
theorem writeToABorrowedSlotIsAHazard : Obligations.WriteToABorrowedSlotIsAHazard := by
  intro s addr n v hp ok lo hi
  have hwrite := memWrite_slot hp ⟨ok, lo, hi⟩ v
  refine ⟨fun r cfg ph hz hq hin => ?_, fun hfree => ?_, readByte_writeLE s.mem addr.toNat n v.toNat,
    fun r cfg i hq hdone hpin hh => step_marked_scaled ⟨hh, hpin⟩ hq hdone,
    fun r cfg ph t hq hpin hs hb => step_marked_over hq hpin hs hb⟩
  · rw [hwrite, sampleWrite_of_inUse v hq ((slotInUse_offset_iff s lo).mpr ⟨r, cfg, ph, hz, hq, hin⟩)]
    rfl
  · rw [hwrite, sampleWrite_of_not_inUse v (slotInUse_offset_eq_false lo hfree)]
    rfl

end Sys2Proof.Machine
end
